-- ==== Sys2Proof/Word.lean ====
section
/-! DEFINITION. The words of the range_encoder core: a byte, a 48-bit immediate, a 64-bit register or
command word, a 34-bit host address (00_scope R6, R7; 20_memory R61; 30_encoding R90, R91). -/

namespace Sys2Proof

/-- A symbol, a buffer byte or the B operand: 8 bits (R6, R91). -/
abbrev Byte := BitVec 8

/-- The IMM operand: 48 bits (R91). -/
abbrev Imm := BitVec 48

/-- A command word or a 64-bit register (R7, R90). -/
abbrev Word := BitVec 64

/-- An address of the host's address space: 34 bits (R61). -/
abbrev Addr := BitVec 34

end Sys2Proof
end

