-- ==== Sys2Proof/Config.lean ====
section
/-! DEFINITION. What an implementation fixes (the two buffer capacities, 00_scope R8) and the free
values (the buffer contents the spec leaves open after reset, 20_memory R65, R67;
70_reset_and_hazards R301). -/

namespace Sys2Proof

/-- The open parameters of R8, in bytes. A machine carries its own through every step (R43; log 1). -/
structure Config where
  ibufCap : Nat
  obufCap : Nat
deriving DecidableEq, Repr

/-- R8: 1 <= IBUF_CAP <= 2^32 and 1 <= OBUF_CAP <= 2^32. -/
abbrev Config.wf (c : Config) : Prop :=
  (1 ≤ c.ibufCap ∧ c.ibufCap ≤ 2 ^ 32) ∧ (1 ≤ c.obufCap ∧ c.obufCap ≤ 2 ^ 32)

/-- The capacities of the spec's own vectors, 2^20 each (R8). DESIGN CHOICE of the reset state (log 1). -/
def Config.ofVectors : Config := ⟨2 ^ 20, 2 ^ 20⟩

/-- FREE VALUE (log 4): what byte `i` of IBUF holds after the reset numbered `n` until the host writes it:
"a draw fixed at reset" (R65, R301). Nothing constrains it. -/
opaque Config.ibufDraw (n i : Nat) : Byte

/-- FREE VALUE (log 5): what byte `i` of OBUF holds after the reset numbered `n` until the core writes it
(R67, R301). Nothing constrains it; the host never sees it in a reachable state. -/
opaque Config.obufDraw (n i : Nat) : Byte

end Sys2Proof
end

