-- ==== Sys2Proof/Syntax.lean ====
section
/-! DEFINITION. The 19 commands of RCC-CMD version 1, one constructor per row of spec/opcode_table.json
(30_encoding R93, R95). A constructor carries exactly the fields its command uses: B as a byte, IMM as 48
bits (R91, R92). -/

namespace Sys2Proof

inductive Instr where
  | nop
  | reset
  | modelClear
  | modelCount (sym : Byte)
  | modelSetCount (sym : Byte) (n : Imm)
  | modelBuild
  | modelReadCount (sym : Byte)
  | modelReadCum (i : Imm)
  | modelFind (v : Imm)
  | bitReset
  | bitPut (b : Byte)
  | bitPutn (b : Byte) (n : Imm)
  | bitFlush
  | bitGet
  | encStart
  | encSymbol (sym : Byte)
  | encFinish
  | decStart (n : Imm)
  | decSymbol
deriving DecidableEq, Repr

end Sys2Proof
end

