-- ==== Sys2Proof/Machine/State.lean ====
section
/-! DEFINITION. The machine's state as plain data (10_state R20-R43, 20_memory R60-R67), the host's accesses
that wait to be served, the outcomes a step may stop with, and the state after reset (10_state R21,
70_reset_and_hazards R300). -/

namespace Sys2Proof.Machine

/-- SESSION, a 2-bit register with four values (R22). -/
inductive Session where
  /-- 0: no coding session. -/
  | idle
  /-- 1: an encode session is open. -/
  | enc
  /-- 2: a decode session is open. -/
  | dec
  /-- 3: a fault has been recorded; only RESET acts. -/
  | faulted
deriving DecidableEq, Repr

/-- FAULT_CODE's values (60_exceptions R261); codes 10-255 are never written. -/
inductive FaultCode where
  | none
  | illegalCommand
  | reservedField
  | badState
  | badOperand
  | countOverflow
  | symbolCount
  | format
  | emptyInterval
  | outputOverflow
deriving DecidableEq, Repr

/-- One access of the host (R61, R70, R75), or its reset input (R300). `width` is in bits; a write narrower than
64 bits carries its value in the low bits of `data` (log 13). -/
inductive Access where
  | resetInput
  | write (addr : Addr) (width : Nat) (data : Word)
  | read (addr : Addr) (width : Nat)
deriving DecidableEq, Repr

/-- Where an operation of the spec has no meaning: the preconditions its rules state fail. The core's own faults
(R261) are NEXT states, not these. Each of these is SAFE: it stops where the spec gives no effect, and no state that
a run from reset reaches raises one (log 7). -/
inductive Fault where
  /-- Raised by Narrow and Scaled when TOTAL = 0, and by Scaled when HIGH - LOW + 1 <= 0: `a div b` is "defined here
  only for b > 0" (R9, R182, R222). Safe. -/
  | divisorNotPositive
  /-- Raised when a value written to a W-bit register does not lie in [0, 2^W) (R9). Safe. -/
  | valueOutOfRange
  /-- Raised by IBufRead and OBufAppend at an index at or past the buffer's capacity: no such byte (R66, R151). Safe. -/
  | indexOutOfBuffer
  /-- Raised by DEC_SYMBOL and MODEL_FIND when no symbol s has CUM[s] <= v < CUM[s+1]: FindSymbol is not defined
  (R126). Safe. -/
  | noSuchSymbol
  /-- Raised by EncRenorm and DecRenorm past the bound of 16 fires (R320); never, since LOW <= HIGH on entry. Safe. -/
  | renormBound
deriving DecidableEq, Repr

/-- Why a command has no meaning in the model. -/
inductive Refusal where
  /-- Raised by exec's arm of a command that is not modelled yet. Safe. No arm raises it. -/
  | notModelled (mnemonic : String)
deriving DecidableEq, Repr

/-- The state. The first group is the core's own (R21, R65, R67); `cfg` is its configuration (R8, R43); the last group
is the model's (log 2, 3, 6). -/
structure State where
  session : Session
  built : Bool
  count : Vector (BitVec 32) 256
  cum : Vector (BitVec 64) 257
  low : BitVec 16
  high : BitVec 16
  follow : BitVec 64
  value : BitVec 16
  encCount : BitVec 64
  remaining : BitVec 64
  acc : BitVec 8
  fill : BitVec 3
  srcByte : BitVec 8
  srcRem : BitVec 4
  eoi : Bool
  ipos : BitVec 64
  ibufLen : BitVec 64
  obufLen : BitVec 64
  result : BitVec 64
  faultCode : FaultCode
  faultCmd : BitVec 64
  /-- The bytes of IBUF that have been written since the last reset, by index. -/
  ibuf : List Host.Cell
  /-- The bytes of OBUF that have been written since the last reset, by index. -/
  obuf : List Host.Cell
  cfg : Config
  /-- The host's accesses still to be served, oldest first. -/
  pending : List Access
  /-- What the host's last read answered. -/
  readData : BitVec 64
  /-- Which reset the buffers' free values belong to. -/
  draw : Nat
deriving DecidableEq, Repr

/-- Right after reset: every register 0 but HIGH = 0xFFFF (R21, R300), no buffer byte written (R301), no access
pending. -/
def State.reset : State where
  session := .idle
  built := false
  count := Vector.replicate 256 0
  cum := Vector.replicate 257 0
  low := 0x0000
  high := 0xFFFF
  follow := 0
  value := 0x0000
  encCount := 0
  remaining := 0
  acc := 0x00
  fill := 0
  srcByte := 0x00
  srcRem := 0
  eoi := false
  ipos := 0
  ibufLen := 0
  obufLen := 0
  result := 0
  faultCode := .none
  faultCmd := 0
  ibuf := []
  obuf := []
  cfg := Config.ofVectors
  pending := []
  readData := 0
  draw := 0

/-- TOTAL is CUM[256] (R25). -/
abbrev State.total (s : State) : Word := s.cum[256]

end Sys2Proof.Machine
end

