-- ==== Sys2Proof/Machine/Flags.lean ====
section
/-! DEFINITION. The composite read-only registers: STATUS (10_state R38), SINK (R39), SOURCE (R40). The core has no
condition codes and no other flags (R38). -/

namespace Sys2Proof.Machine

/-- SESSION's two bits (R22). -/
def Session.toBits : Session → BitVec 2
  | .idle => 0
  | .enc => 1
  | .dec => 2
  | .faulted => 3

/-- FAULT_CODE's byte (60_exceptions R261). -/
def FaultCode.toByte : FaultCode → Byte
  | .none => 0
  | .illegalCommand => 1
  | .reservedField => 2
  | .badState => 3
  | .badOperand => 4
  | .countOverflow => 5
  | .symbolCount => 6
  | .format => 7
  | .emptyInterval => 8
  | .outputOverflow => 9

/-- STATUS (R38): bits 1:0 SESSION, 2 BUILT, 3 EOI, 15:8 FAULT_CODE, others 0. -/
def statusWord (s : State) : Word :=
  0#48 ++ (s.faultCode.toByte ++ (0#4 ++ (BitVec.ofBool s.eoi ++ (BitVec.ofBool s.built ++ s.session.toBits))))

/-- SINK (R39): bits 7:0 ACC, 10:8 FILL, others 0. -/
def sinkWord (s : State) : Word := 0#53 ++ (s.fill ++ s.acc)

/-- SOURCE (R40): bits 7:0 SRC_BYTE, 11:8 SRC_REM, others 0. -/
def sourceWord (s : State) : Word := 0#52 ++ (s.srcRem ++ s.srcByte)

end Sys2Proof.Machine
end

