-- ==== Sys2Proof/WellFormed.lean ====
section
/-! DEFINITION. Which commands have legal operand fields: the "must be" conditions of 30_encoding R93 that
the word alone decides. The field widths (B 8 bits, IMM 48 bits) hold by the types of Instr, and MODEL_FIND's
condition v < TOTAL depends on the state. A command that is not well-formed still decodes and runs: its body
raises BAD_OPERAND (R93). -/

namespace Sys2Proof

/-- R93: b must be 0 or 1 (BIT_PUT, BIT_PUTN), n must be at most 2^32 - 1 (MODEL_SET_COUNT), i must be at most
256 (MODEL_READ_CUM). -/
def Instr.wellFormed : Instr → Bool
  | .nop => true
  | .reset => true
  | .modelClear => true
  | .modelCount _ => true
  | .modelSetCount _ n => decide (n.toNat ≤ 2 ^ 32 - 1)
  | .modelBuild => true
  | .modelReadCount _ => true
  | .modelReadCum i => decide (i.toNat ≤ 256)
  | .modelFind _ => true
  | .bitReset => true
  | .bitPut b => decide (b.toNat ≤ 1)
  | .bitPutn b _ => decide (b.toNat ≤ 1)
  | .bitFlush => true
  | .bitGet => true
  | .encStart => true
  | .encSymbol _ => true
  | .encFinish => true
  | .decStart _ => true
  | .decSymbol => true

end Sys2Proof
end

