-- ==== Sys2Proof/Decode.lean ====
section
/-! DEFINITION. The command word's fields, the opcode table, the decoder and the encoder
(30_encoding R90-R97). Decoding is total on the 2^64 words: a word is a command, or it is rejected as
ILLEGAL_COMMAND or RESERVED_FIELD (R96). -/

namespace Sys2Proof

/-- Why a word is no command (R96). -/
inductive DecodeError where
  /-- The opcode is not assigned. -/
  | illegalCommand
  /-- The opcode is assigned and a field the command does not use is nonzero. -/
  | reservedField
deriving DecidableEq, Repr

/-- OPC = w[63:56] (R91). -/
def opcField (w : Word) : Byte := w.extractLsb' 56 8

/-- B = w[55:48] (R91, R92). -/
def bField (w : Word) : Byte := w.extractLsb' 48 8

/-- IMM = w[47:0] (R91, R92). -/
def immField (w : Word) : Imm := w.extractLsb' 0 48

/-- One row of the opcode map (R95) with the fields the command uses (R93). -/
structure OpRow where
  opc : Byte
  usesB : Bool
  usesImm : Bool
  make : Byte → Imm → Instr

/-- The assigned opcodes (R95), in the table's order, and which fields each uses (R93). -/
def opTable : List OpRow := [
  ⟨0x00, false, false, fun _ _ => .nop⟩,
  ⟨0x01, false, false, fun _ _ => .reset⟩,
  ⟨0x10, false, false, fun _ _ => .modelClear⟩,
  ⟨0x11, true, false, fun b _ => .modelCount b⟩,
  ⟨0x12, true, true, fun b imm => .modelSetCount b imm⟩,
  ⟨0x13, false, false, fun _ _ => .modelBuild⟩,
  ⟨0x14, true, false, fun b _ => .modelReadCount b⟩,
  ⟨0x15, false, true, fun _ imm => .modelReadCum imm⟩,
  ⟨0x16, false, true, fun _ imm => .modelFind imm⟩,
  ⟨0x20, false, false, fun _ _ => .bitReset⟩,
  ⟨0x21, true, false, fun b _ => .bitPut b⟩,
  ⟨0x22, true, true, fun b imm => .bitPutn b imm⟩,
  ⟨0x23, false, false, fun _ _ => .bitFlush⟩,
  ⟨0x24, false, false, fun _ _ => .bitGet⟩,
  ⟨0x30, false, false, fun _ _ => .encStart⟩,
  ⟨0x31, true, false, fun b _ => .encSymbol b⟩,
  ⟨0x32, false, false, fun _ _ => .encFinish⟩,
  ⟨0x40, false, true, fun _ imm => .decStart imm⟩,
  ⟨0x41, false, false, fun _ _ => .decSymbol⟩]

/-- The row of an opcode, if it is assigned (R95). -/
def opRow? (opc : Byte) : Option OpRow := opTable.find? fun r => r.opc == opc

/-- Decoding from the three fields: the second and third checks of R97. -/
def decodeFields (opc b : Byte) (imm : Imm) : Except DecodeError Instr :=
  match opRow? opc with
  | none => .error .illegalCommand
  | some r =>
    if (!r.usesB && b != 0) || (!r.usesImm && imm != 0) then .error .reservedField
    else .ok (r.make b imm)

/-- The decoder (R96, R97): total, rejecting by name. -/
def decode (w : Word) : Except DecodeError Instr :=
  decodeFields (opcField w) (bField w) (immField w)

/-- The word with the given fields (R91). -/
def wordOf (opc b : Byte) (imm : Imm) : Word := opc ++ (b ++ imm)

/-- The encoder (R93, R95): unused fields are 0. -/
def encode : Instr → Word
  | .nop => wordOf 0x00 0 0
  | .reset => wordOf 0x01 0 0
  | .modelClear => wordOf 0x10 0 0
  | .modelCount sym => wordOf 0x11 sym 0
  | .modelSetCount sym n => wordOf 0x12 sym n
  | .modelBuild => wordOf 0x13 0 0
  | .modelReadCount sym => wordOf 0x14 sym 0
  | .modelReadCum i => wordOf 0x15 0 i
  | .modelFind v => wordOf 0x16 0 v
  | .bitReset => wordOf 0x20 0 0
  | .bitPut b => wordOf 0x21 b 0
  | .bitPutn b n => wordOf 0x22 b n
  | .bitFlush => wordOf 0x23 0 0
  | .bitGet => wordOf 0x24 0 0
  | .encStart => wordOf 0x30 0 0
  | .encSymbol sym => wordOf 0x31 sym 0
  | .encFinish => wordOf 0x32 0 0
  | .decStart n => wordOf 0x40 0 n
  | .decSymbol => wordOf 0x41 0 0

/-- The command a word of spec/opcode_table.json's numbering decodes to. A command is one 64-bit word (R90)
numbered from its least significant bit, so the table's number IS the word. -/
def decodeTableWord (nbits w : Nat) : Option Instr :=
  if nbits ≤ 64 ∧ w < 2 ^ nbits then
    match decode (BitVec.ofNat 64 w) with
    | .ok i => some i
    | .error _ => none
  else none

end Sys2Proof
end

