-- ==== Sys2Proof/Machine/Ops.lean ====
section
/-! DEFINITION. The named operations over registers, buffers and model tables: writing a register (00_scope R9), the
two buffers (20_memory R65-R67), fault entry (60_exceptions R264), reset (70_reset_and_hazards R300), the bit sink and
source (41_bit_sink_source), the model lookups (40_frequency_model R125, R126), the interval operations
(42_range_encoder R182-R186) and the decoder's own (43_range_decoder R221-R223). -/

namespace Sys2Proof.Machine

/-! ### The effect of a command's body -/

/-- How a body ends early: a fault of the core (R264), or an operation to which the spec gives no meaning (log 7). -/
inductive Stop where
  | raise (c : FaultCode)
  | noMeaning (f : Fault)
deriving DecidableEq, Repr

/-- A body answers a value or stops. It works on its own copy of the state, so a stop keeps nothing of it: commands are
all-or-nothing (R260, R264). -/
abbrev Eff (α : Type) := Except Stop α

/-- `raise Fault(CODE)` of the pseudocode (R10). -/
abbrev raiseFault {α : Type} (c : FaultCode) : Eff α := .error (.raise c)

/-- An operation outside the spec's meaning (log 7). -/
abbrev noMeaning {α : Type} (f : Fault) : Eff α := .error (.noMeaning f)

/-- R9: a value written to a W-bit register must lie in `[0, 2^W)`. -/
def fit (w n : Nat) : Eff (BitVec w) :=
  if n < 2 ^ w then .ok (BitVec.ofNat w n) else noMeaning .valueOutOfRange

/-- R9 for a value computed on signed integers. -/
def fitInt (w : Nat) (n : Int) : Eff (BitVec w) :=
  if 0 ≤ n then fit w n.toNat else noMeaning .valueOutOfRange

/-! ### Fault entry and reset -/

/-- Fault entry (R264): of the state before the command only FAULT_CODE, FAULT_CMD and SESSION change. -/
def faultEntry (c : FaultCode) (w : Word) (s : State) : State :=
  { s with faultCode := c, faultCmd := w, session := .faulted }

/-- Reset, from the reset input or the RESET command (R251, R300): every register takes its reset value and the buffers'
contents are drawn anew (R301; log 6). The configuration and the host's side stay. -/
def performReset (s : State) : State :=
  { State.reset with
    cfg := s.cfg, pending := s.pending, readData := s.readData, draw := s.draw + 1 }

/-- The outcome of a body run on `s` for the command word `w` (R264). -/
def commit (w : Word) (s : State) : Eff State → Host.Outcome State Fault Refusal
  | .ok t => .next t
  | .error (.raise c) => .next (faultEntry c w s)
  | .error (.noMeaning f) => .fault f

/-! ### The buffers -/

/-- The byte listed at an index, if it has been written. -/
def Memory.lookup : List Host.Cell → Nat → Option Byte
  | [], _ => none
  | (k, v) :: m, a => if k = a then some v else Memory.lookup m a

/-- Writes a byte, keeping the indexes strictly rising. -/
def Memory.write : List Host.Cell → Nat → Byte → List Host.Cell
  | [], a, b => [(a, b)]
  | (k, v) :: m, a, b =>
    if a < k then (a, b) :: (k, v) :: m
    else if a = k then (a, b) :: m
    else (k, v) :: Memory.write m a b

/-- The canonical form: indexes strictly rising. An unlisted index holds no written byte, so no entry can equal what an
unlisted one reads as (log 4). -/
abbrev Memory.wf (m : List Host.Cell) : Prop := m.Pairwise fun x y => x.1 < y.1

/-- IBUF[i]: the written byte, or the draw of the last reset (R65, R301). -/
def ibufByte (s : State) (i : Nat) : Byte :=
  (Memory.lookup s.ibuf i).getD (Config.ibufDraw s.draw i)

/-- OBUF[i]: the written byte, or the draw of the last reset (R67, R301). -/
def obufByte (s : State) (i : Nat) : Byte :=
  (Memory.lookup s.obuf i).getD (Config.obufDraw s.draw i)

/-- IBufRead(i) (R66): the core's one memory read. -/
def ibufRead (i : Word) (s : State) : Eff Byte :=
  if i.toNat < s.cfg.ibufCap then .ok (ibufByte s i.toNat) else noMeaning .indexOutOfBuffer

/-- OBufAppend(b) (R151): the core's one memory write. -/
def obufAppend (b : Byte) (s : State) : Eff State :=
  if s.obufLen.toNat = s.cfg.obufCap then raiseFault .outputOverflow
  else if s.obufLen.toNat < s.cfg.obufCap then do
    let len ← fit 64 (s.obufLen.toNat + 1)
    return { s with obuf := Memory.write s.obuf s.obufLen.toNat b, obufLen := len }
  else noMeaning .indexOutOfBuffer

/-! ### The bit sink -/

/-- SinkReset() (R155). -/
def sinkReset (s : State) : State := { s with acc := 0, fill := 0, obufLen := 0 }

/-- PutBit(b) (R152). -/
def putBit (b : Bool) (s : State) : Eff State :=
  if s.fill = 7 then do
    let byte ← fit 8 (2 * s.acc.toNat + b.toNat)
    let t ← obufAppend byte s
    return { t with acc := 0, fill := 0 }
  else do
    let acc ← fit 8 (2 * s.acc.toNat + b.toNat)
    return { s with acc := acc, fill := s.fill + 1 }

/-- PutFollowed(b, n) (R153): n successive PutBit(b). -/
def putFollowed (b : Bool) : Nat → State → Eff State
  | 0, s => .ok s
  | n + 1, s => do
    let t ← putBit b s
    putFollowed b n t

/-- Flush() (R154). -/
def flush (s : State) : Eff State :=
  if s.fill = 0 then .ok s
  else do
    let byte ← fit 8 (s.acc.toNat * 2 ^ (8 - s.fill.toNat))
    let t ← obufAppend byte s
    return { t with acc := 0, fill := 0 }

/-! ### The bit source -/

/-- SourceReset() (R161). -/
def sourceReset (s : State) : State := { s with srcByte := 0, srcRem := 0, eoi := false, ipos := 0 }

/-- What GetBit returns: the bit, whether it is end-of-input padding, and the state after it. -/
structure Got where
  bit : Bool
  padded : Bool
  after : State

/-- The last two lines of R160's GetBit: SRC_REM goes down by one, and SRC_BYTE[SRC_REM] is returned. -/
def takeBit (s : State) : Eff Got :=
  if s.srcRem.toNat ≤ 8 then
    .ok ⟨s.srcByte.getLsbD (s.srcRem.toNat - 1), false, { s with srcRem := s.srcRem - 1 }⟩
  else noMeaning .valueOutOfRange

/-- GetBit() (R160). -/
def getBit (s : State) : Eff Got :=
  if s.srcRem = 0 then
    if s.ipos.toNat < s.ibufLen.toNat then do
      let byte ← ibufRead s.ipos s
      takeBit { s with srcByte := byte, ipos := s.ipos + 1, srcRem := 8 }
    else .ok ⟨false, true, { s with eoi := true }⟩
  else takeBit s

/-! ### The frequency model -/

/-- cumLow(s) = CUM[s] (R125). -/
def cumLow (sym : Byte) (s : State) : Nat := s.cum[sym.toNat].toNat

/-- cumHigh(s) = CUM[s+1] (R125). -/
def cumHigh (sym : Byte) (s : State) : Nat := s.cum[sym.toNat + 1].toNat

/-- MODEL_BUILD's running sums (R124): the list CUM[i], CUM[i+1], ... from CUM[i] = `acc` and the counts from i on. -/
def runningSums : Nat → List (BitVec 32) → List Word
  | acc, [] => [BitVec.ofNat 64 acc]
  | acc, c :: cs => BitVec.ofNat 64 acc :: runningSums (acc + c.toNat) cs

@[simp] theorem runningSums_length (acc : Nat) (cs : List (BitVec 32)) :
    (runningSums acc cs).length = cs.length + 1 := by
  induction cs generalizing acc with
  | nil => rfl
  | cons c cs ih => simp [runningSums, ih]

/-- The cumulative table of the counts (R124). -/
def cumTable (count : Vector (BitVec 32) 256) : Vector Word 257 :=
  ⟨(runningSums 0 count.toList).toArray, by simp⟩

/-- The first index i, counted from `i`, with CUM[i] <= v < CUM[i+1]. -/
def findFrom : Nat → List Word → Nat → Option Nat
  | i, lo :: hi :: rest, v =>
    if lo.toNat ≤ v ∧ v < hi.toNat then some i else findFrom (i + 1) (hi :: rest) v
  | _, _, _ => none

/-- FindSymbol(v) (R126): the s with CUM[s] <= v < CUM[s+1]. Only the result is architectural, not the order of the
search (log 12). -/
def findSymbol (v : Nat) (s : State) : Eff Byte :=
  match findFrom 0 s.cum.toList v with
  | some i => .ok (BitVec.ofNat 8 i)
  | none => noMeaning .noSuchSymbol

/-- One iteration of the binary search R126 describes, from lo and hi. -/
def searchStep (cum : Vector Word 257) (v lo hi : Nat) : Nat × Nat :=
  let mid := (lo + hi) / 2
  if (cum.getD mid 0).toNat ≤ v then (mid, hi) else (lo, mid)

/-- R126's binary search: `n` iterations from lo and hi. -/
def searchLoop (cum : Vector Word 257) (v : Nat) : Nat → Nat → Nat → Nat
  | 0, lo, _ => lo
  | n + 1, lo, hi =>
    searchLoop cum v n (searchStep cum v lo hi).1 (searchStep cum v lo hi).2

/-! ### The interval -/

/-- TOP (R180). -/
def top : BitVec 16 := 0xFFFF
/-- HALF (R180). -/
def half : BitVec 16 := 0x8000
/-- QUARTER (R180). -/
def quarter : BitVec 16 := 0x4000
/-- THREEQ (R180). -/
def threeq : BitVec 16 := 0xC000

/-- r = HIGH - LOW + 1 on unbounded integers (R182, R222). -/
def width (s : State) : Int := (s.high.toNat : Int) - s.low.toNat + 1

/-- Narrow's step 2: LOW + (r * cumLow(s)) div TOTAL (R182). -/
def narrowedLow (sym : Byte) (s : State) : Int :=
  s.low.toNat + (width s * cumLow sym s) / s.total.toNat

/-- Narrow's step 3: LOW + (r * cumHigh(s)) div TOTAL - 1 (R182). -/
def narrowedHigh (sym : Byte) (s : State) : Int :=
  s.low.toNat + (width s * cumHigh sym s) / s.total.toNat - 1

/-- Narrow(s) (R182): the check stands before LOW and HIGH are written. -/
def narrow (sym : Byte) (s : State) : Eff State :=
  if s.total = 0 then noMeaning .divisorNotPositive
  else if narrowedHigh sym s < narrowedLow sym s then raiseFault .emptyInterval
  else do
    let low ← fitInt 16 (narrowedLow sym s)
    let high ← fitInt 16 (narrowedHigh sym s)
    return { s with low := low, high := high }

/-- What the renormalization loop does next (R183). -/
inductive Branch where
  | lower
  | upper
  | middle
  | stop
deriving DecidableEq, Repr

/-- Classify(lo, hi) (R183): the tests in the spec's order. -/
def classify (lo hi : BitVec 16) : Branch :=
  if hi < half then .lower
  else if half ≤ lo then .upper
  else if quarter ≤ lo ∧ hi < threeq then .middle
  else .stop

/-- Shift() (R184). -/
def shift (s : State) : State :=
  { s with
    low := BitVec.ofNat 16 (2 * s.low.toNat)
    high := BitVec.ofNat 16 (2 * s.high.toNat + 1) }

/-- LOW <- LOW - d; HIGH <- HIGH - d (R186, R223). -/
def moveInterval (d : BitVec 16) (s : State) : State :=
  { s with low := s.low - d, high := s.high - d }

/-- The renormalization loop's bound: at most 16 fires and one STOP (R320). -/
def renormFuel : Nat := 17

/-! ### The encoder's loop -/

/-- BitPlusFollow(b) (R185). -/
def bitPlusFollow (b : Bool) (s : State) : Eff State := do
  let t ← putBit b s
  let u ← putFollowed (!b) t.follow.toNat t
  return { u with follow := 0 }

/-- EncRenorm() (R186), at most `n` turns of the loop. -/
def encRenorm : Nat → State → Eff State
  | 0, _ => noMeaning .renormBound
  | n + 1, s =>
    match classify s.low s.high with
    | .lower => do
      let t ← bitPlusFollow false s
      encRenorm n (shift t)
    | .upper => do
      let t ← bitPlusFollow true s
      encRenorm n (shift (moveInterval half t))
    | .middle => do
      let follow ← fit 64 (s.follow.toNat + 1)
      encRenorm n (shift (moveInterval quarter { s with follow := follow }))
    | .stop => .ok s

/-! ### The decoder's operations -/

/-- VALUE <- (2 * VALUE + bit) mod 2^16 (R221, R223). -/
def shiftInBit (b : Bool) (s : State) : State :=
  { s with value := BitVec.ofNat 16 (2 * s.value.toNat + b.toNat) }

/-- One bit of the source into VALUE (R221, R223). -/
def pullBit (s : State) : Eff State := do
  let g ← getBit s
  return shiftInBit g.bit g.after

/-- `n` bits of the source into VALUE. -/
def pullBits : Nat → State → Eff State
  | 0, s => .ok s
  | n + 1, s => do
    let t ← pullBit s
    pullBits n t

/-- ValueFill() (R221). -/
def valueFill (s : State) : Eff State := pullBits 16 { s with value := 0 }

/-- The quotient of R222 before its clamp; `/` on Int is floor division for a positive divisor. -/
def scaledQuotient (s : State) : Int :=
  (((s.value.toNat : Int) - s.low.toNat + 1) * s.total.toNat - 1) / width s

/-- R222's clamp to [0, TOTAL). -/
def clamp (t total : Int) : Int :=
  let t := if t < 0 then 0 else t
  if total - 1 < t then total - 1 else t

/-- Scaled() (R222). -/
def scaled (s : State) : Eff Nat :=
  if s.total = 0 ∨ width s ≤ 0 then noMeaning .divisorNotPositive
  else .ok (clamp (scaledQuotient s) s.total.toNat).toNat

/-- The decoder moves VALUE with the interval, mod 2^16 (R223; 90_conflicts C1). -/
def moveAll (d : BitVec 16) (s : State) : State :=
  { moveInterval d s with value := s.value - d }

/-- DecRenorm() (R223), at most `n` turns of the loop. -/
def decRenorm : Nat → State → Eff State
  | 0, _ => noMeaning .renormBound
  | n + 1, s =>
    match classify s.low s.high with
    | .lower => do
      let t ← pullBit (shift s)
      decRenorm n t
    | .upper => do
      let t ← pullBit (shift (moveAll half s))
      decRenorm n t
    | .middle => do
      let t ← pullBit (shift (moveAll quarter s))
      decRenorm n t
    | .stop => .ok s

end Sys2Proof.Machine
end

