-- ==== Sys2Proof/Machine/Bus.lean ====
section
/-! DEFINITION. The host's view of the core: the address map (20_memory R61), reads (R62-R64, R67-R69) and the writes
that are not commands (R69-R71). -/

namespace Sys2Proof.Machine

/-- What an address of the host names (R61, R62). -/
inductive Region where
  | register (offset : Nat)
  | ibuf (i : Nat)
  | obuf (i : Nat)
  | nothing
deriving DecidableEq, Repr

/-- The IBUF window's first address (R61). -/
def ibufBase : Nat := 0x100000000

/-- The OBUF window's first address (R61). -/
def obufBase : Nat := 0x200000000

/-- The three regions of the address map and the gaps between them (R61, R62). -/
def region (c : Config) (a : Addr) : Region :=
  if a.toNat < 0x1000 then .register a.toNat
  else if ibufBase ≤ a.toNat ∧ a.toNat < ibufBase + c.ibufCap then .ibuf (a.toNat - ibufBase)
  else if obufBase ≤ a.toNat ∧ a.toNat < obufBase + c.obufCap then .obuf (a.toNat - obufBase)
  else .nothing

/-- What a 64-bit read of a register offset returns (R61): CMD, reserved and unaligned offsets read 0 (R62-R64). -/
def registerRead (offset : Nat) (s : State) : Word :=
  match offset with
  | 0x008 => statusWord s
  | 0x010 => s.result
  | 0x018 => s.faultCmd
  | 0x020 => s.total
  | 0x028 => s.low.setWidth 64
  | 0x030 => s.high.setWidth 64
  | 0x038 => s.value.setWidth 64
  | 0x040 => s.follow
  | 0x048 => s.encCount
  | 0x050 => s.remaining
  | 0x058 => sinkWord s
  | 0x060 => sourceWord s
  | 0x068 => s.ipos
  | 0x070 => s.ibufLen
  | 0x078 => s.obufLen
  | _ => 0

/-- A host read of `width` bits (R61-R64, R67-R69). It changes nothing of the core. -/
def busRead (a : Addr) (width : Nat) (s : State) : Word :=
  match region s.cfg a with
  | .register offset => if width = 64 then registerRead offset s else 0
  | .ibuf i => if width = 8 then (ibufByte s i).setWidth 64 else 0
  | .obuf i => if width = 8 ∧ i < s.obufLen.toNat then (obufByte s i).setWidth 64 else 0
  | .nothing => 0

/-- Writing IBUF_LEN (R71). -/
def writeIbufLen (v : Word) (s : State) : State :=
  if s.session = .idle ∧ v.toNat ≤ s.cfg.ibufCap then { s with ibufLen := v } else s

/-- Writing an IBUF byte (R69). -/
def writeIbuf (i : Nat) (b : Byte) (s : State) : State :=
  if s.session = .idle then { s with ibuf := Memory.write s.ibuf i b } else s

/-- A host write that is not a command (R62-R64, R68-R71): every write but to IBUF_LEN and to an IBUF byte is ignored. -/
def busWrite (a : Addr) (width : Nat) (data : Word) (s : State) : State :=
  match region s.cfg a with
  | .register offset => if offset = 0x070 ∧ width = 64 then writeIbufLen data s else s
  | .ibuf i => if width = 8 then writeIbuf i (data.setWidth 8) s else s
  | .obuf _ => s
  | .nothing => s

/-- CMD's address (R61). -/
def cmdAddr : Addr := 0x000

/-- Whether a write issues a command: 64 bits wide, to CMD (R61, R62). -/
def isCommand (a : Addr) (width : Nat) : Bool := a == cmdAddr && width == 64

end Sys2Proof.Machine
end

