-- ==== Sys2Proof/Machine/Operands.lean ====
section
/-! DEFINITION. When a command is legal (30_encoding R98), the operand checks of the commands' bodies (R93), and the
one shape every command runs in (R97): ignored in FAULTED, BAD_STATE where it is not legal, else its body, committed
whole or not at all (60_exceptions R264). -/

namespace Sys2Proof.Machine

/-- Legal(OPC, SESSION, BUILT) (R98), row by row. The ENC and DEC columns do not look at BUILT. -/
def legal (i : Instr) (ses : Session) (built : Bool) : Bool :=
  match i with
  | .nop => ses != .faulted
  | .reset => ses != .faulted
  | .modelClear => ses == .idle
  | .modelCount _ => ses == .idle && !built
  | .modelSetCount _ _ => ses == .idle && !built
  | .modelBuild => ses == .idle && !built
  | .modelReadCount _ => ses != .faulted
  | .modelReadCum _ => (ses == .idle && built) || ses == .enc || ses == .dec
  | .modelFind _ => (ses == .idle && built) || ses == .enc || ses == .dec
  | .bitReset => ses == .idle
  | .bitPut _ => ses == .idle
  | .bitPutn _ _ => ses == .idle
  | .bitFlush => ses == .idle
  | .bitGet => ses == .idle
  | .encStart => ses == .idle && built
  | .encSymbol _ => ses == .enc
  | .encFinish => ses == .enc
  | .decStart _ => ses == .idle && built
  | .decSymbol => ses == .dec

/-- A bit operand: b > 1 is BAD_OPERAND (R156, R157). -/
def bitOperand (b : Byte) : Eff Bool :=
  if b.toNat > 1 then raiseFault .badOperand else .ok (b.toNat == 1)

/-- A count operand: n > 2^32 - 1 is BAD_OPERAND (R123). -/
def countOperand (n : Imm) : Eff (BitVec 32) :=
  if n.toNat > 2 ^ 32 - 1 then raiseFault .badOperand else .ok (n.setWidth 32)

/-- An index of CUM: i > 256 is BAD_OPERAND (R128). -/
def indexOperand (i : Imm) : Eff (Fin 257) :=
  if h : i.toNat < 257 then .ok ⟨i.toNat, h⟩ else raiseFault .badOperand

/-- A scaled value: v >= TOTAL is BAD_OPERAND (R129). -/
def findOperand (v : Imm) (s : State) : Eff Nat :=
  if v.toNat ≥ s.total.toNat then raiseFault .badOperand else .ok v.toNat

/-- Running a decoded command other than RESET: R97 from the FAULTED check on. The word recorded by a fault is the
command's own, which `encode` gives back (log 8). -/
def runCommand (i : Instr) (body : State → Eff State) (s : State) : Host.Outcome State Fault Refusal :=
  if s.session = .faulted then .next s
  else if legal i s.session s.built then commit (encode i) s (body s)
  else .next (faultEntry .badState (encode i) s)

end Sys2Proof.Machine
end

