-- ==== Sys2Proof/Machine/BitBuffers.lean ====
section
/-! DEFINITION. The raw BitSink and BitSource commands (41_bit_sink_source R156-R158, R162, R163). -/

namespace Sys2Proof.Machine

/-- BIT_RESET's body (R163). -/
def bitResetBody (s : State) : Eff State := .ok (sourceReset (sinkReset s))

/-- BIT_RESET (R163). -/
def execBitReset (s : State) : Host.Outcome State Fault Refusal :=
  runCommand .bitReset bitResetBody s

/-- BIT_PUT's body (R156). -/
def bitPutBody (b : Byte) (s : State) : Eff State := do
  let bit ← bitOperand b
  putBit bit s

/-- BIT_PUT b (R156). -/
def execBitPut (b : Byte) (s : State) : Host.Outcome State Fault Refusal :=
  runCommand (.bitPut b) (bitPutBody b) s

/-- BIT_PUTN's body (R157). -/
def bitPutnBody (b : Byte) (n : Imm) (s : State) : Eff State := do
  let bit ← bitOperand b
  putFollowed bit n.toNat s

/-- BIT_PUTN b, n (R157). -/
def execBitPutn (b : Byte) (n : Imm) (s : State) : Host.Outcome State Fault Refusal :=
  runCommand (.bitPutn b n) (bitPutnBody b n) s

/-- BIT_FLUSH (R158). -/
def execBitFlush (s : State) : Host.Outcome State Fault Refusal :=
  runCommand .bitFlush flush s

/-- BIT_GET's body (R162): RESULT <- bit + 2 * padded. -/
def bitGetBody (s : State) : Eff State := do
  let g ← getBit s
  return { g.after with result := BitVec.ofNat 64 (g.bit.toNat + 2 * g.padded.toNat) }

/-- BIT_GET (R162). -/
def execBitGet (s : State) : Host.Outcome State Fault Refusal :=
  runCommand .bitGet bitGetBody s

end Sys2Proof.Machine
end

