-- ==== Sys2Proof/Machine/FrequencyModel.lean ====
section
/-! DEFINITION. The FrequencyModel commands (40_frequency_model R121-R124, R127-R129). -/

namespace Sys2Proof.Machine

/-- MODEL_CLEAR's body (R121). -/
def modelClearBody (s : State) : Eff State :=
  .ok { s with count := Vector.replicate 256 0, cum := Vector.replicate 257 0, built := false }

/-- MODEL_CLEAR (R121). -/
def execModelClear (s : State) : Host.Outcome State Fault Refusal :=
  runCommand .modelClear modelClearBody s

/-- MODEL_COUNT's body (R122). -/
def modelCountBody (sym : Byte) (s : State) : Eff State :=
  if s.count[sym.toNat] = 0xFFFFFFFF then raiseFault .countOverflow
  else .ok { s with count := s.count.set sym.toNat (s.count[sym.toNat] + 1) }

/-- MODEL_COUNT s (R122). -/
def execModelCount (sym : Byte) (s : State) : Host.Outcome State Fault Refusal :=
  runCommand (.modelCount sym) (modelCountBody sym) s

/-- MODEL_SET_COUNT's body (R123). -/
def modelSetCountBody (sym : Byte) (n : Imm) (s : State) : Eff State := do
  let c ← countOperand n
  return { s with count := s.count.set sym.toNat c }

/-- MODEL_SET_COUNT s, n (R123). -/
def execModelSetCount (sym : Byte) (n : Imm) (s : State) : Host.Outcome State Fault Refusal :=
  runCommand (.modelSetCount sym n) (modelSetCountBody sym n) s

/-- MODEL_BUILD's body (R124). -/
def modelBuildBody (s : State) : Eff State :=
  .ok { s with cum := cumTable s.count, built := true }

/-- MODEL_BUILD (R124). -/
def execModelBuild (s : State) : Host.Outcome State Fault Refusal :=
  runCommand .modelBuild modelBuildBody s

/-- MODEL_READ_COUNT's body (R127). -/
def modelReadCountBody (sym : Byte) (s : State) : Eff State :=
  .ok { s with result := s.count[sym.toNat].setWidth 64 }

/-- MODEL_READ_COUNT s (R127). -/
def execModelReadCount (sym : Byte) (s : State) : Host.Outcome State Fault Refusal :=
  runCommand (.modelReadCount sym) (modelReadCountBody sym) s

/-- MODEL_READ_CUM's body (R128). -/
def modelReadCumBody (i : Imm) (s : State) : Eff State := do
  let k ← indexOperand i
  return { s with result := s.cum[k.val] }

/-- MODEL_READ_CUM i (R128). -/
def execModelReadCum (i : Imm) (s : State) : Host.Outcome State Fault Refusal :=
  runCommand (.modelReadCum i) (modelReadCumBody i) s

/-- MODEL_FIND's body (R129). -/
def modelFindBody (v : Imm) (s : State) : Eff State := do
  let t ← findOperand v s
  let sym ← findSymbol t s
  return { s with result := sym.setWidth 64 }

/-- MODEL_FIND v (R129). -/
def execModelFind (v : Imm) (s : State) : Host.Outcome State Fault Refusal :=
  runCommand (.modelFind v) (modelFindBody v) s

end Sys2Proof.Machine
end

