-- ==== Sys2Proof/Machine/RangeDecoder.lean ====
section
/-! DEFINITION. The RangeDecoder commands (43_range_decoder R224, R225). -/

namespace Sys2Proof.Machine

/-- DEC_START's registers before the fill (R224). -/
def decStartInit (n : Imm) (s : State) : State :=
  { sourceReset s with
    obufLen := 0, low := 0, high := top, value := 0, remaining := n.setWidth 64 }

/-- DEC_START's body (R224): a declared count that is not TOTAL is FORMAT; a count of 0 opens no session. -/
def decStartBody (n : Imm) (s : State) : Eff State :=
  if n.toNat ≠ s.total.toNat then raiseFault .format
  else if n = 0 then .ok (decStartInit n s)
  else do
    let t ← valueFill (decStartInit n s)
    return { t with session := .dec }

/-- DEC_START n (R224). -/
def execDecStart (n : Imm) (s : State) : Host.Outcome State Fault Refusal :=
  runCommand (.decStart n) (decStartBody n) s

/-- The last two lines of DEC_SYMBOL (R225): REMAINING goes down by one, and at 0 the session ends. -/
def countDown (s : State) : Eff State :=
  if s.remaining = 0 then noMeaning .valueOutOfRange
  else .ok { s with
    remaining := s.remaining - 1
    session := if s.remaining = 1 then .idle else s.session }

/-- DEC_SYMBOL's body (R225). -/
def decSymbolBody (s : State) : Eff State := do
  let t ← scaled s
  let sym ← findSymbol t s
  let u ← obufAppend sym s
  let v ← narrow sym { u with result := sym.setWidth 64 }
  let w ← decRenorm renormFuel v
  countDown w

/-- DEC_SYMBOL (R225). -/
def execDecSymbol (s : State) : Host.Outcome State Fault Refusal :=
  runCommand .decSymbol decSymbolBody s

end Sys2Proof.Machine
end

