-- ==== Sys2Proof/Machine/RangeEncoder.lean ====
section
/-! DEFINITION. The RangeEncoder commands (42_range_encoder R187-R189). -/

namespace Sys2Proof.Machine

/-- ENC_START's body (R187). -/
def encStartBody (s : State) : Eff State :=
  .ok { sinkReset { s with low := 0, high := top, follow := 0 } with encCount := 0, session := .enc }

/-- ENC_START (R187). -/
def execEncStart (s : State) : Host.Outcome State Fault Refusal :=
  runCommand .encStart encStartBody s

/-- ENC_SYMBOL's body (R188). -/
def encSymbolBody (sym : Byte) (s : State) : Eff State :=
  if s.encCount = s.total then raiseFault .symbolCount
  else do
    let t ← narrow sym s
    let u ← encRenorm renormFuel t
    let n ← fit 64 (u.encCount.toNat + 1)
    return { u with encCount := n }

/-- ENC_SYMBOL s (R188). -/
def execEncSymbol (sym : Byte) (s : State) : Host.Outcome State Fault Refusal :=
  runCommand (.encSymbol sym) (encSymbolBody sym) s

/-- The bits ENC_FINISH emits when TOTAL > 0 (R189): FOLLOW + 1, the disambiguating bit by LOW, then Flush. -/
def finishBits (s : State) : Eff State := do
  let follow ← fit 64 (s.follow.toNat + 1)
  let t ← bitPlusFollow (decide (quarter ≤ s.low)) { s with follow := follow }
  flush t

/-- ENC_FINISH's body (R189). -/
def encFinishBody (s : State) : Eff State :=
  if s.encCount ≠ s.total then raiseFault .symbolCount
  else if s.total = 0 then .ok { s with session := .idle }
  else do
    let t ← finishBits s
    return { t with session := .idle }

/-- ENC_FINISH (R189). -/
def execEncFinish (s : State) : Host.Outcome State Fault Refusal :=
  runCommand .encFinish encFinishBody s

end Sys2Proof.Machine
end

