-- ==== Sys2Proof/Machine/System.lean ====
section
/-! DEFINITION. The system commands NOP and RESET (45_system R250, R251). -/

namespace Sys2Proof.Machine

/-- NOP (R250): no state changes. -/
def execNop (s : State) : Host.Outcome State Fault Refusal :=
  runCommand .nop (fun t => .ok t) s

/-- RESET (R251): legal in every session, FAULTED included. -/
def execReset (s : State) : Host.Outcome State Fault Refusal := .next (performReset s)

end Sys2Proof.Machine
end

