-- ==== Sys2Proof/Machine/Dispatch.lean ====
section
/-! DEFINITION. Running a command: one arm per command, each one call of its meaning. -/

namespace Sys2Proof.Machine

def exec (i : Instr) (s : State) : Host.Outcome State Fault Refusal :=
  match i with
  | .nop => Sys2Proof.Machine.execNop s
  | .reset => Sys2Proof.Machine.execReset s
  | .modelClear => Sys2Proof.Machine.execModelClear s
  | .modelCount sym => Sys2Proof.Machine.execModelCount sym s
  | .modelSetCount sym n => Sys2Proof.Machine.execModelSetCount sym n s
  | .modelBuild => Sys2Proof.Machine.execModelBuild s
  | .modelReadCount sym => Sys2Proof.Machine.execModelReadCount sym s
  | .modelReadCum k => Sys2Proof.Machine.execModelReadCum k s
  | .modelFind v => Sys2Proof.Machine.execModelFind v s
  | .bitReset => Sys2Proof.Machine.execBitReset s
  | .bitPut b => Sys2Proof.Machine.execBitPut b s
  | .bitPutn b n => Sys2Proof.Machine.execBitPutn b n s
  | .bitFlush => Sys2Proof.Machine.execBitFlush s
  | .bitGet => Sys2Proof.Machine.execBitGet s
  | .encStart => Sys2Proof.Machine.execEncStart s
  | .encSymbol sym => Sys2Proof.Machine.execEncSymbol sym s
  | .encFinish => Sys2Proof.Machine.execEncFinish s
  | .decStart n => Sys2Proof.Machine.execDecStart n s
  | .decSymbol => Sys2Proof.Machine.execDecSymbol s

end Sys2Proof.Machine
end

