-- ==== Sys2Proof/Machine/Issue.lean ====
section
/-! DEFINITION. Serving one access of the host (20_memory R70, R75): the reset input, a read, a write, and the issue of
a command word (30_encoding R97). -/

namespace Sys2Proof.Machine

/-- The fault a rejected word raises (R96). -/
def rejection : DecodeError → FaultCode
  | .illegalCommand => .illegalCommand
  | .reservedField => .reservedField

/-- Issuing a command word (R97). In FAULTED a rejected word is ignored (R265); a decoded one is exec's, which ignores
all but RESET there. -/
def issueWord (w : Word) (s : State) : Host.Outcome State Fault Refusal :=
  match decode w with
  | .ok i => exec i s
  | .error e =>
    if s.session = .faulted then .next s else .next (faultEntry (rejection e) w s)

/-- Serving one access, to completion, before the next one is looked at (R15, R75). -/
def serve (a : Access) (s : State) : Host.Outcome State Fault Refusal :=
  match a with
  | .resetInput => .next (performReset s)
  | .read addr width => .next { s with readData := busRead addr width s }
  | .write addr width data =>
    if isCommand addr width then issueWord data s else .next (busWrite addr width data s)

/-- The oldest pending access leaves the queue and is served; with none pending the core is idle and keeps all state
(R75, R275; log 2). -/
def serveNext (s : State) : Host.Outcome State Fault Refusal :=
  match s.pending with
  | [] => .next s
  | a :: rest => serve a { s with pending := rest }

/-- The host's write of a command word, put before what is pending (log 2). -/
def pushCommand (w : Word) (s : State) : State :=
  { s with pending := .write cmdAddr 64 w :: s.pending }

end Sys2Proof.Machine
end

