-- ==== Sys2Proof/Machine/Step.lean ====
section
/-! DEFINITION. One step of the machine: the oldest pending access of the host, served to completion (00_scope R15,
20_memory R75). -/

namespace Sys2Proof.Machine

/-- One step. -/
def step (s : State) : Host.Outcome State Fault Refusal := serveNext s

/-- `s` with the command word `w` as the access served next: the core fetches nothing (R20), so this is the host's write
of the word to CMD (log 2). -/
def State.withFetchWord (s : State) (nbits w : Nat) : State :=
  pushCommand (BitVec.ofNat 64 (w % 2 ^ nbits)) s

end Sys2Proof.Machine
end

