-- ==== Sys2Proof/Machine/Assembler.lean ====
section
/-! DEFINITION. The assembler (30_encoding R100-R102): one line of text to the commands it stands for, or no command
(an assembly error, R101). Text is a list of characters. -/

namespace Sys2Proof.Machine

/-! ### Tokens -/

/-- A piece of a line: a bare word (a mnemonic or a numeral), a comma, a quoted character, a quoted string. -/
inductive Token where
  | word (cs : List Char)
  | comma
  | chr (c : Char)
  | str (cs : List Char)
deriving DecidableEq, Repr

/-- The double quote. -/
def doubleQuote : Char := Char.ofNat 34

/-- The single quote. -/
def singleQuote : Char := Char.ofNat 39

/-- The word read so far, if any, before the tokens that follow it. -/
def endWord (w : List Char) (ts : List Token) : List Token :=
  if w.isEmpty then ts else .word w.reverse :: ts

/-- Cuts a line into tokens; `;` outside quotes starts a comment (R100). `w` is the word being read, backwards; `q` is
the string being read, backwards, if one is open. DESIGN CHOICE (log 14): blanks, tabs, commas and quotes each end a
word, so no blank is needed between a mnemonic and a quoted operand, nor after a closing quote; `;`, commas and blanks
inside quotes stand for themselves; an unclosed quote is an error. -/
def tokens (w : List Char) (q : Option (List Char)) : List Char → Option (List Token)
  | [] =>
    match q with
    | some _ => none
    | none => some (endWord w [])
  | c :: cs =>
    match q with
    | some body =>
      if c = doubleQuote then (tokens [] none cs).map (.str body.reverse :: ·)
      else tokens [] (some (c :: body)) cs
    | none =>
      if c = ';' then some (endWord w [])
      else if c = ' ' ∨ c = '\t' then (tokens [] none cs).map (endWord w)
      else if c = ',' then (tokens [] none cs).map fun ts => endWord w (.comma :: ts)
      else if c = doubleQuote then (tokens [] (some []) cs).map (endWord w)
      else if c = singleQuote then
        match cs with
        | x :: y :: rest =>
          if y = singleQuote then (tokens [] none rest).map fun ts => endWord w (.chr x :: ts)
          else none
        | _ => none
      else tokens (c :: w) none cs

/-! ### Operands -/

/-- An operand of a line: a number, or the bytes of a string (R101, R102). -/
inductive Operand where
  | num (n : Nat)
  | bytes (bs : List Byte)
deriving DecidableEq, Repr

/-- A digit's value in a base, capitals or not (DESIGN CHOICE, log 14). -/
def digitValue (base : Nat) (c : Char) : Option Nat :=
  let n := c.toNat
  let v :=
    if 48 ≤ n ∧ n ≤ 57 then n - 48
    else if 97 ≤ n ∧ n ≤ 102 then n - 87
    else if 65 ≤ n ∧ n ≤ 70 then n - 55
    else base
  if v < base then some v else none

/-- The value of digits in a base, the leftmost the most significant. -/
def digitsValue (base acc : Nat) : List Char → Option Nat
  | [] => some acc
  | c :: cs =>
    match digitValue base c with
    | some v => digitsValue base (base * acc + v) cs
    | none => none

/-- A decimal or hexadecimal literal (R101). DESIGN CHOICE (log 14): the hexadecimal sign is `0x` in lower case only, and
leading zeros are allowed. -/
def numeral (cs : List Char) : Option Nat :=
  match cs with
  | [] => none
  | '0' :: 'x' :: d :: ds => digitsValue 16 0 (d :: ds)
  | ds => digitsValue 10 0 ds

/-- A character's ASCII code (R101; PRESUMED, log 14); a character outside ASCII is an error. -/
def asciiCode (c : Char) : Option Byte :=
  if c.toNat < 128 then some (BitVec.ofNat 8 c.toNat) else none

/-- A string's bytes, in order (R102). -/
def asciiCodes : List Char → Option (List Byte)
  | [] => some []
  | c :: cs =>
    match asciiCode c, asciiCodes cs with
    | some b, some bs => some (b :: bs)
    | _, _ => none

/-- One operand from its token. A quoted character is taken wherever a number is (DESIGN CHOICE, log 14). -/
def operandOf : Token → Option Operand
  | .word cs => (numeral cs).map .num
  | .chr c => (asciiCode c).map fun b => .num b.toNat
  | .str cs => (asciiCodes cs).map .bytes
  | .comma => none

/-- Operands separated by commas (R100). A missing or a doubled comma, or one at either end, is an error (DESIGN CHOICE,
log 14). -/
def operandsOf : List Token → Option (List Operand)
  | [] => some []
  | [t] => (operandOf t).map ([·])
  | t :: .comma :: u :: rest =>
    match operandOf t, operandsOf (u :: rest) with
    | some o, some os => some (o :: os)
    | _, _ => none
  | _ => none

/-- A B operand: a value over 255 is an assembly error (R101). -/
def byteOperand : Operand → Option Byte
  | .num n => if n ≤ 255 then some (BitVec.ofNat 8 n) else none
  | .bytes _ => none

/-- An IMM operand: a value of 2^48 or more is an assembly error (R101). -/
def immOperand : Operand → Option Imm
  | .num n => if n < 2 ^ 48 then some (BitVec.ofNat 48 n) else none
  | .bytes _ => none

/-- The bytes `x1, ..., xn` of a pseudo-command, a string standing for its bytes in order (R102). DESIGN CHOICE (log 14):
n = 0 is allowed, so `model.hist`, `enc.bytes` and `encode` may stand with no operand, or with an empty string, and then
expand to no `model.count` and no `enc.sym`; strings and numbers may be mixed. -/
def bytesOperand : List Operand → Option (List Byte)
  | [] => some []
  | .bytes bs :: os => (bytesOperand os).map (bs ++ ·)
  | .num n :: os =>
    match byteOperand (.num n), bytesOperand os with
    | some b, some bs => some (b :: bs)
    | _, _ => none

/-- The counts `c0, ..., c255` of model.load (R102), each an IMM operand, since each is the IMM of a `model.set`; a string is
none (DESIGN CHOICE, log 14). -/
def countsOperand : List Operand → Option (List Imm)
  | [] => some []
  | o :: os =>
    match immOperand o, countsOperand os with
    | some n, some ns => some (n :: ns)
    | _, _ => none

/-! ### Pseudo-commands -/

/-- `model.hist x1, ..., xn` (R102). -/
def modelHist (xs : List Byte) : List Instr :=
  .modelClear :: xs.map .modelCount ++ [.modelBuild]

/-- `model.set s, cs` for each s from `sym` on with cs != 0, in increasing s (R102). -/
def setNonzero : Nat → List Imm → List Instr
  | _, [] => []
  | sym, n :: ns =>
    if n = 0 then setNonzero (sym + 1) ns
    else .modelSetCount (BitVec.ofNat 8 sym) n :: setNonzero (sym + 1) ns

/-- `model.load c0, ..., c255` (R102). -/
def modelLoad (counts : List Imm) : List Instr :=
  .modelClear :: setNonzero 0 counts ++ [.modelBuild]

/-- `enc.bytes x1, ..., xn` (R102). -/
def encBytes (xs : List Byte) : List Instr :=
  .encStart :: xs.map .encSymbol ++ [.encFinish]

/-- `dec.all n` (R102). -/
def decAll (n : Imm) : List Instr :=
  .decStart n :: List.replicate n.toNat .decSymbol

/-- `encode x1, ..., xn` (R102). -/
def encodeAll (xs : List Byte) : List Instr := modelHist xs ++ encBytes xs

/-! ### Lines -/

/-- How a mnemonic reads its operands, in the order B, then IMM, only those the command uses (R100). -/
inductive Shape where
  | plain (i : Instr)
  | takesB (f : Byte → Instr)
  | takesImm (f : Imm → Instr)
  | takesBoth (f : Byte → Imm → Instr)
  | takesBytes (f : List Byte → List Instr)
  | takesCounts (f : List Imm → List Instr)
  | takesTotal (f : Imm → List Instr)

/-- The mnemonics of R95's "assembler" column and R102's pseudo-commands. -/
def mnemonicTable : List (List Char × Shape) := [
  (['n', 'o', 'p'], .plain .nop),
  (['r', 'e', 's', 'e', 't'], .plain .reset),
  (['m', 'o', 'd', 'e', 'l', '.', 'c', 'l', 'e', 'a', 'r'], .plain .modelClear),
  (['m', 'o', 'd', 'e', 'l', '.', 'c', 'o', 'u', 'n', 't'], .takesB .modelCount),
  (['m', 'o', 'd', 'e', 'l', '.', 's', 'e', 't'], .takesBoth .modelSetCount),
  (['m', 'o', 'd', 'e', 'l', '.', 'b', 'u', 'i', 'l', 'd'], .plain .modelBuild),
  (['m', 'o', 'd', 'e', 'l', '.', 'r', 'd', 'c', 'o', 'u', 'n', 't'], .takesB .modelReadCount),
  (['m', 'o', 'd', 'e', 'l', '.', 'r', 'd', 'c', 'u', 'm'], .takesImm .modelReadCum),
  (['m', 'o', 'd', 'e', 'l', '.', 'f', 'i', 'n', 'd'], .takesImm .modelFind),
  (['b', 'i', 't', '.', 'r', 'e', 's', 'e', 't'], .plain .bitReset),
  (['b', 'i', 't', '.', 'p', 'u', 't'], .takesB .bitPut),
  (['b', 'i', 't', '.', 'p', 'u', 't', 'n'], .takesBoth .bitPutn),
  (['b', 'i', 't', '.', 'f', 'l', 'u', 's', 'h'], .plain .bitFlush),
  (['b', 'i', 't', '.', 'g', 'e', 't'], .plain .bitGet),
  (['e', 'n', 'c', '.', 's', 't', 'a', 'r', 't'], .plain .encStart),
  (['e', 'n', 'c', '.', 's', 'y', 'm'], .takesB .encSymbol),
  (['e', 'n', 'c', '.', 'f', 'i', 'n', 'i', 's', 'h'], .plain .encFinish),
  (['d', 'e', 'c', '.', 's', 't', 'a', 'r', 't'], .takesImm .decStart),
  (['d', 'e', 'c', '.', 's', 'y', 'm'], .plain .decSymbol),
  (['m', 'o', 'd', 'e', 'l', '.', 'h', 'i', 's', 't'], .takesBytes modelHist),
  (['m', 'o', 'd', 'e', 'l', '.', 'l', 'o', 'a', 'd'], .takesCounts modelLoad),
  (['e', 'n', 'c', '.', 'b', 'y', 't', 'e', 's'], .takesBytes encBytes),
  (['d', 'e', 'c', '.', 'a', 'l', 'l'], .takesTotal decAll),
  (['e', 'n', 'c', 'o', 'd', 'e'], .takesBytes encodeAll)]

/-- The commands of a mnemonic with its operands; a wrong number of operands is an error. -/
def applyShape (sh : Shape) (os : List Operand) : Option (List Instr) :=
  match sh, os with
  | .plain i, [] => some [i]
  | .takesB f, [b] => (byteOperand b).map fun x => [f x]
  | .takesImm f, [n] => (immOperand n).map fun x => [f x]
  | .takesBoth f, [b, n] =>
    match byteOperand b, immOperand n with
    | some x, some y => some [f x y]
    | _, _ => none
  | .takesBytes f, os => (bytesOperand os).map f
  | .takesCounts f, os =>
    match countsOperand os with
    | some ns => if ns.length = 256 then some (f ns) else none
    | none => none
  | .takesTotal f, [n] => (immOperand n).map f
  | _, _ => none

/-- One line: a command or pseudo-command (R100), or nothing but blanks and a comment, which gives no command (DESIGN
CHOICE, log 14). -/
def assembleLine (line : List Char) : Option (List Instr) :=
  match tokens [] none line with
  | some [] => some []
  | some (.word m :: ts) =>
    match mnemonicTable.find? (fun r => r.1 == m), operandsOf ts with
    | some r, some os => applyShape r.2 os
    | _, _ => none
  | _ => none

/-- A program's lines, to the words the host writes to CMD in order; one bad line and no word is produced (R101 says so
of the line; of the whole program it is DESIGN CHOICE, log 14). -/
def assemble : List (List Char) → Option (List Word)
  | [] => some []
  | l :: ls =>
    match assembleLine l, assemble ls with
    | some is, some ws => some (is.map encode ++ ws)
    | _, _ => none

end Sys2Proof.Machine
end

