-- ==== Sys2Proof/Safety.lean ====
section
/-! DEFINITION. What the claims speak of: the invariant of every state a run reaches (10_state R32, R33, R35, R37, R41,
R42; 43_range_decoder R226; 70_reset_and_hazards R321), the bit strings the sink has taken and the source still holds
(20_memory R72), the renormalization on integers (42_range_encoder R183-R186), the faults each command may raise
(60_exceptions R262), and running commands in order. -/

namespace Sys2Proof.Machine

/-- The renormalized interval (R42): LOW < HALF <= HIGH, and not both ends in the middle half. -/
abbrev Renormalized (lo hi : BitVec 16) : Prop :=
  lo < half ∧ half ≤ hi ∧ ¬ (quarter ≤ lo ∧ hi < threeq)

/-- The invariant of the machine. -/
structure Inv (s : State) : Prop where
  /-- R8. -/
  cfgOk : s.cfg.wf
  /-- The buffers' lists are canonical (log 4, 5). -/
  ibufForm : Memory.wf s.ibuf
  obufForm : Memory.wf s.obuf
  /-- Only bytes of the buffers are listed (R60). -/
  ibufIn : ∀ c ∈ s.ibuf, c.1 < s.cfg.ibufCap
  obufIn : ∀ c ∈ s.obuf, c.1 < s.cfg.obufCap
  /-- R35. -/
  ibufLenOk : s.ibufLen.toNat ≤ s.cfg.ibufCap
  obufLenOk : s.obufLen.toNat ≤ s.cfg.obufCap
  /-- OBUF[0 .. OBUF_LEN-1] has been written (R67). -/
  obufWritten : ∀ i, i < s.obufLen.toNat → (Memory.lookup s.obuf i).isSome
  /-- ACC < 2^FILL (R32). -/
  sinkOk : s.acc.toNat < 2 ^ s.fill.toNat
  /-- SRC_REM is 0..8 (R33). -/
  sourceOk : s.srcRem.toNat ≤ 8
  /-- IPOS passes no byte that is not there (R66). -/
  iposOk : s.ipos.toNat ≤ s.cfg.ibufCap
  /-- BUILT = 1: CUM is the table of COUNT (R26). -/
  builtTable : s.built = true → s.cum = cumTable s.count
  /-- BUILT = 0: every CUM[i] = 0 (R41). -/
  clearTable : s.built = false → s.cum = Vector.replicate 257 0
  /-- SESSION in ENC or DEC implies BUILT = 1 (R41). -/
  sessionBuilt : s.session = .enc ∨ s.session = .dec → s.built = true
  /-- R42; reset's interval meets it too (R300). -/
  interval : Renormalized s.low s.high
  /-- At most TOTAL symbols (R30), and FOLLOW's bound (R321). -/
  encoding : s.session = .enc →
    s.encCount.toNat ≤ s.total.toNat ∧ s.follow.toNat ≤ 16 * s.encCount.toNat
  /-- Symbols are left (R22), and LOW <= VALUE <= HIGH (R226). -/
  decoding : s.session = .dec →
    (0 < s.remaining.toNat ∧ s.remaining.toNat ≤ s.total.toNat) ∧ s.low ≤ s.value ∧ s.value ≤ s.high
  /-- FAULT_CODE is recorded exactly in FAULTED (R22, R37). -/
  faultedOk : s.session = .faulted ↔ s.faultCode ≠ .none
  /-- FAULT_CMD is written only at fault entry and by reset (R37). -/
  faultCmdOk : s.faultCode = .none → s.faultCmd = 0

/-- Every register at the value of R21's reset column: 0 but for HIGH (R300). -/
structure ResetValues (s : State) : Prop where
  session : s.session = .idle
  built : s.built = false
  count : ∀ k (h : k < 256), s.count[k] = 0
  cum : ∀ k (h : k < 257), s.cum[k] = 0
  low : s.low = 0x0000
  high : s.high = 0xFFFF
  follow : s.follow = 0
  value : s.value = 0x0000
  encCount : s.encCount = 0
  remaining : s.remaining = 0
  acc : s.acc = 0x00
  fill : s.fill = 0
  srcByte : s.srcByte = 0x00
  srcRem : s.srcRem = 0
  eoi : s.eoi = false
  ipos : s.ipos = 0
  ibufLen : s.ibufLen = 0
  obufLen : s.obufLen = 0
  result : s.result = 0
  faultCode : s.faultCode = .none
  faultCmd : s.faultCmd = 0

/-- The `n` low bits of a byte, the highest first. -/
def lowBits (b : Byte) (n : Nat) : List Bool := (List.range n).map fun i => b.getLsbD (n - 1 - i)

/-- The bits the sink has taken since OBUF_LEN and FILL were last reset, in order: the bytes of OBUF, each with bit 7
first (R72), then the partial byte, oldest bit first (R32). -/
def outputBits (s : State) : List Bool :=
  (List.range s.obufLen.toNat).flatMap (fun i => lowBits (obufByte s i) 8) ++ lowBits s.acc s.fill.toNat

/-- The bits the source has still to return before padding: those left of SRC_BYTE (R33), then the bytes of IBUF from
IPOS on, each with bit 7 first (R72). -/
def inputBits (s : State) : List Bool :=
  lowBits s.srcByte s.srcRem.toNat ++
    (List.range' s.ipos.toNat (s.ibufLen.toNat - s.ipos.toNat)).flatMap fun i => lowBits (ibufByte s i) 8

/-- The number whose binary digits are the bits, the first the most significant. -/
def bitsValue (bits : List Bool) : Nat := bits.foldl (fun v b => 2 * v + b.toNat) 0

/-- The bits ENC_FINISH emits before Flush (R189): 0 and FOLLOW + 1 ones, or 1 and FOLLOW + 1 zeros. -/
def finalBits (s : State) : List Bool :=
  decide (quarter ≤ s.low) :: List.replicate (s.follow.toNat + 1) (decide (s.low < quarter))

/-- What a run of the renormalization loop leaves, on unbounded integers: the interval, the bits pending, the bits emitted
in order, and how many branches fired (R186, R223). -/
structure Renorm where
  low : Nat
  high : Nat
  follow : Nat
  bits : List Bool
  fires : Nat
deriving DecidableEq, Repr

/-- The run `r` with one more fire before it, which emits `bits`. -/
def Renorm.afterFire (bits : List Bool) (r : Renorm) : Renorm :=
  { r with bits := bits ++ r.bits, fires := r.fires + 1 }

/-- The renormalization loop on unbounded integers (R183-R186), at most `n` fires, from LOW = `lo`, HIGH = `hi` and
FOLLOW = `f`. The decoder's loop (R223) fires the same branches and emits nothing. -/
def renorm : Nat → Nat → Nat → Nat → Renorm
  | 0, lo, hi, f => ⟨lo, hi, f, [], 0⟩
  | n + 1, lo, hi, f =>
    if hi < 0x8000 then
      (renorm n (2 * lo) (2 * hi + 1) 0).afterFire (false :: List.replicate f true)
    else if 0x8000 ≤ lo then
      (renorm n (2 * (lo - 0x8000)) (2 * (hi - 0x8000) + 1) 0).afterFire (true :: List.replicate f false)
    else if 0x4000 ≤ lo ∧ hi < 0xC000 then
      (renorm n (2 * (lo - 0x4000)) (2 * (hi - 0x4000) + 1) (f + 1)).afterFire []
    else ⟨lo, hi, f, [], 0⟩

/-- The renormalization after narrowing to a symbol (R182, R186, R223), with `f` bits pending: at most 16 fires (R320). -/
def renormAfter (sym : Byte) (f : Nat) (s : State) : Renorm :=
  renorm 16 (narrowedLow sym s).toNat (narrowedHigh sym s).toNat f

/-- The faults a command's body can raise (R262), without "unreachable" ones being left out. -/
def bodyFaults : Instr → List FaultCode
  | .nop => []
  | .reset => []
  | .modelClear => []
  | .modelCount _ => [.countOverflow]
  | .modelSetCount _ _ => [.badOperand]
  | .modelBuild => []
  | .modelReadCount _ => []
  | .modelReadCum _ => [.badOperand]
  | .modelFind _ => [.badOperand]
  | .bitReset => []
  | .bitPut _ => [.badOperand, .outputOverflow]
  | .bitPutn _ _ => [.badOperand, .outputOverflow]
  | .bitFlush => [.outputOverflow]
  | .bitGet => []
  | .encStart => []
  | .encSymbol _ => [.symbolCount, .emptyInterval, .outputOverflow]
  | .encFinish => [.symbolCount, .outputOverflow]
  | .decStart _ => [.format]
  | .decSymbol => [.outputOverflow, .emptyInterval]

/-- Commands issued one after the other, stopping at the first that answers no next state. -/
def runCommands : List Instr → State → Host.Outcome State Fault Refusal
  | [], s => .next s
  | i :: is, s =>
    match exec i s with
    | .next t => runCommands is t
    | o => o

end Sys2Proof.Machine
end

