-- ==== Sys2Proof/Certificates/Slice0/Obligations.lean ====
section
/-! DEFINITION. The statements about the range_encoder core, for the provers. A frame is written as an equation: the
state after is the state before with exactly the named fields changed. Where a command faults, FAULT_CMD takes `encode i`,
which is the word the host wrote (DEDUCED, log 8; EncodeDecodeAgree). The queue of pending accesses and the register that
holds a read's answer are the model's own (log 2, 3). -/

open Sys2Proof Sys2Proof.Machine

/-! ### Encoding (30_encoding) -/

/-- Decoding a command's word gives the command back, at every value of every operand (R91-R93, R95). -/
def Obligations.DecodeEncodeAgree : Prop := ∀ i : Instr, decode (encode i) = .ok i

/-- Each word has one meaning: a word that decodes is the word of its command (R90, R91, R99). -/
def Obligations.EncodeDecodeAgree : Prop := ∀ (w : Word) (i : Instr), decode w = .ok i → encode i = w

/-- Illegal encodings, reserved fields and nothing else are rejected (R93, R95, R96): ILLEGAL_COMMAND for an opcode
outside R95's table, RESERVED_FIELD for a nonzero unused field, and every other word is a command of the table. -/
def Obligations.WordClasses : Prop :=
  ∀ w : Word,
    (decode w = .error .illegalCommand ↔
      opcField w ∉ ([0x00, 0x01, 0x10, 0x11, 0x12, 0x13, 0x14, 0x15, 0x16, 0x20, 0x21, 0x22, 0x23, 0x24,
        0x30, 0x31, 0x32, 0x40, 0x41] : List Byte)) ∧
    (decode w = .error .reservedField ↔
      (opcField w ∈ ([0x00, 0x01, 0x10, 0x13, 0x20, 0x23, 0x24, 0x30, 0x32, 0x41] : List Byte) ∧
        (bField w ≠ 0 ∨ immField w ≠ 0)) ∨
      (opcField w ∈ ([0x11, 0x14, 0x21, 0x31] : List Byte) ∧ immField w ≠ 0) ∨
      (opcField w ∈ ([0x15, 0x16, 0x40] : List Byte) ∧ bField w ≠ 0))

/-- The worked encodings of R103, word by word, its two rejected words, and BIT_PUT with B = 2, which passes decode and
raises BAD_OPERAND in the body. -/
def Obligations.WorkedEncodings : Prop :=
  (decode 0x0000000000000000 = .ok .nop ∧ decode 0x0100000000000000 = .ok .reset) ∧
  (decode 0x1000000000000000 = .ok .modelClear ∧ decode 0x1141000000000000 = .ok (.modelCount 0x41) ∧
    decode 0x1241000000000004 = .ok (.modelSetCount 0x41 4) ∧ decode 0x1300000000000000 = .ok .modelBuild ∧
    decode 0x1442000000000000 = .ok (.modelReadCount 0x42) ∧
    decode 0x1500000000000100 = .ok (.modelReadCum 256) ∧ decode 0x1600000000000001 = .ok (.modelFind 1)) ∧
  (decode 0x2000000000000000 = .ok .bitReset ∧ decode 0x2101000000000000 = .ok (.bitPut 1) ∧
    decode 0x2200000000000003 = .ok (.bitPutn 0 3) ∧ decode 0x2300000000000000 = .ok .bitFlush ∧
    decode 0x2400000000000000 = .ok .bitGet) ∧
  (decode 0x3000000000000000 = .ok .encStart ∧ decode 0x3141000000000000 = .ok (.encSymbol 0x41) ∧
    decode 0x3200000000000000 = .ok .encFinish) ∧
  (decode 0x4000000000000004 = .ok (.decStart 4) ∧ decode 0x4100000000000000 = .ok .decSymbol) ∧
  decode 0x5000000000000000 = .error .illegalCommand ∧ decode 0x1300000000000001 = .error .reservedField ∧
  decode 0x2102000000000000 = .ok (.bitPut 2) ∧
  issueWord 0x2102000000000000 State.reset = .next (faultEntry .badOperand 0x2102000000000000 State.reset)

/-! ### Steps, decode checks and legality -/

/-- A step runs the command the host wrote to CMD, on the state that write has left (R20, R97; the queue it waits in is the
model's, log 2), and the state with a command word to fetch runs exactly that command. -/
def Obligations.StepRunsDecodedCommand : Prop :=
  (∀ (s : State) (w : Word) (rest : List Access) (i : Instr),
    s.pending = .write cmdAddr 64 w :: rest → decode w = .ok i →
      step s = exec i { s with pending := rest }) ∧
  (∀ (s : State) (i : Instr), step (s.withFetchWord 64 (encode i).toNat) = exec i s)

/-- The host's accesses are served one at a time, oldest first, each to its end, and with none pending the core keeps all
state (R75, R275; the queue is the model's, log 2). A 64-bit write to CMD issues its word. -/
def Obligations.AccessesServedInOrder : Prop :=
  (∀ s : State, s.pending = [] → step s = .next s) ∧
  (∀ (s : State) (a : Access) (rest : List Access), s.pending = a :: rest →
    step s = serve a { s with pending := rest }) ∧
  (∀ (s : State) (w : Word), serve (.write 0x000 64 w) s = issueWord w s)

/-- R97's checks in their order: FAULTED, ILLEGAL_COMMAND, RESERVED_FIELD, BAD_STATE, and only then the command. -/
def Obligations.DecodeChecksInOrder : Prop :=
  ∀ (s : State) (w : Word),
    issueWord w s =
      if s.session = .faulted then
        if w = 0x0100000000000000 then .next (performReset s) else .next s
      else
        match decode w with
        | .error .illegalCommand => .next (faultEntry .illegalCommand w s)
        | .error .reservedField => .next (faultEntry .reservedField w s)
        | .ok i => if legal i s.session s.built then exec i s else .next (faultEntry .badState w s)

/-- R98's table: the legal cells by opcode, and every other cell raises BAD_STATE. R98 does not split its ENC and DEC columns
by BUILT, since R41 rules BUILT = 0 out there; that those columns hold for BUILT = 0 too is read from that by the model
(DEDUCED, log 9). -/
def Obligations.LegalityTable : Prop :=
  ∀ i : Instr,
    (legal i .idle false = true ↔ opcField (encode i) ∈
      ([0x00, 0x01, 0x10, 0x11, 0x12, 0x13, 0x14, 0x20, 0x21, 0x22, 0x23, 0x24] : List Byte)) ∧
    (legal i .idle true = true ↔ opcField (encode i) ∈
      ([0x00, 0x01, 0x10, 0x14, 0x15, 0x16, 0x20, 0x21, 0x22, 0x23, 0x24, 0x30, 0x40] : List Byte)) ∧
    (∀ built, legal i .enc built = true ↔ opcField (encode i) ∈
      ([0x00, 0x01, 0x14, 0x15, 0x16, 0x31, 0x32] : List Byte)) ∧
    (∀ built, legal i .dec built = true ↔ opcField (encode i) ∈
      ([0x00, 0x01, 0x14, 0x15, 0x16, 0x41] : List Byte)) ∧
    (∀ s : State, s.session ≠ .faulted → legal i s.session s.built = false →
      exec i s = .next (faultEntry .badState (encode i) s))

/-- BAD_STATE is raised only where the command is not legal (R97, R98); NOP, RESET and MODEL_READ_COUNT never raise it
(R262). -/
def Obligations.BadStateOnlyWhereIllegal : Prop :=
  ∀ (i : Instr) (s t : State), s.session ≠ .faulted → exec i s = .next t → t.session = .faulted →
    (t.faultCode = .badState ↔ legal i s.session s.built = false) ∧
    (t.faultCode = .badState → opcField (encode i) ∉ ([0x00, 0x01, 0x14] : List Byte))

/-! ### Faults (60_exceptions) -/

/-- Fault entry restores everything and records the code and the command word (R264): of the state before the command
only FAULT_CODE, FAULT_CMD and SESSION change, whatever the word and whatever its body had done. -/
def Obligations.FaultsLeaveNoTrace : Prop :=
  ∀ (w : Word) (s t : State), s.session ≠ .faulted → issueWord w s = .next t → t.session = .faulted →
    t.faultCode ≠ .none ∧ t = { s with faultCode := t.faultCode, faultCmd := w, session := .faulted }

/-- The causes by command (R262): a command faults only with BAD_STATE or a code of its own row. -/
def Obligations.FaultCausesByCommand : Prop :=
  ∀ (i : Instr) (s t : State), s.session ≠ .faulted → exec i s = .next t → t.session = .faulted →
    t.faultCode ∈ FaultCode.badState :: bodyFaults i

/-- In FAULTED every CMD write but the exact RESET word is ignored and changes nothing, that word performs reset, the host's
other writes are ignored, and reads answer as in any session (R265). -/
def Obligations.FaultedIgnoresAllButReset : Prop :=
  ∀ s : State, s.session = .faulted →
    (∀ w, w ≠ 0x0100000000000000 → serve (.write cmdAddr 64 w) s = .next s) ∧
    serve (.write cmdAddr 64 0x0100000000000000) s = .next (performReset s) ∧
    (∀ a width data, isCommand a width = false → serve (.write a width data) s = .next s) ∧
    (∀ a width, serve (.read a width) s = .next { s with readData := busRead a width s }) ∧
    busRead 0x008 64 s = statusWord s ∧ busRead 0x018 64 s = s.faultCmd

/-! ### What commands write -/

/-- Each register is written only by the commands its row of R21 names, SESSION by a fault too, and FAULT_CODE and
FAULT_CMD only by a fault and RESET: a command that ends in FAULTED was ignored there, or has written SESSION,
FAULT_CODE and FAULT_CMD and nothing else (R264, R265). -/
def Obligations.RegistersWrittenOnlyByTheirCommands : Prop :=
  ∀ (i : Instr) (s t : State) (o : Byte), exec i s = .next t → o = opcField (encode i) →
    (o ∉ ([0x01, 0x30, 0x32, 0x40, 0x41] : List Byte) → t.session ≠ .faulted → t.session = s.session) ∧
    (o ∉ ([0x01, 0x10, 0x13] : List Byte) → t.built = s.built ∧ t.cum = s.cum) ∧
    (o ∉ ([0x01, 0x10, 0x11, 0x12] : List Byte) → t.count = s.count) ∧
    (o ∉ ([0x01, 0x30, 0x31, 0x40, 0x41] : List Byte) → t.low = s.low ∧ t.high = s.high) ∧
    (o ∉ ([0x01, 0x30, 0x31, 0x32] : List Byte) → t.follow = s.follow) ∧
    (o ∉ ([0x01, 0x40, 0x41] : List Byte) → t.value = s.value ∧ t.remaining = s.remaining) ∧
    (o ∉ ([0x01, 0x30, 0x31] : List Byte) → t.encCount = s.encCount) ∧
    (o ∉ ([0x01, 0x20, 0x21, 0x22, 0x23, 0x30, 0x31, 0x32] : List Byte) → t.acc = s.acc ∧ t.fill = s.fill) ∧
    (o ∉ ([0x01, 0x20, 0x24, 0x40, 0x41] : List Byte) →
      t.srcByte = s.srcByte ∧ t.srcRem = s.srcRem ∧ t.eoi = s.eoi ∧ t.ipos = s.ipos) ∧
    (o ∉ ([0x01] : List Byte) → t.ibufLen = s.ibufLen) ∧
    (o ∉ ([0x01, 0x20, 0x21, 0x22, 0x23, 0x30, 0x31, 0x32, 0x40, 0x41] : List Byte) →
      t.obufLen = s.obufLen) ∧
    (o ∉ ([0x01, 0x14, 0x15, 0x16, 0x24, 0x41] : List Byte) → t.result = s.result) ∧
    (o ∉ ([0x01] : List Byte) → t.session ≠ .faulted →
      t.faultCode = s.faultCode ∧ t.faultCmd = s.faultCmd) ∧
    (t.session = .faulted → s.session = .faulted → t = s) ∧
    (t.session = .faulted → s.session ≠ .faulted →
      t.faultCode ≠ .none ∧ t = { s with session := .faulted, faultCode := t.faultCode, faultCmd := encode i })

/-- The buffers' frame, for every command but RESET: no byte of IBUF changes, and a byte of OBUF changes only at the
indexes appended to, OBUF_LEN before the command up to OBUF_LEN after it (R66, R67, R151). The configuration and the
host's side stay. -/
def Obligations.BuffersWrittenOnlyByAppend : Prop :=
  ∀ (i : Instr) (s t : State), i ≠ .reset → exec i s = .next t →
    (∀ k, ibufByte t k = ibufByte s k) ∧
    (∀ k, ¬ (s.obufLen.toNat ≤ k ∧ k < t.obufLen.toNat) → obufByte t k = obufByte s k) ∧
    t.cfg = s.cfg ∧ t.pending = s.pending ∧ t.readData = s.readData ∧ t.draw = s.draw

/-- SESSION changes only as R22's table of transitions says. -/
def Obligations.SessionTransitions : Prop :=
  ∀ (i : Instr) (s t : State), exec i s = .next t → t.session ≠ s.session →
    (s.session = .idle ∧ i = .encStart ∧ t.session = .enc) ∨
    (s.session = .enc ∧ i = .encFinish ∧ t.session = .idle) ∨
    (s.session = .idle ∧ (∃ n, i = .decStart n ∧ n ≠ 0) ∧ t.session = .dec) ∨
    (s.session = .dec ∧ i = .decSymbol ∧ t.remaining = 0 ∧ t.session = .idle) ∨
    (s.session ≠ .faulted ∧ t.session = .faulted ∧ t.faultCode ≠ .none) ∨
    (i = .reset ∧ t.session = .idle)

/-! ### System commands (45_system) and reset (70_reset_and_hazards) -/

/-- NOP changes nothing, in any session (R250). -/
def Obligations.NopChangesNothing : Prop := ∀ s : State, exec .nop s = .next s

/-- Reset's two sources have one effect, legal in every session: every register takes its reset value (R251, R300). The
configuration and the host's side stay. -/
def Obligations.ResetRestoresEveryRegister : Prop :=
  ∀ s : State, ∃ t, exec .reset s = .next t ∧ serve .resetInput s = .next t ∧ ResetValues t ∧
    t.cfg = s.cfg ∧ t.pending = s.pending ∧ t.readData = s.readData

/-- The state after reset holds R21's reset values, no command pending. -/
def Obligations.ResetStateHoldsTheResetValues : Prop := ResetValues State.reset

/-! ### FrequencyModel (40_frequency_model) -/

/-- MODEL_CLEAR (R121). -/
def Obligations.ModelClearResult : Prop :=
  ∀ s : State, s.session = .idle →
    ∃ t, exec .modelClear s = .next t ∧ (∀ k (h : k < 256), t.count[k] = 0) ∧
      (∀ k (h : k < 257), t.cum[k] = 0) ∧ t.built = false ∧
      t = { s with count := t.count, cum := t.cum, built := t.built }

/-- MODEL_COUNT (R122): one more in COUNT[s] and nothing else, or COUNT_OVERFLOW at 2^32 - 1. -/
def Obligations.ModelCountResult : Prop :=
  ∀ (s : State) (sym : Byte), s.session = .idle → s.built = false →
    (s.count[sym.toNat].toNat < 2 ^ 32 - 1 →
      ∃ t, exec (.modelCount sym) s = .next t ∧ t.count[sym.toNat].toNat = s.count[sym.toNat].toNat + 1 ∧
        (∀ k (h : k < 256), k ≠ sym.toNat → t.count[k] = s.count[k]) ∧ t = { s with count := t.count }) ∧
    (s.count[sym.toNat].toNat = 2 ^ 32 - 1 →
      exec (.modelCount sym) s = .next (faultEntry .countOverflow (encode (.modelCount sym)) s))

/-- MODEL_SET_COUNT (R123): COUNT[s] <- n and nothing else, or BAD_OPERAND where n does not fit 32 bits. -/
def Obligations.ModelSetCountResult : Prop :=
  ∀ (s : State) (sym : Byte) (n : Imm), s.session = .idle → s.built = false →
    (n.toNat ≤ 2 ^ 32 - 1 →
      ∃ t, exec (.modelSetCount sym n) s = .next t ∧ t.count[sym.toNat].toNat = n.toNat ∧
        (∀ k (h : k < 256), k ≠ sym.toNat → t.count[k] = s.count[k]) ∧ t = { s with count := t.count }) ∧
    (2 ^ 32 - 1 < n.toNat →
      exec (.modelSetCount sym n) s = .next (faultEntry .badOperand (encode (.modelSetCount sym n)) s))

/-- MODEL_BUILD (R124): CUM[0] = 0, CUM[i+1] = CUM[i] + COUNT[i] with no wrap, TOTAL < 2^40, BUILT = 1. -/
def Obligations.ModelBuildResult : Prop :=
  ∀ s : State, s.session = .idle → s.built = false →
    ∃ t, exec .modelBuild s = .next t ∧ t.cum[0] = 0 ∧
      (∀ k (h : k < 256), t.cum[k + 1].toNat = t.cum[k].toNat + s.count[k].toNat) ∧
      t.total.toNat < 2 ^ 40 ∧ t.built = true ∧ t = { s with cum := t.cum, built := t.built }

/-- MODEL_READ_COUNT (R127): legal in every session but FAULTED, RESULT <- COUNT[s]. -/
def Obligations.ModelReadCountResult : Prop :=
  ∀ (s : State) (sym : Byte), s.session ≠ .faulted →
    ∃ t, exec (.modelReadCount sym) s = .next t ∧ t.result.toNat = s.count[sym.toNat].toNat ∧
      t = { s with result := t.result }

/-- MODEL_READ_CUM (R128): RESULT <- CUM[i] for i <= 256, else BAD_OPERAND. -/
def Obligations.ModelReadCumResult : Prop :=
  ∀ (s : State) (i : Imm), s.session ≠ .faulted → s.built = true →
    (∀ h : i.toNat < 257, exec (.modelReadCum i) s = .next { s with result := s.cum[i.toNat] }) ∧
    (256 < i.toNat → exec (.modelReadCum i) s = .next (faultEntry .badOperand (encode (.modelReadCum i)) s))

/-- MODEL_FIND (R126, R129): RESULT is the symbol whose span holds v, and v >= TOTAL is BAD_OPERAND. -/
def Obligations.ModelFindResult : Prop :=
  ∀ (s : State) (v : Imm), Inv s → s.session ≠ .faulted → s.built = true →
    (v.toNat < s.total.toNat →
      ∃ sym : Byte, exec (.modelFind v) s = .next { s with result := sym.setWidth 64 } ∧
        cumLow sym s ≤ v.toNat ∧ v.toNat < cumHigh sym s) ∧
    (s.total.toNat ≤ v.toNat →
      exec (.modelFind v) s = .next (faultEntry .badOperand (encode (.modelFind v)) s))

/-- Monotonicity and search correctness of a built model (R130), and the width of a symbol's span (R125). -/
def Obligations.BuiltModelIsMonotoneAndSearchable : Prop :=
  ∀ s : State, Inv s → s.built = true →
    (∀ k (h : k < 256), s.cum[k] ≤ s.cum[k + 1]) ∧ s.cum[256] = s.total ∧
    (∀ (sym : Byte) (v : Nat), cumLow sym s ≤ v → v < cumHigh sym s → findSymbol v s = .ok sym) ∧
    (∀ sym : Byte, cumHigh sym s - cumLow sym s = s.count[sym.toNat].toNat)

/-- FindSymbol on a built model (R126): the one symbol whose span holds the value, of nonzero count, which R126's binary
search of eight iterations from 0 and 256 returns too. -/
def Obligations.FindSymbolFindsTheOneSymbol : Prop :=
  ∀ (s : State) (v : Nat), Inv s → s.built = true → v < s.total.toNat →
    ∃ sym, findSymbol v s = .ok sym ∧ (cumLow sym s ≤ v ∧ v < cumHigh sym s) ∧
      (∀ x : Byte, cumLow x s ≤ v → v < cumHigh x s → x = sym) ∧ s.count[sym.toNat] ≠ 0 ∧
      searchLoop s.cum v 8 0 256 = sym.toNat

/-- Immutability (R131): while BUILT = 1 no command but MODEL_CLEAR and RESET changes COUNT, CUM or BUILT; MODEL_COUNT,
MODEL_SET_COUNT and MODEL_BUILD raise BAD_STATE; MODEL_CLEAR and reset end the model. -/
def Obligations.BuiltModelIsImmutable : Prop :=
  ∀ (i : Instr) (s : State), s.built = true →
    (∀ t, i ≠ .modelClear → i ≠ .reset → exec i s = .next t →
      t.count = s.count ∧ t.cum = s.cum ∧ t.built = true) ∧
    (s.session ≠ .faulted → opcField (encode i) ∈ ([0x11, 0x12, 0x13] : List Byte) →
      exec i s = .next (faultEntry .badState (encode i) s)) ∧
    (∀ t, s.session = .idle → exec .modelClear s = .next t → t.built = false) ∧
    (∀ t, exec .reset s = .next t → t.built = false)

/-! ### BitSink and BitSource (41_bit_sink_source) -/

/-- BIT_RESET (R163): the sink and the source are emptied and nothing else changes. -/
def Obligations.BitResetResult : Prop :=
  ∀ s : State, s.session = .idle →
    exec .bitReset s = .next { s with
      acc := 0, fill := 0, obufLen := 0, srcByte := 0, srcRem := 0, eoi := false, ipos := 0 }

/-- BIT_PUT (R152, R156): one bit more in the sink, most significant first, or the fault its rule names. -/
def Obligations.BitPutResult : Prop :=
  ∀ (s : State) (b : Byte), Inv s → s.session = .idle →
    (1 < b.toNat → exec (.bitPut b) s = .next (faultEntry .badOperand (encode (.bitPut b)) s)) ∧
    (b.toNat ≤ 1 → s.fill = 7 → s.obufLen.toNat = s.cfg.obufCap →
      exec (.bitPut b) s = .next (faultEntry .outputOverflow (encode (.bitPut b)) s)) ∧
    (b.toNat ≤ 1 → s.fill ≠ 7 ∨ s.obufLen.toNat < s.cfg.obufCap →
      ∃ t, exec (.bitPut b) s = .next t ∧ outputBits t = outputBits s ++ [b.toNat == 1] ∧
        t.fill = s.fill + 1 ∧
        t = { s with acc := t.acc, fill := t.fill, obuf := t.obuf, obufLen := t.obufLen })

/-- BIT_PUTN (R153, R157): n copies of the bit, with R153's closed form for the bytes and the bits left over;
OUTPUT_OVERFLOW, with none of them, where the bytes completed exceed the room. -/
def Obligations.BitPutnResult : Prop :=
  ∀ (s : State) (b : Byte) (n : Imm), Inv s → s.session = .idle →
    (1 < b.toNat → exec (.bitPutn b n) s = .next (faultEntry .badOperand (encode (.bitPutn b n)) s)) ∧
    (b.toNat ≤ 1 → s.cfg.obufCap < s.obufLen.toNat + (s.fill.toNat + n.toNat) / 8 →
      exec (.bitPutn b n) s = .next (faultEntry .outputOverflow (encode (.bitPutn b n)) s)) ∧
    (b.toNat ≤ 1 → s.obufLen.toNat + (s.fill.toNat + n.toNat) / 8 ≤ s.cfg.obufCap →
      ∃ t, exec (.bitPutn b n) s = .next t ∧
        outputBits t = outputBits s ++ List.replicate n.toNat (b.toNat == 1) ∧
        t.obufLen.toNat = s.obufLen.toNat + (s.fill.toNat + n.toNat) / 8 ∧
        t.fill.toNat = (s.fill.toNat + n.toNat) % 8 ∧
        t = { s with acc := t.acc, fill := t.fill, obuf := t.obuf, obufLen := t.obufLen })

/-- BIT_FLUSH (R154, R158): pads the partial byte with zeros and emits it; nothing where no bit is pending. -/
def Obligations.BitFlushResult : Prop :=
  ∀ s : State, Inv s → s.session = .idle →
    (s.fill = 0 → exec .bitFlush s = .next s) ∧
    (s.fill ≠ 0 → s.obufLen.toNat = s.cfg.obufCap →
      exec .bitFlush s = .next (faultEntry .outputOverflow (encode .bitFlush) s)) ∧
    (s.fill ≠ 0 → s.obufLen.toNat < s.cfg.obufCap →
      ∃ t, exec .bitFlush s = .next t ∧
        outputBits t = outputBits s ++ List.replicate (8 - s.fill.toNat) false ∧
        t.obufLen.toNat = s.obufLen.toNat + 1 ∧
        t = { s with acc := 0, fill := 0, obuf := t.obuf, obufLen := t.obufLen })

/-- BIT_GET (R160, R162): the next bit of the input, most significant first, or 2 and EOI where none is left. -/
def Obligations.BitGetResult : Prop :=
  ∀ s : State, Inv s → s.session = .idle →
    (∀ b bs, inputBits s = b :: bs →
      ∃ t, exec .bitGet s = .next t ∧ t.result.toNat = b.toNat ∧ inputBits t = bs ∧
        t = { s with result := t.result, srcByte := t.srcByte, srcRem := t.srcRem, ipos := t.ipos }) ∧
    (inputBits s = [] → exec .bitGet s = .next { s with result := 2, eoi := true })

/-! ### RangeEncoder (42_range_encoder) -/

/-- ENC_START (R181, R187). -/
def Obligations.EncStartResult : Prop :=
  ∀ s : State, s.session = .idle → s.built = true →
    exec .encStart s = .next { s with
      low := 0x0000, high := 0xFFFF, follow := 0, acc := 0, fill := 0, obufLen := 0, encCount := 0
      session := .enc }

/-- Narrow keeps inside the interval (R182): for a symbol whose narrowed interval is not empty, LOW <= nl <= nh <= HIGH. -/
def Obligations.NarrowStaysInside : Prop :=
  ∀ (s : State) (sym : Byte), Inv s → s.built = true → 0 < s.total.toNat →
    narrowedLow sym s ≤ narrowedHigh sym s →
      (s.low.toNat : Int) ≤ narrowedLow sym s ∧ narrowedHigh sym s ≤ s.high.toNat

/-- Shift (R184): LOW and HIGH doubled, HIGH plus one, mod 2^16; after each firing branch's subtraction no set bit is
dropped, and the interval's width doubles exactly. -/
def Obligations.FiredBranchDoublesWidth : Prop :=
  (∀ s : State, (shift s).low.toNat = 2 * s.low.toNat % 2 ^ 16 ∧
    (shift s).high.toNat = (2 * s.high.toNat + 1) % 2 ^ 16 ∧
    shift s = { s with low := (shift s).low, high := (shift s).high }) ∧
  (∀ s u : State, s.low ≤ s.high →
    (classify s.low s.high = .lower ∧ u = s) ∨
    (classify s.low s.high = .upper ∧ u = moveInterval half s) ∨
    (classify s.low s.high = .middle ∧ u = moveInterval quarter s) →
      u.high < half ∧ (shift u).low.toNat = 2 * u.low.toNat ∧ (shift u).high.toNat = 2 * u.high.toNat + 1 ∧
        width (shift u) = 2 * width s)

/-- The renormalization loops fire at most 16 times (R320). On integers the loop of R183-R186 is at STOP after at most 16
fires, and the bits it emits and leaves pending are those pending before and one for each fire. The machine's two
loops never go past that bound, and where no bit operation stops them they end at STOP (R42). -/
def Obligations.RenormalizationIsBounded : Prop :=
  (∀ lo hi f : Nat, lo ≤ hi → hi < 2 ^ 16 →
    ((renorm 16 lo hi f).low < 0x8000 ∧ 0x8000 ≤ (renorm 16 lo hi f).high ∧
      ¬ (0x4000 ≤ (renorm 16 lo hi f).low ∧ (renorm 16 lo hi f).high < 0xC000)) ∧
    (renorm 16 lo hi f).fires ≤ 16 ∧
    (renorm 16 lo hi f).bits.length + (renorm 16 lo hi f).follow = f + (renorm 16 lo hi f).fires) ∧
  (∀ s : State, s.low ≤ s.high →
    encRenorm renormFuel s ≠ noMeaning .renormBound ∧ decRenorm renormFuel s ≠ noMeaning .renormBound ∧
    (∀ t, encRenorm renormFuel s = .ok t → Renormalized t.low t.high) ∧
    (∀ t, decRenorm renormFuel s = .ok t → Renormalized t.low t.high))

/-- ENC_SYMBOL (R182-R186, R188) completes where the narrowed interval is not empty and OBUF has room for the bytes that its
bits complete. LOW, HIGH, FOLLOW and the bits are those of the renormalization of [nl, nh] with FOLLOW bits pending,
at most 16 + FOLLOW of them (R320); ENC_COUNT goes up by one; the interval is renormalized (R42); and only the
encoder's registers and the sink change. -/
def Obligations.EncSymbolCompletes : Prop :=
  ∀ (s : State) (sym : Byte) (r : Renorm), Inv s → s.session = .enc → s.encCount.toNat < s.total.toNat →
    narrowedLow sym s ≤ narrowedHigh sym s → r = renormAfter sym s.follow.toNat s →
    s.obufLen.toNat + (s.fill.toNat + r.bits.length) / 8 ≤ s.cfg.obufCap →
      ∃ t, exec (.encSymbol sym) s = .next t ∧
        t.low.toNat = r.low ∧ t.high.toNat = r.high ∧ t.follow.toNat = r.follow ∧
        outputBits t = outputBits s ++ r.bits ∧
        t.obufLen.toNat = s.obufLen.toNat + (s.fill.toNat + r.bits.length) / 8 ∧
        t.fill.toNat = (s.fill.toNat + r.bits.length) % 8 ∧
        r.bits.length + t.follow.toNat ≤ 16 + s.follow.toNat ∧
        t.encCount.toNat = s.encCount.toNat + 1 ∧ Renormalized t.low t.high ∧
        t = { s with
          low := t.low, high := t.high, follow := t.follow, encCount := t.encCount
          acc := t.acc, fill := t.fill, obuf := t.obuf, obufLen := t.obufLen }

/-- ENC_SYMBOL's faults in their order (R188): SYMBOL_COUNT before EMPTY_INTERVAL before OUTPUT_OVERFLOW, which is raised
exactly where the bytes that its bits complete do not fit in OBUF; a symbol of count 0 always has an empty interval
(R182). -/
def Obligations.EncSymbolFaultsInOrder : Prop :=
  ∀ (s : State) (sym : Byte), Inv s → s.session = .enc →
    (s.encCount = s.total →
      exec (.encSymbol sym) s = .next (faultEntry .symbolCount (encode (.encSymbol sym)) s)) ∧
    (s.encCount ≠ s.total → narrowedHigh sym s < narrowedLow sym s →
      exec (.encSymbol sym) s = .next (faultEntry .emptyInterval (encode (.encSymbol sym)) s)) ∧
    (s.encCount ≠ s.total → narrowedLow sym s ≤ narrowedHigh sym s →
      s.cfg.obufCap <
        s.obufLen.toNat + (s.fill.toNat + (renormAfter sym s.follow.toNat s).bits.length) / 8 →
      exec (.encSymbol sym) s = .next (faultEntry .outputOverflow (encode (.encSymbol sym)) s)) ∧
    (s.count[sym.toNat] = 0 → narrowedHigh sym s < narrowedLow sym s)

/-- With TOTAL <= 16386 every symbol of nonzero count gets a non-empty interval (R190). -/
def Obligations.SmallTotalNeverEmptiesTheInterval : Prop :=
  ∀ (s : State) (sym : Byte), Inv s → s.session = .enc → s.total.toNat ≤ 16386 →
    s.count[sym.toNat] ≠ 0 → narrowedLow sym s ≤ narrowedHigh sym s

/-- ENC_FINISH (R189): SYMBOL_COUNT unless TOTAL symbols were encoded; nothing emitted for TOTAL = 0; else the
disambiguating bit, FOLLOW + 1 opposite bits and the zeros that fill the last byte, and the session ends; OUTPUT_OVERFLOW
where those bytes do not fit. -/
def Obligations.EncFinishResult : Prop :=
  ∀ s : State, Inv s → s.session = .enc →
    (s.encCount ≠ s.total →
      exec .encFinish s = .next (faultEntry .symbolCount (encode .encFinish) s)) ∧
    (s.encCount = s.total → s.total = 0 → exec .encFinish s = .next { s with session := .idle }) ∧
    (s.encCount = s.total → s.total ≠ 0 →
      s.obufLen.toNat + (s.fill.toNat + s.follow.toNat + 9) / 8 ≤ s.cfg.obufCap →
        ∃ t pad, exec .encFinish s = .next t ∧ pad < 8 ∧
          outputBits t = outputBits s ++ finalBits s ++ List.replicate pad false ∧
          t = { s with session := .idle, follow := 0, acc := 0, fill := 0, obuf := t.obuf, obufLen := t.obufLen }) ∧
    (s.encCount = s.total → s.total ≠ 0 →
      s.cfg.obufCap < s.obufLen.toNat + (s.fill.toNat + s.follow.toNat + 9) / 8 →
        exec .encFinish s = .next (faultEntry .outputOverflow (encode .encFinish) s))

/-- The bitstream is a pure function of COUNT and the symbols (R191): two cores with one table and one OBUF capacity that
encode one sequence end with one output, or with one fault at one symbol, whatever else their states hold. -/
def Obligations.StreamDependsOnlyOnModelAndSymbols : Prop :=
  ∀ (e f t u : State) (xs : List Byte), Inv e → Inv f → e.session = .idle → f.session = .idle →
    e.built = true → f.built = true → e.count = f.count → e.cfg.obufCap = f.cfg.obufCap →
    runCommands (encBytes xs) e = .next t → runCommands (encBytes xs) f = .next u →
      t.session = u.session ∧ t.faultCode = u.faultCode ∧ t.faultCmd = u.faultCmd ∧ t.encCount = u.encCount ∧
        t.obufLen = u.obufLen ∧ ∀ k, k < t.obufLen.toNat → obufByte t k = obufByte u k

/-! ### RangeDecoder (43_range_decoder) -/

/-- DEC_START (R221, R224): FORMAT unless the declared count is TOTAL; a count of 0 opens no session; else VALUE takes the
first 16 bits of the input, padded with zeros, and the session opens. -/
def Obligations.DecStartResult : Prop :=
  ∀ (s : State) (n : Imm), Inv s → s.session = .idle → s.built = true →
    (n.toNat ≠ s.total.toNat →
      exec (.decStart n) s = .next (faultEntry .format (encode (.decStart n)) s)) ∧
    (n.toNat = s.total.toNat → n = 0 →
      exec (.decStart n) s = .next { s with
        srcByte := 0, srcRem := 0, eoi := false, ipos := 0, obufLen := 0
        low := 0x0000, high := 0xFFFF, value := 0x0000, remaining := 0 }) ∧
    (n.toNat = s.total.toNat → n ≠ 0 →
      ∃ t, exec (.decStart n) s = .next t ∧
        t.value.toNat = bitsValue ((inputBits (sourceReset s) ++ List.replicate 16 false).take 16) ∧
        inputBits t = (inputBits (sourceReset s)).drop 16 ∧
        (t.eoi = true ↔ s.ibufLen.toNat < 2) ∧ t.remaining.toNat = n.toNat ∧
        t = { s with
          srcByte := t.srcByte, srcRem := t.srcRem, eoi := t.eoi, ipos := t.ipos, obufLen := 0
          low := 0x0000, high := 0xFFFF, value := t.value, remaining := t.remaining, session := .dec })

/-- DEC_SYMBOL (R222-R226): in every state of a decode session it decodes the symbol whose narrowed interval holds VALUE,
a symbol of nonzero count, appends it to OBUF and to RESULT and counts down. LOW and HIGH are those of the
renormalization of [nl, nh]; it reads one bit of the input for each of its fires, at most 16 (R320), zeros where none
is left, which sets EOI; VALUE - LOW is VALUE - nl before with those bits shifted in; LOW <= VALUE <= HIGH holds
again. Its only fault is OUTPUT_OVERFLOW with OBUF full, whatever the input (R228). -/
def Obligations.DecSymbolResult : Prop :=
  ∀ s : State, Inv s → s.session = .dec →
    (s.obufLen.toNat = s.cfg.obufCap →
      exec .decSymbol s = .next (faultEntry .outputOverflow (encode .decSymbol) s)) ∧
    (s.obufLen.toNat < s.cfg.obufCap →
      ∃ (t : State) (sym : Byte) (r : Renorm), exec .decSymbol s = .next t ∧ r = renormAfter sym 0 s ∧
        narrowedLow sym s ≤ s.value.toNat ∧ (s.value.toNat : Int) ≤ narrowedHigh sym s ∧
        s.count[sym.toNat] ≠ 0 ∧ t.result.toNat = sym.toNat ∧
        t.obufLen.toNat = s.obufLen.toNat + 1 ∧ obufByte t s.obufLen.toNat = sym ∧
        t.low.toNat = r.low ∧ t.high.toNat = r.high ∧ r.fires ≤ 16 ∧
        inputBits t = (inputBits s).drop r.fires ∧
        (t.value.toNat : Int) = t.low.toNat + (s.value.toNat - narrowedLow sym s) * 2 ^ r.fires +
          bitsValue ((inputBits s ++ List.replicate r.fires false).take r.fires) ∧
        (t.eoi = true ↔ s.eoi = true ∨ (inputBits s).length < r.fires) ∧
        t.remaining.toNat + 1 = s.remaining.toNat ∧
        t.session = (if t.remaining = 0 then .idle else .dec) ∧
        Renormalized t.low t.high ∧ t.low ≤ t.value ∧ t.value ≤ t.high ∧
        t = { s with
          low := t.low, high := t.high, value := t.value, srcByte := t.srcByte, srcRem := t.srcRem
          eoi := t.eoi, ipos := t.ipos, obuf := t.obuf, obufLen := t.obufLen, result := t.result
          remaining := t.remaining, session := t.session })

/-- The clamp of Scaled is never active in a decode session (R222, R226). -/
def Obligations.ClampIsNeverActive : Prop :=
  ∀ s : State, Inv s → s.session = .dec →
    0 ≤ scaledQuotient s ∧ scaledQuotient s < s.total.toNat

/-- The decoder's LOW and HIGH step through the encoder's values (R227): where both narrow to the same symbol from the
same interval under the same table, both end with the same interval. -/
def Obligations.DecoderMirrorsEncoderInterval : Prop :=
  ∀ (e d t u : State) (sym : Byte), e.session = .enc → d.session = .dec →
    e.low = d.low → e.high = d.high → e.cum = d.cum →
    exec (.encSymbol sym) e = .next t → t.session ≠ .faulted →
    exec .decSymbol d = .next u → u.session ≠ .faulted → u.result = sym.setWidth 64 →
      t.low = u.low ∧ t.high = u.high

/-- Round trip (R227): a stream that ENC_START, ENC_SYMBOL for each symbol of X and ENC_FINISH made without fault,
decoded under the same COUNT table with DEC_START TOTAL and TOTAL DEC_SYMBOLs, leaves X in OBUF. -/
def Obligations.RoundTrip : Prop :=
  ∀ (e₀ e₁ d₀ : State) (xs : List Byte), Inv e₀ → e₀.session = .idle → e₀.built = true →
    runCommands (encBytes xs) e₀ = .next e₁ → e₁.session = .idle →
    Inv d₀ → d₀.session = .idle → d₀.built = true → d₀.count = e₀.count →
    d₀.ibufLen = e₁.obufLen → (∀ k, k < e₁.obufLen.toNat → ibufByte d₀ k = obufByte e₁ k) →
    xs.length ≤ d₀.cfg.obufCap →
      ∃ d₁, runCommands (decAll (e₀.total.setWidth 48)) d₀ = .next d₁ ∧ d₁.session = .idle ∧
        d₁.obufLen.toNat = xs.length ∧ ∀ k (h : k < xs.length), obufByte d₁ k = xs[k]

/-! ### The host's accesses (20_memory) and views (10_state) -/

/-- STATUS, SINK and SOURCE by their fields (R38-R40). -/
def Obligations.CompositeRegisters : Prop :=
  ∀ s : State,
    (statusWord s).toNat =
      s.session.toBits.toNat + 4 * s.built.toNat + 8 * s.eoi.toNat + 256 * s.faultCode.toByte.toNat ∧
    (sinkWord s).toNat = s.acc.toNat + 256 * s.fill.toNat ∧
    (sourceWord s).toNat = s.srcByte.toNat + 256 * s.srcRem.toNat

/-- The register map (R61): what a 64-bit read of each offset returns, CMD reading 0 (R64). -/
def Obligations.RegisterMapReads : Prop :=
  ∀ s : State,
    busRead 0x000 64 s = 0 ∧ busRead 0x008 64 s = statusWord s ∧ busRead 0x010 64 s = s.result ∧
    busRead 0x018 64 s = s.faultCmd ∧ busRead 0x020 64 s = s.cum[256] ∧
    busRead 0x028 64 s = s.low.setWidth 64 ∧ busRead 0x030 64 s = s.high.setWidth 64 ∧
    busRead 0x038 64 s = s.value.setWidth 64 ∧ busRead 0x040 64 s = s.follow ∧
    busRead 0x048 64 s = s.encCount ∧ busRead 0x050 64 s = s.remaining ∧
    busRead 0x058 64 s = sinkWord s ∧ busRead 0x060 64 s = sourceWord s ∧ busRead 0x068 64 s = s.ipos ∧
    busRead 0x070 64 s = s.ibufLen ∧ busRead 0x078 64 s = s.obufLen

/-- Accesses that do nothing and read 0 (R62, R63, R68): narrow or misaligned register accesses, reserved offsets, the gaps
between and above the regions, and window accesses that are not a byte wide. -/
def Obligations.BadAccessesDoNothing : Prop :=
  ∀ (s : State) (a : Addr) (width : Nat) (data : Word), s.cfg.wf →
    ((a.toNat < 0x1000 ∧ (width ≠ 64 ∨ a.toNat % 8 ≠ 0 ∨ 0x080 ≤ a.toNat)) ∨
      (0x1000 ≤ a.toNat ∧ a.toNat < 0x100000000) ∨
      (0x100000000 + s.cfg.ibufCap ≤ a.toNat ∧ a.toNat < 0x200000000) ∨
      0x200000000 + s.cfg.obufCap ≤ a.toNat ∨ (0x100000000 ≤ a.toNat ∧ width ≠ 8)) →
      busRead a width s = 0 ∧ serve (.write a width data) s = .next s

/-- A write of the host has a side effect only at CMD, at an IBUF byte and at IBUF_LEN (R64, R70): any other write changes
nothing. -/
def Obligations.OnlyThreeWritesHaveEffects : Prop :=
  ∀ (s : State) (a : Addr) (width : Nat) (data : Word),
    ¬ (a.toNat = 0x000 ∧ width = 64) → ¬ (a.toNat = 0x070 ∧ width = 64) →
    ¬ (0x100000000 ≤ a.toNat ∧ a.toNat < 0x100000000 + s.cfg.ibufCap ∧ width = 8) →
      serve (.write a width data) s = .next s

/-- No host read has a side effect on the core (R64): it only answers the host, in the model's own register for that
(log 3). -/
def Obligations.ReadsHaveNoSideEffect : Prop :=
  ∀ (s : State) (a : Addr) (width : Nat),
    serve (.read a width) s = .next { s with readData := busRead a width s }

/-- The IBUF window (R65, R69): in IDLE a byte written reads back and no other byte changes; in any other session the write is
ignored. Which bits of the host's data carry the byte, the low eight with zeros above in an answer, the spec does not
say: that clause is the model's choice (DESIGN CHOICE, log 13). -/
def Obligations.InputWindow : Prop :=
  ∀ (s : State) (i : Nat) (a : Addr) (data : Word), i < s.cfg.ibufCap → a.toNat = 0x100000000 + i →
    busRead a 8 s = (ibufByte s i).setWidth 64 ∧
    (s.session ≠ .idle → serve (.write a 8 data) s = .next s) ∧
    (s.session = .idle →
      ∃ t, serve (.write a 8 data) s = .next t ∧ ibufByte t i = data.setWidth 8 ∧
        (∀ k, k ≠ i → ibufByte t k = ibufByte s k) ∧ t = { s with ibuf := t.ibuf })

/-- Writing IBUF_LEN (R71): in IDLE and up to IBUF_CAP it is set and nothing else changes; otherwise ignored. -/
def Obligations.InputLengthWrite : Prop :=
  ∀ (s : State) (v : Word),
    (s.session = .idle → v.toNat ≤ s.cfg.ibufCap →
      serve (.write 0x070 64 v) s = .next { s with ibufLen := v }) ∧
    (s.session ≠ .idle ∨ s.cfg.ibufCap < v.toNat → serve (.write 0x070 64 v) s = .next s)

/-- The OBUF window (R67): below OBUF_LEN a byte reads as it stands, at and above it as 0; it is never written.
That a byte stands in the low bits of the answer with zeros above is the model's choice (DESIGN CHOICE, log 13). -/
def Obligations.OutputWindow : Prop :=
  ∀ (s : State) (i : Nat) (a : Addr) (data : Word), i < s.cfg.obufCap → a.toNat = 0x200000000 + i → s.cfg.wf →
    (i < s.obufLen.toNat → busRead a 8 s = (obufByte s i).setWidth 64) ∧
    (s.obufLen.toNat ≤ i → busRead a 8 s = 0) ∧ serve (.write a 8 data) s = .next s

/-! ### Whole-machine statements -/

/-- Every step keeps the invariant: R8, R26, R32, R33, R35, R37, R41, R42, R226 and R321 in every state a run reaches. -/
def Obligations.StepKeepsTheInvariant : Prop := ∀ s t : State, Inv s → step s = .next t → Inv t

/-- The state after reset meets the invariant. -/
def Obligations.ResetMeetsTheInvariant : Prop := Inv State.reset

/-- The core never hangs (R323): from every state that meets the invariant, a step answers a next state for every access;
no operation is met outside its meaning. -/
def Obligations.StepAlwaysAnswers : Prop := ∀ s : State, Inv s → ∃ t, step s = .next t

/-- Every step keeps both buffers' lists canonical, from every state. -/
def Obligations.StepKeepsBuffersCanonical : Prop :=
  ∀ s t : State, Memory.wf s.ibuf → Memory.wf s.obuf → step s = .next t →
    Memory.wf t.ibuf ∧ Memory.wf t.obuf

/-- During an encode session no command but RESET rewrites a byte of OBUF that has been emitted, or takes one back (R312). -/
def Obligations.EmittedBytesAreFinal : Prop :=
  ∀ (i : Instr) (s t : State), s.session = .enc → i ≠ .reset → exec i s = .next t →
    s.obufLen ≤ t.obufLen ∧ ∀ k, k < s.obufLen.toNat → obufByte t k = obufByte s k
end

