-- ==== Sys2Proof/Laws/Encoding.lean ====
section
/-! SUPPORT. The fields of a word built from its fields (30_encoding R91). -/

namespace Sys2Proof

@[simp] theorem opcField_wordOf (opc b : Byte) (imm : Imm) : opcField (wordOf opc b imm) = opc := by
  apply BitVec.eq_of_getLsbD_eq
  intro i hi
  simp only [opcField, wordOf, BitVec.getLsbD_extractLsb', BitVec.getLsbD_append]
  rw [if_neg (by omega), decide_eq_true hi, Bool.true_and, Nat.add_sub_cancel_left]

@[simp] theorem bField_wordOf (opc b : Byte) (imm : Imm) : bField (wordOf opc b imm) = b := by
  apply BitVec.eq_of_getLsbD_eq
  intro i hi
  simp only [bField, wordOf, BitVec.getLsbD_extractLsb', BitVec.getLsbD_append]
  rw [if_pos (by omega), if_neg (by omega), decide_eq_true hi, Bool.true_and, Nat.add_sub_cancel_left]

@[simp] theorem immField_wordOf (opc b : Byte) (imm : Imm) : immField (wordOf opc b imm) = imm := by
  apply BitVec.eq_of_getLsbD_eq
  intro i hi
  simp only [immField, wordOf, BitVec.getLsbD_extractLsb', BitVec.getLsbD_append]
  rw [if_pos (by omega), if_pos (by omega), decide_eq_true hi, Bool.true_and, Nat.zero_add]

end Sys2Proof
end

