-- ==== Sys2Proof/Laws/Memory.lean ====
section
/-! SUPPORT. The laws of the buffers' lists: reading after writing, and the canonical form. -/

namespace Sys2Proof.Machine

theorem Memory.lookup_write_self (m : List Host.Cell) (a : Nat) (b : Byte) :
    Memory.lookup (Memory.write m a b) a = some b := by
  induction m with
  | nil => simp [Memory.write, Memory.lookup]
  | cons c m ih =>
    obtain ⟨k, v⟩ := c
    simp only [Memory.write]
    split
    · simp [Memory.lookup]
    · split
      · simp [Memory.lookup]
      · simp [Memory.lookup, ih, Ne.symm ‹¬ a = k›]

theorem Memory.lookup_write_of_ne (m : List Host.Cell) {a k : Nat} (b : Byte) (h : k ≠ a) :
    Memory.lookup (Memory.write m a b) k = Memory.lookup m k := by
  induction m with
  | nil => simp [Memory.write, Memory.lookup, Ne.symm h]
  | cons c m ih =>
    obtain ⟨j, v⟩ := c
    simp only [Memory.write]
    split
    · simp [Memory.lookup, Ne.symm h]
    · split
      · subst a; simp [Memory.lookup, Ne.symm h]
      · simp [Memory.lookup, ih]

/-- A write lists no index but its own and those listed before. -/
theorem Memory.mem_write {m : List Host.Cell} {a : Nat} {b : Byte} {c : Host.Cell}
    (h : c ∈ Memory.write m a b) : c = (a, b) ∨ c ∈ m := by
  induction m with
  | nil => simpa [Memory.write] using h
  | cons d m ih =>
    obtain ⟨k, v⟩ := d
    simp only [Memory.write] at h
    split at h
    · simpa using h
    · split at h
      · rcases List.mem_cons.1 h with h | h
        · exact .inl h
        · exact .inr (List.mem_cons_of_mem _ h)
      · rcases List.mem_cons.1 h with h | h
        · exact .inr (h ▸ List.mem_cons_self)
        · exact (ih h).imp id (List.mem_cons_of_mem _)

/-- Every write keeps the canonical form. -/
theorem Memory.wf_write {m : List Host.Cell} (a : Nat) (b : Byte) (h : Memory.wf m) :
    Memory.wf (Memory.write m a b) := by
  induction m with
  | nil => simp [Memory.write, Memory.wf]
  | cons c m ih =>
    obtain ⟨k, v⟩ := c
    obtain ⟨hk, hm⟩ := List.pairwise_cons.1 h
    simp only [Memory.write]
    split
    · refine List.pairwise_cons.2 ⟨?_, h⟩
      intro d hd
      rcases List.mem_cons.1 hd with rfl | hd
      · assumption
      · exact lt_trans ‹a < k› (hk d hd)
    · split
      · subst a
        exact List.pairwise_cons.2 ⟨hk, hm⟩
      · refine List.pairwise_cons.2 ⟨?_, ih hm⟩
        intro d hd
        rcases Memory.mem_write hd with rfl | hd
        · change k < a; omega
        · exact hk d hd

/-- The reset state's buffers are canonical. -/
theorem Memory.wf_reset : Memory.wf State.reset.ibuf ∧ Memory.wf State.reset.obuf := by
  decide

end Sys2Proof.Machine
end

