-- ==== Sys2Proof/Laws/State.lean ====
section
/-! SUPPORT. What each named update of the state leaves in each field, by definition. -/

namespace Sys2Proof.Machine

/-! ### faultEntry -/

@[simp] theorem faultEntry_session (c : FaultCode) (w : Word) (s : State) :
    (faultEntry c w s).session = .faulted := rfl
@[simp] theorem faultEntry_built (c : FaultCode) (w : Word) (s : State) :
    (faultEntry c w s).built = s.built := rfl
@[simp] theorem faultEntry_count (c : FaultCode) (w : Word) (s : State) :
    (faultEntry c w s).count = s.count := rfl
@[simp] theorem faultEntry_cum (c : FaultCode) (w : Word) (s : State) :
    (faultEntry c w s).cum = s.cum := rfl
@[simp] theorem faultEntry_low (c : FaultCode) (w : Word) (s : State) :
    (faultEntry c w s).low = s.low := rfl
@[simp] theorem faultEntry_high (c : FaultCode) (w : Word) (s : State) :
    (faultEntry c w s).high = s.high := rfl
@[simp] theorem faultEntry_follow (c : FaultCode) (w : Word) (s : State) :
    (faultEntry c w s).follow = s.follow := rfl
@[simp] theorem faultEntry_value (c : FaultCode) (w : Word) (s : State) :
    (faultEntry c w s).value = s.value := rfl
@[simp] theorem faultEntry_encCount (c : FaultCode) (w : Word) (s : State) :
    (faultEntry c w s).encCount = s.encCount := rfl
@[simp] theorem faultEntry_remaining (c : FaultCode) (w : Word) (s : State) :
    (faultEntry c w s).remaining = s.remaining := rfl
@[simp] theorem faultEntry_acc (c : FaultCode) (w : Word) (s : State) :
    (faultEntry c w s).acc = s.acc := rfl
@[simp] theorem faultEntry_fill (c : FaultCode) (w : Word) (s : State) :
    (faultEntry c w s).fill = s.fill := rfl
@[simp] theorem faultEntry_srcByte (c : FaultCode) (w : Word) (s : State) :
    (faultEntry c w s).srcByte = s.srcByte := rfl
@[simp] theorem faultEntry_srcRem (c : FaultCode) (w : Word) (s : State) :
    (faultEntry c w s).srcRem = s.srcRem := rfl
@[simp] theorem faultEntry_eoi (c : FaultCode) (w : Word) (s : State) :
    (faultEntry c w s).eoi = s.eoi := rfl
@[simp] theorem faultEntry_ipos (c : FaultCode) (w : Word) (s : State) :
    (faultEntry c w s).ipos = s.ipos := rfl
@[simp] theorem faultEntry_ibufLen (c : FaultCode) (w : Word) (s : State) :
    (faultEntry c w s).ibufLen = s.ibufLen := rfl
@[simp] theorem faultEntry_obufLen (c : FaultCode) (w : Word) (s : State) :
    (faultEntry c w s).obufLen = s.obufLen := rfl
@[simp] theorem faultEntry_result (c : FaultCode) (w : Word) (s : State) :
    (faultEntry c w s).result = s.result := rfl
@[simp] theorem faultEntry_faultCode (c : FaultCode) (w : Word) (s : State) :
    (faultEntry c w s).faultCode = c := rfl
@[simp] theorem faultEntry_faultCmd (c : FaultCode) (w : Word) (s : State) :
    (faultEntry c w s).faultCmd = w := rfl
@[simp] theorem faultEntry_ibuf (c : FaultCode) (w : Word) (s : State) :
    (faultEntry c w s).ibuf = s.ibuf := rfl
@[simp] theorem faultEntry_obuf (c : FaultCode) (w : Word) (s : State) :
    (faultEntry c w s).obuf = s.obuf := rfl
@[simp] theorem faultEntry_cfg (c : FaultCode) (w : Word) (s : State) :
    (faultEntry c w s).cfg = s.cfg := rfl
@[simp] theorem faultEntry_pending (c : FaultCode) (w : Word) (s : State) :
    (faultEntry c w s).pending = s.pending := rfl
@[simp] theorem faultEntry_readData (c : FaultCode) (w : Word) (s : State) :
    (faultEntry c w s).readData = s.readData := rfl
@[simp] theorem faultEntry_draw (c : FaultCode) (w : Word) (s : State) :
    (faultEntry c w s).draw = s.draw := rfl

/-! ### performReset -/

@[simp] theorem performReset_session (s : State) :
    (performReset s).session = State.reset.session := rfl
@[simp] theorem performReset_built (s : State) :
    (performReset s).built = State.reset.built := rfl
@[simp] theorem performReset_count (s : State) :
    (performReset s).count = State.reset.count := rfl
@[simp] theorem performReset_cum (s : State) :
    (performReset s).cum = State.reset.cum := rfl
@[simp] theorem performReset_low (s : State) :
    (performReset s).low = State.reset.low := rfl
@[simp] theorem performReset_high (s : State) :
    (performReset s).high = State.reset.high := rfl
@[simp] theorem performReset_follow (s : State) :
    (performReset s).follow = State.reset.follow := rfl
@[simp] theorem performReset_value (s : State) :
    (performReset s).value = State.reset.value := rfl
@[simp] theorem performReset_encCount (s : State) :
    (performReset s).encCount = State.reset.encCount := rfl
@[simp] theorem performReset_remaining (s : State) :
    (performReset s).remaining = State.reset.remaining := rfl
@[simp] theorem performReset_acc (s : State) :
    (performReset s).acc = State.reset.acc := rfl
@[simp] theorem performReset_fill (s : State) :
    (performReset s).fill = State.reset.fill := rfl
@[simp] theorem performReset_srcByte (s : State) :
    (performReset s).srcByte = State.reset.srcByte := rfl
@[simp] theorem performReset_srcRem (s : State) :
    (performReset s).srcRem = State.reset.srcRem := rfl
@[simp] theorem performReset_eoi (s : State) :
    (performReset s).eoi = State.reset.eoi := rfl
@[simp] theorem performReset_ipos (s : State) :
    (performReset s).ipos = State.reset.ipos := rfl
@[simp] theorem performReset_ibufLen (s : State) :
    (performReset s).ibufLen = State.reset.ibufLen := rfl
@[simp] theorem performReset_obufLen (s : State) :
    (performReset s).obufLen = State.reset.obufLen := rfl
@[simp] theorem performReset_result (s : State) :
    (performReset s).result = State.reset.result := rfl
@[simp] theorem performReset_faultCode (s : State) :
    (performReset s).faultCode = State.reset.faultCode := rfl
@[simp] theorem performReset_faultCmd (s : State) :
    (performReset s).faultCmd = State.reset.faultCmd := rfl
@[simp] theorem performReset_ibuf (s : State) :
    (performReset s).ibuf = State.reset.ibuf := rfl
@[simp] theorem performReset_obuf (s : State) :
    (performReset s).obuf = State.reset.obuf := rfl
@[simp] theorem performReset_cfg (s : State) :
    (performReset s).cfg = s.cfg := rfl
@[simp] theorem performReset_pending (s : State) :
    (performReset s).pending = s.pending := rfl
@[simp] theorem performReset_readData (s : State) :
    (performReset s).readData = s.readData := rfl
@[simp] theorem performReset_draw (s : State) :
    (performReset s).draw = s.draw + 1 := rfl

/-! ### sinkReset -/

@[simp] theorem sinkReset_session (s : State) :
    (sinkReset s).session = s.session := rfl
@[simp] theorem sinkReset_built (s : State) :
    (sinkReset s).built = s.built := rfl
@[simp] theorem sinkReset_count (s : State) :
    (sinkReset s).count = s.count := rfl
@[simp] theorem sinkReset_cum (s : State) :
    (sinkReset s).cum = s.cum := rfl
@[simp] theorem sinkReset_low (s : State) :
    (sinkReset s).low = s.low := rfl
@[simp] theorem sinkReset_high (s : State) :
    (sinkReset s).high = s.high := rfl
@[simp] theorem sinkReset_follow (s : State) :
    (sinkReset s).follow = s.follow := rfl
@[simp] theorem sinkReset_value (s : State) :
    (sinkReset s).value = s.value := rfl
@[simp] theorem sinkReset_encCount (s : State) :
    (sinkReset s).encCount = s.encCount := rfl
@[simp] theorem sinkReset_remaining (s : State) :
    (sinkReset s).remaining = s.remaining := rfl
@[simp] theorem sinkReset_acc (s : State) :
    (sinkReset s).acc = 0 := rfl
@[simp] theorem sinkReset_fill (s : State) :
    (sinkReset s).fill = 0 := rfl
@[simp] theorem sinkReset_srcByte (s : State) :
    (sinkReset s).srcByte = s.srcByte := rfl
@[simp] theorem sinkReset_srcRem (s : State) :
    (sinkReset s).srcRem = s.srcRem := rfl
@[simp] theorem sinkReset_eoi (s : State) :
    (sinkReset s).eoi = s.eoi := rfl
@[simp] theorem sinkReset_ipos (s : State) :
    (sinkReset s).ipos = s.ipos := rfl
@[simp] theorem sinkReset_ibufLen (s : State) :
    (sinkReset s).ibufLen = s.ibufLen := rfl
@[simp] theorem sinkReset_obufLen (s : State) :
    (sinkReset s).obufLen = 0 := rfl
@[simp] theorem sinkReset_result (s : State) :
    (sinkReset s).result = s.result := rfl
@[simp] theorem sinkReset_faultCode (s : State) :
    (sinkReset s).faultCode = s.faultCode := rfl
@[simp] theorem sinkReset_faultCmd (s : State) :
    (sinkReset s).faultCmd = s.faultCmd := rfl
@[simp] theorem sinkReset_ibuf (s : State) :
    (sinkReset s).ibuf = s.ibuf := rfl
@[simp] theorem sinkReset_obuf (s : State) :
    (sinkReset s).obuf = s.obuf := rfl
@[simp] theorem sinkReset_cfg (s : State) :
    (sinkReset s).cfg = s.cfg := rfl
@[simp] theorem sinkReset_pending (s : State) :
    (sinkReset s).pending = s.pending := rfl
@[simp] theorem sinkReset_readData (s : State) :
    (sinkReset s).readData = s.readData := rfl
@[simp] theorem sinkReset_draw (s : State) :
    (sinkReset s).draw = s.draw := rfl

/-! ### sourceReset -/

@[simp] theorem sourceReset_session (s : State) :
    (sourceReset s).session = s.session := rfl
@[simp] theorem sourceReset_built (s : State) :
    (sourceReset s).built = s.built := rfl
@[simp] theorem sourceReset_count (s : State) :
    (sourceReset s).count = s.count := rfl
@[simp] theorem sourceReset_cum (s : State) :
    (sourceReset s).cum = s.cum := rfl
@[simp] theorem sourceReset_low (s : State) :
    (sourceReset s).low = s.low := rfl
@[simp] theorem sourceReset_high (s : State) :
    (sourceReset s).high = s.high := rfl
@[simp] theorem sourceReset_follow (s : State) :
    (sourceReset s).follow = s.follow := rfl
@[simp] theorem sourceReset_value (s : State) :
    (sourceReset s).value = s.value := rfl
@[simp] theorem sourceReset_encCount (s : State) :
    (sourceReset s).encCount = s.encCount := rfl
@[simp] theorem sourceReset_remaining (s : State) :
    (sourceReset s).remaining = s.remaining := rfl
@[simp] theorem sourceReset_acc (s : State) :
    (sourceReset s).acc = s.acc := rfl
@[simp] theorem sourceReset_fill (s : State) :
    (sourceReset s).fill = s.fill := rfl
@[simp] theorem sourceReset_srcByte (s : State) :
    (sourceReset s).srcByte = 0 := rfl
@[simp] theorem sourceReset_srcRem (s : State) :
    (sourceReset s).srcRem = 0 := rfl
@[simp] theorem sourceReset_eoi (s : State) :
    (sourceReset s).eoi = false := rfl
@[simp] theorem sourceReset_ipos (s : State) :
    (sourceReset s).ipos = 0 := rfl
@[simp] theorem sourceReset_ibufLen (s : State) :
    (sourceReset s).ibufLen = s.ibufLen := rfl
@[simp] theorem sourceReset_obufLen (s : State) :
    (sourceReset s).obufLen = s.obufLen := rfl
@[simp] theorem sourceReset_result (s : State) :
    (sourceReset s).result = s.result := rfl
@[simp] theorem sourceReset_faultCode (s : State) :
    (sourceReset s).faultCode = s.faultCode := rfl
@[simp] theorem sourceReset_faultCmd (s : State) :
    (sourceReset s).faultCmd = s.faultCmd := rfl
@[simp] theorem sourceReset_ibuf (s : State) :
    (sourceReset s).ibuf = s.ibuf := rfl
@[simp] theorem sourceReset_obuf (s : State) :
    (sourceReset s).obuf = s.obuf := rfl
@[simp] theorem sourceReset_cfg (s : State) :
    (sourceReset s).cfg = s.cfg := rfl
@[simp] theorem sourceReset_pending (s : State) :
    (sourceReset s).pending = s.pending := rfl
@[simp] theorem sourceReset_readData (s : State) :
    (sourceReset s).readData = s.readData := rfl
@[simp] theorem sourceReset_draw (s : State) :
    (sourceReset s).draw = s.draw := rfl

/-! ### shift -/

@[simp] theorem shift_session (s : State) :
    (shift s).session = s.session := rfl
@[simp] theorem shift_built (s : State) :
    (shift s).built = s.built := rfl
@[simp] theorem shift_count (s : State) :
    (shift s).count = s.count := rfl
@[simp] theorem shift_cum (s : State) :
    (shift s).cum = s.cum := rfl
@[simp] theorem shift_low (s : State) :
    (shift s).low = BitVec.ofNat 16 (2 * s.low.toNat) := rfl
@[simp] theorem shift_high (s : State) :
    (shift s).high = BitVec.ofNat 16 (2 * s.high.toNat + 1) := rfl
@[simp] theorem shift_follow (s : State) :
    (shift s).follow = s.follow := rfl
@[simp] theorem shift_value (s : State) :
    (shift s).value = s.value := rfl
@[simp] theorem shift_encCount (s : State) :
    (shift s).encCount = s.encCount := rfl
@[simp] theorem shift_remaining (s : State) :
    (shift s).remaining = s.remaining := rfl
@[simp] theorem shift_acc (s : State) :
    (shift s).acc = s.acc := rfl
@[simp] theorem shift_fill (s : State) :
    (shift s).fill = s.fill := rfl
@[simp] theorem shift_srcByte (s : State) :
    (shift s).srcByte = s.srcByte := rfl
@[simp] theorem shift_srcRem (s : State) :
    (shift s).srcRem = s.srcRem := rfl
@[simp] theorem shift_eoi (s : State) :
    (shift s).eoi = s.eoi := rfl
@[simp] theorem shift_ipos (s : State) :
    (shift s).ipos = s.ipos := rfl
@[simp] theorem shift_ibufLen (s : State) :
    (shift s).ibufLen = s.ibufLen := rfl
@[simp] theorem shift_obufLen (s : State) :
    (shift s).obufLen = s.obufLen := rfl
@[simp] theorem shift_result (s : State) :
    (shift s).result = s.result := rfl
@[simp] theorem shift_faultCode (s : State) :
    (shift s).faultCode = s.faultCode := rfl
@[simp] theorem shift_faultCmd (s : State) :
    (shift s).faultCmd = s.faultCmd := rfl
@[simp] theorem shift_ibuf (s : State) :
    (shift s).ibuf = s.ibuf := rfl
@[simp] theorem shift_obuf (s : State) :
    (shift s).obuf = s.obuf := rfl
@[simp] theorem shift_cfg (s : State) :
    (shift s).cfg = s.cfg := rfl
@[simp] theorem shift_pending (s : State) :
    (shift s).pending = s.pending := rfl
@[simp] theorem shift_readData (s : State) :
    (shift s).readData = s.readData := rfl
@[simp] theorem shift_draw (s : State) :
    (shift s).draw = s.draw := rfl

/-! ### moveInterval -/

@[simp] theorem moveInterval_session (d : BitVec 16) (s : State) :
    (moveInterval d s).session = s.session := rfl
@[simp] theorem moveInterval_built (d : BitVec 16) (s : State) :
    (moveInterval d s).built = s.built := rfl
@[simp] theorem moveInterval_count (d : BitVec 16) (s : State) :
    (moveInterval d s).count = s.count := rfl
@[simp] theorem moveInterval_cum (d : BitVec 16) (s : State) :
    (moveInterval d s).cum = s.cum := rfl
@[simp] theorem moveInterval_low (d : BitVec 16) (s : State) :
    (moveInterval d s).low = s.low - d := rfl
@[simp] theorem moveInterval_high (d : BitVec 16) (s : State) :
    (moveInterval d s).high = s.high - d := rfl
@[simp] theorem moveInterval_follow (d : BitVec 16) (s : State) :
    (moveInterval d s).follow = s.follow := rfl
@[simp] theorem moveInterval_value (d : BitVec 16) (s : State) :
    (moveInterval d s).value = s.value := rfl
@[simp] theorem moveInterval_encCount (d : BitVec 16) (s : State) :
    (moveInterval d s).encCount = s.encCount := rfl
@[simp] theorem moveInterval_remaining (d : BitVec 16) (s : State) :
    (moveInterval d s).remaining = s.remaining := rfl
@[simp] theorem moveInterval_acc (d : BitVec 16) (s : State) :
    (moveInterval d s).acc = s.acc := rfl
@[simp] theorem moveInterval_fill (d : BitVec 16) (s : State) :
    (moveInterval d s).fill = s.fill := rfl
@[simp] theorem moveInterval_srcByte (d : BitVec 16) (s : State) :
    (moveInterval d s).srcByte = s.srcByte := rfl
@[simp] theorem moveInterval_srcRem (d : BitVec 16) (s : State) :
    (moveInterval d s).srcRem = s.srcRem := rfl
@[simp] theorem moveInterval_eoi (d : BitVec 16) (s : State) :
    (moveInterval d s).eoi = s.eoi := rfl
@[simp] theorem moveInterval_ipos (d : BitVec 16) (s : State) :
    (moveInterval d s).ipos = s.ipos := rfl
@[simp] theorem moveInterval_ibufLen (d : BitVec 16) (s : State) :
    (moveInterval d s).ibufLen = s.ibufLen := rfl
@[simp] theorem moveInterval_obufLen (d : BitVec 16) (s : State) :
    (moveInterval d s).obufLen = s.obufLen := rfl
@[simp] theorem moveInterval_result (d : BitVec 16) (s : State) :
    (moveInterval d s).result = s.result := rfl
@[simp] theorem moveInterval_faultCode (d : BitVec 16) (s : State) :
    (moveInterval d s).faultCode = s.faultCode := rfl
@[simp] theorem moveInterval_faultCmd (d : BitVec 16) (s : State) :
    (moveInterval d s).faultCmd = s.faultCmd := rfl
@[simp] theorem moveInterval_ibuf (d : BitVec 16) (s : State) :
    (moveInterval d s).ibuf = s.ibuf := rfl
@[simp] theorem moveInterval_obuf (d : BitVec 16) (s : State) :
    (moveInterval d s).obuf = s.obuf := rfl
@[simp] theorem moveInterval_cfg (d : BitVec 16) (s : State) :
    (moveInterval d s).cfg = s.cfg := rfl
@[simp] theorem moveInterval_pending (d : BitVec 16) (s : State) :
    (moveInterval d s).pending = s.pending := rfl
@[simp] theorem moveInterval_readData (d : BitVec 16) (s : State) :
    (moveInterval d s).readData = s.readData := rfl
@[simp] theorem moveInterval_draw (d : BitVec 16) (s : State) :
    (moveInterval d s).draw = s.draw := rfl

/-! ### moveAll -/

@[simp] theorem moveAll_session (d : BitVec 16) (s : State) :
    (moveAll d s).session = s.session := rfl
@[simp] theorem moveAll_built (d : BitVec 16) (s : State) :
    (moveAll d s).built = s.built := rfl
@[simp] theorem moveAll_count (d : BitVec 16) (s : State) :
    (moveAll d s).count = s.count := rfl
@[simp] theorem moveAll_cum (d : BitVec 16) (s : State) :
    (moveAll d s).cum = s.cum := rfl
@[simp] theorem moveAll_low (d : BitVec 16) (s : State) :
    (moveAll d s).low = s.low - d := rfl
@[simp] theorem moveAll_high (d : BitVec 16) (s : State) :
    (moveAll d s).high = s.high - d := rfl
@[simp] theorem moveAll_follow (d : BitVec 16) (s : State) :
    (moveAll d s).follow = s.follow := rfl
@[simp] theorem moveAll_value (d : BitVec 16) (s : State) :
    (moveAll d s).value = s.value - d := rfl
@[simp] theorem moveAll_encCount (d : BitVec 16) (s : State) :
    (moveAll d s).encCount = s.encCount := rfl
@[simp] theorem moveAll_remaining (d : BitVec 16) (s : State) :
    (moveAll d s).remaining = s.remaining := rfl
@[simp] theorem moveAll_acc (d : BitVec 16) (s : State) :
    (moveAll d s).acc = s.acc := rfl
@[simp] theorem moveAll_fill (d : BitVec 16) (s : State) :
    (moveAll d s).fill = s.fill := rfl
@[simp] theorem moveAll_srcByte (d : BitVec 16) (s : State) :
    (moveAll d s).srcByte = s.srcByte := rfl
@[simp] theorem moveAll_srcRem (d : BitVec 16) (s : State) :
    (moveAll d s).srcRem = s.srcRem := rfl
@[simp] theorem moveAll_eoi (d : BitVec 16) (s : State) :
    (moveAll d s).eoi = s.eoi := rfl
@[simp] theorem moveAll_ipos (d : BitVec 16) (s : State) :
    (moveAll d s).ipos = s.ipos := rfl
@[simp] theorem moveAll_ibufLen (d : BitVec 16) (s : State) :
    (moveAll d s).ibufLen = s.ibufLen := rfl
@[simp] theorem moveAll_obufLen (d : BitVec 16) (s : State) :
    (moveAll d s).obufLen = s.obufLen := rfl
@[simp] theorem moveAll_result (d : BitVec 16) (s : State) :
    (moveAll d s).result = s.result := rfl
@[simp] theorem moveAll_faultCode (d : BitVec 16) (s : State) :
    (moveAll d s).faultCode = s.faultCode := rfl
@[simp] theorem moveAll_faultCmd (d : BitVec 16) (s : State) :
    (moveAll d s).faultCmd = s.faultCmd := rfl
@[simp] theorem moveAll_ibuf (d : BitVec 16) (s : State) :
    (moveAll d s).ibuf = s.ibuf := rfl
@[simp] theorem moveAll_obuf (d : BitVec 16) (s : State) :
    (moveAll d s).obuf = s.obuf := rfl
@[simp] theorem moveAll_cfg (d : BitVec 16) (s : State) :
    (moveAll d s).cfg = s.cfg := rfl
@[simp] theorem moveAll_pending (d : BitVec 16) (s : State) :
    (moveAll d s).pending = s.pending := rfl
@[simp] theorem moveAll_readData (d : BitVec 16) (s : State) :
    (moveAll d s).readData = s.readData := rfl
@[simp] theorem moveAll_draw (d : BitVec 16) (s : State) :
    (moveAll d s).draw = s.draw := rfl

/-! ### shiftInBit -/

@[simp] theorem shiftInBit_session (b : Bool) (s : State) :
    (shiftInBit b s).session = s.session := rfl
@[simp] theorem shiftInBit_built (b : Bool) (s : State) :
    (shiftInBit b s).built = s.built := rfl
@[simp] theorem shiftInBit_count (b : Bool) (s : State) :
    (shiftInBit b s).count = s.count := rfl
@[simp] theorem shiftInBit_cum (b : Bool) (s : State) :
    (shiftInBit b s).cum = s.cum := rfl
@[simp] theorem shiftInBit_low (b : Bool) (s : State) :
    (shiftInBit b s).low = s.low := rfl
@[simp] theorem shiftInBit_high (b : Bool) (s : State) :
    (shiftInBit b s).high = s.high := rfl
@[simp] theorem shiftInBit_follow (b : Bool) (s : State) :
    (shiftInBit b s).follow = s.follow := rfl
@[simp] theorem shiftInBit_value (b : Bool) (s : State) :
    (shiftInBit b s).value = BitVec.ofNat 16 (2 * s.value.toNat + b.toNat) := rfl
@[simp] theorem shiftInBit_encCount (b : Bool) (s : State) :
    (shiftInBit b s).encCount = s.encCount := rfl
@[simp] theorem shiftInBit_remaining (b : Bool) (s : State) :
    (shiftInBit b s).remaining = s.remaining := rfl
@[simp] theorem shiftInBit_acc (b : Bool) (s : State) :
    (shiftInBit b s).acc = s.acc := rfl
@[simp] theorem shiftInBit_fill (b : Bool) (s : State) :
    (shiftInBit b s).fill = s.fill := rfl
@[simp] theorem shiftInBit_srcByte (b : Bool) (s : State) :
    (shiftInBit b s).srcByte = s.srcByte := rfl
@[simp] theorem shiftInBit_srcRem (b : Bool) (s : State) :
    (shiftInBit b s).srcRem = s.srcRem := rfl
@[simp] theorem shiftInBit_eoi (b : Bool) (s : State) :
    (shiftInBit b s).eoi = s.eoi := rfl
@[simp] theorem shiftInBit_ipos (b : Bool) (s : State) :
    (shiftInBit b s).ipos = s.ipos := rfl
@[simp] theorem shiftInBit_ibufLen (b : Bool) (s : State) :
    (shiftInBit b s).ibufLen = s.ibufLen := rfl
@[simp] theorem shiftInBit_obufLen (b : Bool) (s : State) :
    (shiftInBit b s).obufLen = s.obufLen := rfl
@[simp] theorem shiftInBit_result (b : Bool) (s : State) :
    (shiftInBit b s).result = s.result := rfl
@[simp] theorem shiftInBit_faultCode (b : Bool) (s : State) :
    (shiftInBit b s).faultCode = s.faultCode := rfl
@[simp] theorem shiftInBit_faultCmd (b : Bool) (s : State) :
    (shiftInBit b s).faultCmd = s.faultCmd := rfl
@[simp] theorem shiftInBit_ibuf (b : Bool) (s : State) :
    (shiftInBit b s).ibuf = s.ibuf := rfl
@[simp] theorem shiftInBit_obuf (b : Bool) (s : State) :
    (shiftInBit b s).obuf = s.obuf := rfl
@[simp] theorem shiftInBit_cfg (b : Bool) (s : State) :
    (shiftInBit b s).cfg = s.cfg := rfl
@[simp] theorem shiftInBit_pending (b : Bool) (s : State) :
    (shiftInBit b s).pending = s.pending := rfl
@[simp] theorem shiftInBit_readData (b : Bool) (s : State) :
    (shiftInBit b s).readData = s.readData := rfl
@[simp] theorem shiftInBit_draw (b : Bool) (s : State) :
    (shiftInBit b s).draw = s.draw := rfl

/-! ### decStartInit -/

@[simp] theorem decStartInit_session (n : Imm) (s : State) :
    (decStartInit n s).session = s.session := rfl
@[simp] theorem decStartInit_built (n : Imm) (s : State) :
    (decStartInit n s).built = s.built := rfl
@[simp] theorem decStartInit_count (n : Imm) (s : State) :
    (decStartInit n s).count = s.count := rfl
@[simp] theorem decStartInit_cum (n : Imm) (s : State) :
    (decStartInit n s).cum = s.cum := rfl
@[simp] theorem decStartInit_low (n : Imm) (s : State) :
    (decStartInit n s).low = 0 := rfl
@[simp] theorem decStartInit_high (n : Imm) (s : State) :
    (decStartInit n s).high = top := rfl
@[simp] theorem decStartInit_follow (n : Imm) (s : State) :
    (decStartInit n s).follow = s.follow := rfl
@[simp] theorem decStartInit_value (n : Imm) (s : State) :
    (decStartInit n s).value = 0 := rfl
@[simp] theorem decStartInit_encCount (n : Imm) (s : State) :
    (decStartInit n s).encCount = s.encCount := rfl
@[simp] theorem decStartInit_remaining (n : Imm) (s : State) :
    (decStartInit n s).remaining = n.setWidth 64 := rfl
@[simp] theorem decStartInit_acc (n : Imm) (s : State) :
    (decStartInit n s).acc = s.acc := rfl
@[simp] theorem decStartInit_fill (n : Imm) (s : State) :
    (decStartInit n s).fill = s.fill := rfl
@[simp] theorem decStartInit_srcByte (n : Imm) (s : State) :
    (decStartInit n s).srcByte = 0 := rfl
@[simp] theorem decStartInit_srcRem (n : Imm) (s : State) :
    (decStartInit n s).srcRem = 0 := rfl
@[simp] theorem decStartInit_eoi (n : Imm) (s : State) :
    (decStartInit n s).eoi = false := rfl
@[simp] theorem decStartInit_ipos (n : Imm) (s : State) :
    (decStartInit n s).ipos = 0 := rfl
@[simp] theorem decStartInit_ibufLen (n : Imm) (s : State) :
    (decStartInit n s).ibufLen = s.ibufLen := rfl
@[simp] theorem decStartInit_obufLen (n : Imm) (s : State) :
    (decStartInit n s).obufLen = 0 := rfl
@[simp] theorem decStartInit_result (n : Imm) (s : State) :
    (decStartInit n s).result = s.result := rfl
@[simp] theorem decStartInit_faultCode (n : Imm) (s : State) :
    (decStartInit n s).faultCode = s.faultCode := rfl
@[simp] theorem decStartInit_faultCmd (n : Imm) (s : State) :
    (decStartInit n s).faultCmd = s.faultCmd := rfl
@[simp] theorem decStartInit_ibuf (n : Imm) (s : State) :
    (decStartInit n s).ibuf = s.ibuf := rfl
@[simp] theorem decStartInit_obuf (n : Imm) (s : State) :
    (decStartInit n s).obuf = s.obuf := rfl
@[simp] theorem decStartInit_cfg (n : Imm) (s : State) :
    (decStartInit n s).cfg = s.cfg := rfl
@[simp] theorem decStartInit_pending (n : Imm) (s : State) :
    (decStartInit n s).pending = s.pending := rfl
@[simp] theorem decStartInit_readData (n : Imm) (s : State) :
    (decStartInit n s).readData = s.readData := rfl
@[simp] theorem decStartInit_draw (n : Imm) (s : State) :
    (decStartInit n s).draw = s.draw := rfl

/-! ### pushCommand -/

@[simp] theorem pushCommand_session (w : Word) (s : State) :
    (pushCommand w s).session = s.session := rfl
@[simp] theorem pushCommand_built (w : Word) (s : State) :
    (pushCommand w s).built = s.built := rfl
@[simp] theorem pushCommand_count (w : Word) (s : State) :
    (pushCommand w s).count = s.count := rfl
@[simp] theorem pushCommand_cum (w : Word) (s : State) :
    (pushCommand w s).cum = s.cum := rfl
@[simp] theorem pushCommand_low (w : Word) (s : State) :
    (pushCommand w s).low = s.low := rfl
@[simp] theorem pushCommand_high (w : Word) (s : State) :
    (pushCommand w s).high = s.high := rfl
@[simp] theorem pushCommand_follow (w : Word) (s : State) :
    (pushCommand w s).follow = s.follow := rfl
@[simp] theorem pushCommand_value (w : Word) (s : State) :
    (pushCommand w s).value = s.value := rfl
@[simp] theorem pushCommand_encCount (w : Word) (s : State) :
    (pushCommand w s).encCount = s.encCount := rfl
@[simp] theorem pushCommand_remaining (w : Word) (s : State) :
    (pushCommand w s).remaining = s.remaining := rfl
@[simp] theorem pushCommand_acc (w : Word) (s : State) :
    (pushCommand w s).acc = s.acc := rfl
@[simp] theorem pushCommand_fill (w : Word) (s : State) :
    (pushCommand w s).fill = s.fill := rfl
@[simp] theorem pushCommand_srcByte (w : Word) (s : State) :
    (pushCommand w s).srcByte = s.srcByte := rfl
@[simp] theorem pushCommand_srcRem (w : Word) (s : State) :
    (pushCommand w s).srcRem = s.srcRem := rfl
@[simp] theorem pushCommand_eoi (w : Word) (s : State) :
    (pushCommand w s).eoi = s.eoi := rfl
@[simp] theorem pushCommand_ipos (w : Word) (s : State) :
    (pushCommand w s).ipos = s.ipos := rfl
@[simp] theorem pushCommand_ibufLen (w : Word) (s : State) :
    (pushCommand w s).ibufLen = s.ibufLen := rfl
@[simp] theorem pushCommand_obufLen (w : Word) (s : State) :
    (pushCommand w s).obufLen = s.obufLen := rfl
@[simp] theorem pushCommand_result (w : Word) (s : State) :
    (pushCommand w s).result = s.result := rfl
@[simp] theorem pushCommand_faultCode (w : Word) (s : State) :
    (pushCommand w s).faultCode = s.faultCode := rfl
@[simp] theorem pushCommand_faultCmd (w : Word) (s : State) :
    (pushCommand w s).faultCmd = s.faultCmd := rfl
@[simp] theorem pushCommand_ibuf (w : Word) (s : State) :
    (pushCommand w s).ibuf = s.ibuf := rfl
@[simp] theorem pushCommand_obuf (w : Word) (s : State) :
    (pushCommand w s).obuf = s.obuf := rfl
@[simp] theorem pushCommand_cfg (w : Word) (s : State) :
    (pushCommand w s).cfg = s.cfg := rfl
@[simp] theorem pushCommand_pending (w : Word) (s : State) :
    (pushCommand w s).pending = .write cmdAddr 64 w :: s.pending := rfl
@[simp] theorem pushCommand_readData (w : Word) (s : State) :
    (pushCommand w s).readData = s.readData := rfl
@[simp] theorem pushCommand_draw (w : Word) (s : State) :
    (pushCommand w s).draw = s.draw := rfl

end Sys2Proof.Machine
end

