-- ==== Sys2Proof/Laws/Ops.lean ====
section
/-! SUPPORT. What each shared operation can do: one lemma for each, cited instead of unfolding it. -/

namespace Sys2Proof.Machine

/-! ### Bodies -/

/-- A sequence answers a value exactly when both of its parts do. -/
theorem Eff.bind_ok {α β : Type} {x : Eff α} {f : α → Eff β} {b : β} :
    (x >>= f) = .ok b ↔ ∃ a, x = .ok a ∧ f a = .ok b := by
  cases x with
  | error e => simp [bind, Except.bind]
  | ok a => simp [bind, Except.bind]

/-- A sequence stops where its first part does, or where its second does after it. -/
theorem Eff.bind_error {α β : Type} {x : Eff α} {f : α → Eff β} {e : Stop} :
    (x >>= f) = .error e ↔ x = .error e ∨ ∃ a, x = .ok a ∧ f a = .error e := by
  cases x with
  | error e => simp [bind, Except.bind]
  | ok a => simp [bind, Except.bind]

@[simp] theorem Eff.pure_eq {α : Type} (a : α) : (pure a : Eff α) = .ok a := rfl

@[simp] theorem Eff.ok_bind {α β : Type} (a : α) (f : α → Eff β) : ((.ok a : Eff α) >>= f) = f a := rfl

@[simp] theorem Eff.error_bind {α β : Type} (e : Stop) (f : α → Eff β) :
    ((.error e : Eff α) >>= f) = .error e := rfl

/-- `fit` answers the value's own bits (R9). -/
theorem fit_ok {w n : Nat} {v : BitVec w} : fit w n = .ok v ↔ n < 2 ^ w ∧ v.toNat = n := by
  unfold fit
  split
  · rename_i h
    constructor
    · rintro ⟨⟩
      exact ⟨h, by simp [Nat.mod_eq_of_lt h]⟩
    · rintro ⟨-, hv⟩
      rw [← hv]
      simp
  · rename_i h
    constructor
    · rintro ⟨⟩
    · exact fun hv => absurd hv.1 h

theorem fit_of_lt {w n : Nat} (h : n < 2 ^ w) : fit w n = .ok (BitVec.ofNat w n) := if_pos h

/-- `fit` raises no fault of the core. -/
theorem fit_error {w n : Nat} {e : Stop} (h : fit w n = .error e) :
    2 ^ w ≤ n ∧ e = .noMeaning .valueOutOfRange := by
  unfold fit at h
  split at h
  · cases h
  · cases h; exact ⟨by omega, rfl⟩

theorem fitInt_ok {w : Nat} {n : Int} {v : BitVec w} :
    fitInt w n = .ok v ↔ n < 2 ^ w ∧ (v.toNat : Int) = n := by
  unfold fitInt
  split
  · rename_i h
    obtain ⟨m, rfl⟩ := Int.eq_ofNat_of_zero_le h
    rw [fit_ok]
    rw [Int.toNat_natCast]
    constructor
    · rintro ⟨h1, h2⟩; exact ⟨by exact_mod_cast h1, by exact_mod_cast h2⟩
    · rintro ⟨h1, h2⟩; exact ⟨by exact_mod_cast h1, by exact_mod_cast h2⟩
  · rename_i h
    constructor
    · rintro ⟨⟩
    · rintro ⟨-, h2⟩; omega

theorem fitInt_error {w : Nat} {n : Int} {e : Stop} (h : fitInt w n = .error e) :
    e = .noMeaning .valueOutOfRange := by
  unfold fitInt at h
  split at h
  · exact (fit_error h).2
  · cases h; rfl

/-! ### Commands -/

/-- What a decoded command other than RESET can do (R97): be ignored, raise BAD_STATE, complete, or fault. -/
theorem runCommand_next {i : Instr} {body : State → Eff State} {s t : State}
    (h : runCommand i body s = .next t) :
    (s.session = .faulted ∧ t = s) ∨
    (s.session ≠ .faulted ∧ legal i s.session s.built = false ∧ t = faultEntry .badState (encode i) s) ∨
    (s.session ≠ .faulted ∧ legal i s.session s.built = true ∧ body s = .ok t) ∨
    (s.session ≠ .faulted ∧ legal i s.session s.built = true ∧
      ∃ c, body s = raiseFault c ∧ t = faultEntry c (encode i) s) := by
  unfold runCommand at h
  split at h
  · cases h; exact .inl ⟨‹_›, rfl⟩
  · split at h
    · unfold commit at h
      split at h
      · cases h; exact .inr (.inr (.inl ⟨‹_›, ‹_›, by assumption⟩))
      · cases h; exact .inr (.inr (.inr ⟨‹_›, ‹_›, _, by assumption, rfl⟩))
      · cases h
    · cases h; exact .inr (.inl ⟨‹_›, by simpa using ‹¬ legal i s.session s.built = true›, rfl⟩)

/-- In a session where it is legal, a command is its body, committed. -/
theorem runCommand_legal {i : Instr} {body : State → Eff State} {s : State}
    (hs : s.session ≠ .faulted) (hl : legal i s.session s.built = true) :
    runCommand i body s = commit (encode i) s (body s) := by
  simp [runCommand, hs, hl]

@[simp] theorem commit_ok (w : Word) (s t : State) : commit w s (.ok t) = .next t := rfl

@[simp] theorem commit_raise (w : Word) (s : State) (c : FaultCode) :
    commit w s (.error (.raise c)) = .next (faultEntry c w s) := rfl

@[simp] theorem commit_noMeaning (w : Word) (s : State) (f : Fault) :
    commit w s (.error (.noMeaning f)) = .fault f := rfl

/-! ### The output buffer and the sink -/

/-- What an operation of the sink may write: ACC, FILL, OBUF and OBUF_LEN (R150). -/
def SinkOnly (s t : State) : Prop :=
  t = { s with acc := t.acc, fill := t.fill, obuf := t.obuf, obufLen := t.obufLen }

theorem SinkOnly.refl (s : State) : SinkOnly s s := rfl

theorem SinkOnly.trans {s t u : State} (h : SinkOnly s t) (k : SinkOnly t u) : SinkOnly s u := by
  unfold SinkOnly at *
  rw [k, h]

/-- OBufAppend's answer (R151). -/
theorem obufAppend_ok {b : Byte} {s t : State} :
    obufAppend b s = .ok t ↔
      s.obufLen.toNat < s.cfg.obufCap ∧ s.obufLen.toNat + 1 < 2 ^ 64 ∧
        t = { s with obuf := Memory.write s.obuf s.obufLen.toNat b, obufLen := s.obufLen + 1 } := by
  unfold obufAppend
  split
  · constructor
    · rintro ⟨⟩
    · rintro ⟨h, -⟩; omega
  · split
    · by_cases hb : s.obufLen.toNat + 1 < 2 ^ 64
      · have hlen : BitVec.ofNat 64 (s.obufLen.toNat + 1) = s.obufLen + 1 := by
          simp [BitVec.ofNat_add]
        rw [fit_of_lt hb, hlen]
        simp_all [eq_comm]
      · have : fit 64 (s.obufLen.toNat + 1) = noMeaning .valueOutOfRange := if_neg hb
        simp_all
    · constructor
      · rintro ⟨⟩
      · rintro ⟨h, -⟩; exact absurd h ‹_›

/-- OBufAppend's only fault is OUTPUT_OVERFLOW, exactly when OBUF is full (R151). -/
theorem obufAppend_raise {b : Byte} {s : State} {c : FaultCode} :
    obufAppend b s = raiseFault c ↔ s.obufLen.toNat = s.cfg.obufCap ∧ c = .outputOverflow := by
  unfold obufAppend
  split
  · simp_all [eq_comm]
  · rename_i h
    simp only [h, false_and, iff_false]
    split
    · intro hc
      rcases Eff.bind_error.1 hc with hc | ⟨_, _, hc⟩
      · exact absurd (fit_error hc).2 (by simp)
      · cases hc
    · intro hc; cases hc

/-- OBufAppend has its meaning while OBUF_LEN <= OBUF_CAP < 2^64. -/
theorem obufAppend_total (b : Byte) {s : State} (h : s.obufLen.toNat ≤ s.cfg.obufCap)
    (hc : s.cfg.obufCap < 2 ^ 64) :
    (∃ t, obufAppend b s = .ok t) ∨ obufAppend b s = raiseFault .outputOverflow := by
  rcases Nat.lt_or_eq_of_le h with h | h
  · exact .inl ⟨_, obufAppend_ok.2 ⟨h, by omega, rfl⟩⟩
  · exact .inr (obufAppend_raise.2 ⟨h, rfl⟩)

/-- PutBit's answer (R152): a bit more in ACC, or the byte it completes in OBUF. -/
theorem putBit_ok {b : Bool} {s t : State} :
    putBit b s = .ok t ↔
      2 * s.acc.toNat + b.toNat < 2 ^ 8 ∧
      ((s.fill = 7 ∧ s.obufLen.toNat < s.cfg.obufCap ∧ s.obufLen.toNat + 1 < 2 ^ 64 ∧
        t = { s with
          obuf := Memory.write s.obuf s.obufLen.toNat (BitVec.ofNat 8 (2 * s.acc.toNat + b.toNat))
          obufLen := s.obufLen + 1, acc := 0, fill := 0 }) ∨
      (s.fill ≠ 7 ∧
        t = { s with acc := BitVec.ofNat 8 (2 * s.acc.toNat + b.toNat), fill := s.fill + 1 })) := by
  by_cases hb : 2 * s.acc.toNat + b.toNat < 2 ^ 8
  · unfold putBit
    rw [fit_of_lt hb]
    split
    · rename_i hf
      simp only [Eff.ok_bind, Eff.bind_ok, obufAppend_ok, Eff.pure_eq, hb, hf, true_and, ne_eq,
        not_true_eq_false, false_and, or_false]
      constructor
      · rintro ⟨u, ⟨h1, h2, rfl⟩, h3⟩
        cases h3
        exact ⟨h1, h2, rfl⟩
      · rintro ⟨h1, h2, rfl⟩
        exact ⟨_, ⟨h1, h2, rfl⟩, rfl⟩
    · rename_i hf
      constructor
      · rintro ⟨⟩
        exact ⟨hb, .inr ⟨hf, rfl⟩⟩
      · rintro ⟨-, ⟨h7, -⟩ | ⟨-, rfl⟩⟩
        · exact absurd h7 hf
        · rfl
  · have : fit 8 (2 * s.acc.toNat + b.toNat) = noMeaning .valueOutOfRange := if_neg hb
    constructor
    · intro h
      unfold putBit at h
      rw [this] at h
      split at h <;> cases h
    · exact fun h => absurd h.1 hb

/-- PutBit's only fault is OUTPUT_OVERFLOW, at an eighth bit with OBUF full (R152). -/
theorem putBit_raise {b : Bool} {s : State} {c : FaultCode} (h : putBit b s = raiseFault c) :
    c = .outputOverflow ∧ s.fill = 7 ∧ s.obufLen.toNat = s.cfg.obufCap := by
  unfold putBit at h
  split at h
  · rcases Eff.bind_error.1 h with h | ⟨_, _, h⟩
    · exact absurd (fit_error h).2 (by simp)
    · rcases Eff.bind_error.1 h with h | ⟨_, _, h⟩
      · obtain ⟨h1, h2⟩ := obufAppend_raise.1 h
        exact ⟨h2, ‹_›, h1⟩
      · cases h
  · rcases Eff.bind_error.1 h with h | ⟨_, _, h⟩
    · exact absurd (fit_error h).2 (by simp)
    · cases h

theorem putBit_sinkOnly {b : Bool} {s t : State} (h : putBit b s = .ok t) : SinkOnly s t := by
  obtain ⟨-, ⟨-, -, -, rfl⟩ | ⟨-, rfl⟩⟩ := putBit_ok.1 h <;> rfl

/-- PutFollowed's frame (R153). -/
theorem putFollowed_sinkOnly {b : Bool} {n : Nat} {s t : State} (h : putFollowed b n s = .ok t) :
    SinkOnly s t := by
  induction n generalizing s with
  | zero => cases h; rfl
  | succ n ih =>
    obtain ⟨u, hu, ht⟩ := Eff.bind_ok.1 h
    exact (putBit_sinkOnly hu).trans (ih ht)

/-- PutFollowed's only fault is OUTPUT_OVERFLOW. -/
theorem putFollowed_raise {b : Bool} {n : Nat} {s : State} {c : FaultCode}
    (h : putFollowed b n s = raiseFault c) : c = .outputOverflow := by
  induction n generalizing s with
  | zero => cases h
  | succ n ih =>
    rcases Eff.bind_error.1 h with h | ⟨u, -, h⟩
    · exact (putBit_raise h).1
    · exact ih h

/-- Flush's answer (R154). -/
theorem flush_ok {s t : State} :
    flush s = .ok t ↔
      (s.fill = 0 ∧ t = s) ∨
      (s.fill ≠ 0 ∧ s.acc.toNat * 2 ^ (8 - s.fill.toNat) < 2 ^ 8 ∧
        s.obufLen.toNat < s.cfg.obufCap ∧ s.obufLen.toNat + 1 < 2 ^ 64 ∧
        t = { s with
          obuf := Memory.write s.obuf s.obufLen.toNat (BitVec.ofNat 8 (s.acc.toNat * 2 ^ (8 - s.fill.toNat)))
          obufLen := s.obufLen + 1, acc := 0, fill := 0 }) := by
  unfold flush
  split
  · rename_i h
    simp [h, eq_comm]
  · rename_i h
    by_cases hb : s.acc.toNat * 2 ^ (8 - s.fill.toNat) < 2 ^ 8
    · rw [fit_of_lt hb]
      simp only [Eff.ok_bind, Eff.bind_ok, obufAppend_ok, Eff.pure_eq, h, false_and, false_or, ne_eq,
        not_false_eq_true, true_and, hb]
      constructor
      · rintro ⟨u, ⟨h1, h2, rfl⟩, h3⟩
        cases h3
        exact ⟨h1, h2, rfl⟩
      · rintro ⟨h1, h2, rfl⟩
        exact ⟨_, ⟨h1, h2, rfl⟩, rfl⟩
    · have : fit 8 (s.acc.toNat * 2 ^ (8 - s.fill.toNat)) = noMeaning .valueOutOfRange := if_neg hb
      rw [this]
      constructor
      · rintro ⟨⟩
      · rintro (⟨h0, -⟩ | ⟨-, h1, -⟩)
        · exact absurd h0 h
        · exact absurd h1 hb

theorem flush_sinkOnly {s t : State} (h : flush s = .ok t) : SinkOnly s t := by
  obtain ⟨-, rfl⟩ | ⟨-, -, -, -, rfl⟩ := flush_ok.1 h <;> rfl

/-- Flush's only fault is OUTPUT_OVERFLOW, with bits pending and OBUF full (R154, R158). -/
theorem flush_raise {s : State} {c : FaultCode} (h : flush s = raiseFault c) :
    c = .outputOverflow ∧ s.fill ≠ 0 ∧ s.obufLen.toNat = s.cfg.obufCap := by
  unfold flush at h
  split at h
  · cases h
  · rcases Eff.bind_error.1 h with h | ⟨_, _, h⟩
    · exact absurd (fit_error h).2 (by simp)
    · rcases Eff.bind_error.1 h with h | ⟨_, _, h⟩
      · obtain ⟨h1, h2⟩ := obufAppend_raise.1 h
        exact ⟨h2, ‹_›, h1⟩
      · cases h

/-! ### The source -/

/-- What an operation of the source may write: SRC_BYTE, SRC_REM, EOI and IPOS (R160). -/
def SourceOnly (s t : State) : Prop :=
  t = { s with srcByte := t.srcByte, srcRem := t.srcRem, eoi := t.eoi, ipos := t.ipos }

theorem SourceOnly.refl (s : State) : SourceOnly s s := rfl

theorem SourceOnly.trans {s t u : State} (h : SourceOnly s t) (k : SourceOnly t u) : SourceOnly s u := by
  unfold SourceOnly at *
  rw [k, h]

/-- The first bit of a byte just loaded is its bit 7 (R72, R160). -/
theorem takeBit_loaded {s : State} (h : s.srcRem = 8) :
    takeBit s = .ok ⟨s.srcByte.getLsbD 7, false, { s with srcRem := 7 }⟩ := by
  have h1 : s.srcRem.toNat = 8 := by rw [h]; decide
  have h2 : s.srcRem - 1 = 7 := by rw [h]; decide
  rw [takeBit, h1, h2]
  rfl

/-- GetBit's answer (R160): a bit of the current byte, the first bit of a new byte, or padding. -/
theorem getBit_ok {s : State} {g : Got} :
    getBit s = .ok g ↔
      (s.srcRem ≠ 0 ∧ s.srcRem.toNat ≤ 8 ∧
        g = ⟨s.srcByte.getLsbD (s.srcRem.toNat - 1), false, { s with srcRem := s.srcRem - 1 }⟩) ∨
      (s.srcRem = 0 ∧ s.ipos.toNat < s.ibufLen.toNat ∧ s.ipos.toNat < s.cfg.ibufCap ∧
        g = ⟨(ibufByte s s.ipos.toNat).getLsbD 7, false,
          { s with srcByte := ibufByte s s.ipos.toNat, ipos := s.ipos + 1, srcRem := 7 }⟩) ∨
      (s.srcRem = 0 ∧ s.ibufLen.toNat ≤ s.ipos.toNat ∧ g = ⟨false, true, { s with eoi := true }⟩) := by
  constructor
  · intro h
    unfold getBit at h
    split at h
    · rename_i h0
      split at h
      · unfold ibufRead at h
        split at h
        · rw [Eff.ok_bind, takeBit_loaded rfl] at h
          cases h
          exact .inr (.inl ⟨h0, ‹_›, ‹_›, rfl⟩)
        · cases h
      · cases h
        exact .inr (.inr ⟨h0, by omega, rfl⟩)
    · unfold takeBit at h
      split at h
      · cases h
        exact .inl ⟨‹_›, ‹_›, rfl⟩
      · cases h
  · rintro (⟨h0, h1, rfl⟩ | ⟨h0, h1, h2, rfl⟩ | ⟨h0, h1, rfl⟩)
    · simp only [getBit, takeBit, if_neg h0, if_pos h1]
    · simp only [getBit, ibufRead, if_pos h0, if_pos h1, if_pos h2]
      rw [Eff.ok_bind, takeBit_loaded rfl]
    · simp only [getBit, if_pos h0, if_neg (Nat.not_lt.2 h1)]

theorem getBit_sourceOnly {s : State} {g : Got} (h : getBit s = .ok g) : SourceOnly s g.after := by
  obtain ⟨-, -, rfl⟩ | ⟨-, -, -, rfl⟩ | ⟨-, -, rfl⟩ := getBit_ok.1 h <;> rfl

/-- GetBit raises no fault of the core (R160). -/
theorem getBit_ne_raise {s : State} {c : FaultCode} : getBit s ≠ raiseFault c := by
  unfold getBit takeBit ibufRead
  split
  · split
    · split
      · simp only [Eff.ok_bind]
        split <;> intro h <;> cases h
      · intro h; cases h
    · intro h; cases h
  · split <;> intro h <;> cases h

/-- GetBit has its meaning while SRC_REM is 0..8 and IBUF_LEN <= IBUF_CAP. -/
theorem getBit_total {s : State} (h : s.srcRem.toNat ≤ 8) (hl : s.ibufLen.toNat ≤ s.cfg.ibufCap) :
    ∃ g, getBit s = .ok g := by
  by_cases h0 : s.srcRem = 0
  · by_cases h1 : s.ipos.toNat < s.ibufLen.toNat
    · exact ⟨_, getBit_ok.2 (.inr (.inl ⟨h0, h1, by omega, rfl⟩))⟩
    · exact ⟨_, getBit_ok.2 (.inr (.inr ⟨h0, by omega, rfl⟩))⟩
  · exact ⟨_, getBit_ok.2 (.inl ⟨h0, h, rfl⟩)⟩

/-- What the decoder's reading of bits may write: the source's registers and VALUE (R221, R223). -/
def ValueOnly (s t : State) : Prop :=
  t = { s with srcByte := t.srcByte, srcRem := t.srcRem, eoi := t.eoi, ipos := t.ipos, value := t.value }

theorem ValueOnly.trans {s t u : State} (h : ValueOnly s t) (k : ValueOnly t u) : ValueOnly s u := by
  unfold ValueOnly at *
  rw [k, h]

theorem pullBit_ok {s t : State} :
    pullBit s = .ok t ↔ ∃ g, getBit s = .ok g ∧ t = shiftInBit g.bit g.after := by
  unfold pullBit
  rw [Eff.bind_ok]
  constructor
  · rintro ⟨g, hg, ⟨⟩⟩
    exact ⟨g, hg, rfl⟩
  · rintro ⟨g, hg, rfl⟩
    exact ⟨g, hg, rfl⟩

theorem pullBit_valueOnly {s t : State} (h : pullBit s = .ok t) : ValueOnly s t := by
  obtain ⟨g, hg, rfl⟩ := pullBit_ok.1 h
  have hs := getBit_sourceOnly hg
  unfold SourceOnly at hs
  unfold ValueOnly shiftInBit
  rw [hs]

theorem pullBits_valueOnly {n : Nat} {s t : State} (h : pullBits n s = .ok t) : ValueOnly s t := by
  induction n generalizing s with
  | zero => cases h; rfl
  | succ n ih =>
    obtain ⟨u, hu, ht⟩ := Eff.bind_ok.1 h
    exact (pullBit_valueOnly hu).trans (ih ht)

theorem pullBit_ne_raise {s : State} {c : FaultCode} : pullBit s ≠ raiseFault c := by
  intro h
  unfold pullBit at h
  rcases Eff.bind_error.1 h with h | ⟨_, _, h⟩
  · exact getBit_ne_raise h
  · cases h

theorem pullBits_ne_raise {n : Nat} {s : State} {c : FaultCode} : pullBits n s ≠ raiseFault c := by
  induction n generalizing s with
  | zero => intro h; cases h
  | succ n ih =>
    intro h
    rcases Eff.bind_error.1 h with h | ⟨_, _, h⟩
    · exact pullBit_ne_raise h
    · exact ih h

/-! ### The interval -/

/-- Narrow's answer (R182): the two ends of steps 2 and 3, where they are in order and fit. -/
theorem narrow_ok {sym : Byte} {s t : State} (h : narrow sym s = .ok t) :
    s.total ≠ 0 ∧ narrowedLow sym s ≤ narrowedHigh sym s ∧
      (t.low.toNat : Int) = narrowedLow sym s ∧ (t.high.toNat : Int) = narrowedHigh sym s ∧
      t = { s with low := t.low, high := t.high } := by
  unfold narrow at h
  split at h
  · cases h
  · split at h
    · cases h
    · obtain ⟨lo, hlo, h⟩ := Eff.bind_ok.1 h
      obtain ⟨hi, hhi, h⟩ := Eff.bind_ok.1 h
      cases h
      exact ⟨‹_›, by omega, (fitInt_ok.1 hlo).2, (fitInt_ok.1 hhi).2, rfl⟩

/-- Narrow's only fault is EMPTY_INTERVAL, where newHigh < newLow (R182). -/
theorem narrow_raise {sym : Byte} {s : State} {c : FaultCode} (h : narrow sym s = raiseFault c) :
    c = .emptyInterval ∧ narrowedHigh sym s < narrowedLow sym s := by
  unfold narrow at h
  split at h
  · cases h
  · split at h
    · cases h; exact ⟨rfl, ‹_›⟩
    · rcases Eff.bind_error.1 h with h | ⟨_, _, h⟩
      · exact absurd (fitInt_error h) (by simp)
      · rcases Eff.bind_error.1 h with h | ⟨_, _, h⟩
        · exact absurd (fitInt_error h) (by simp)
        · cases h

/-- Classify stops exactly on the renormalized interval (R183, R42). -/
theorem classify_stop {lo hi : BitVec 16} :
    classify lo hi = .stop ↔ lo < half ∧ half ≤ hi ∧ ¬ (quarter ≤ lo ∧ hi < threeq) := by
  unfold classify
  split
  · rename_i h
    simp only [reduceCtorEq, false_iff]
    intro ⟨_, h2, _⟩
    exact absurd h (by simpa using h2)
  · split
    · rename_i h
      simp only [reduceCtorEq, false_iff]
      intro ⟨h1, _⟩
      exact absurd h1 (by simpa using h)
    · rename_i h1 h2
      split
      · simp [*]
      · rename_i h3
        exact ⟨fun _ => ⟨by simpa using h2, by simpa using h1, h3⟩, fun _ => rfl⟩

/-- What the encoder's loop may write (R186). -/
def EncOnly (s t : State) : Prop :=
  t = { s with
    low := t.low, high := t.high, follow := t.follow
    acc := t.acc, fill := t.fill, obuf := t.obuf, obufLen := t.obufLen }

theorem EncOnly.trans {s t u : State} (h : EncOnly s t) (k : EncOnly t u) : EncOnly s u := by
  unfold EncOnly at *
  rw [k, h]

/-- BitPlusFollow's frame (R185): the sink, and FOLLOW is 0 after it. -/
theorem bitPlusFollow_ok {b : Bool} {s t : State} (h : bitPlusFollow b s = .ok t) :
    ∃ u, putBit b s = .ok u ∧ ∃ v, putFollowed (!b) s.follow.toNat u = .ok v ∧
      t = { v with follow := 0 } := by
  obtain ⟨u, hu, h⟩ := Eff.bind_ok.1 h
  obtain ⟨v, hv, h⟩ := Eff.bind_ok.1 h
  cases h
  have hf : u.follow = s.follow := by
    have := putBit_sinkOnly hu
    unfold SinkOnly at this
    rw [this]
  exact ⟨u, hu, v, hf ▸ hv, rfl⟩

theorem bitPlusFollow_frame {b : Bool} {s t : State} (h : bitPlusFollow b s = .ok t) :
    t = { s with acc := t.acc, fill := t.fill, obuf := t.obuf, obufLen := t.obufLen, follow := 0 } := by
  obtain ⟨u, hu, v, hv, rfl⟩ := bitPlusFollow_ok h
  have := (putBit_sinkOnly hu).trans (putFollowed_sinkOnly hv)
  unfold SinkOnly at this
  rw [this]

theorem bitPlusFollow_raise {b : Bool} {s : State} {c : FaultCode} (h : bitPlusFollow b s = raiseFault c) :
    c = .outputOverflow := by
  unfold bitPlusFollow at h
  rcases Eff.bind_error.1 h with h | ⟨_, _, h⟩
  · exact (putBit_raise h).1
  · rcases Eff.bind_error.1 h with h | ⟨_, _, h⟩
    · exact putFollowed_raise h
    · cases h

/-- EncRenorm ends in STOP and writes only the interval, FOLLOW and the sink (R186). -/
theorem encRenorm_ok {n : Nat} {s t : State} (h : encRenorm n s = .ok t) :
    classify t.low t.high = .stop ∧ EncOnly s t := by
  induction n generalizing s with
  | zero => cases h
  | succ n ih =>
    unfold encRenorm at h
    split at h
    · obtain ⟨u, hu, h⟩ := Eff.bind_ok.1 h
      refine ⟨(ih h).1, EncOnly.trans ?_ (ih h).2⟩
      unfold EncOnly shift
      rw [bitPlusFollow_frame hu]
    · obtain ⟨u, hu, h⟩ := Eff.bind_ok.1 h
      refine ⟨(ih h).1, EncOnly.trans ?_ (ih h).2⟩
      unfold EncOnly shift moveInterval
      rw [bitPlusFollow_frame hu]
    · obtain ⟨f, hf, h⟩ := Eff.bind_ok.1 h
      refine ⟨(ih h).1, EncOnly.trans ?_ (ih h).2⟩
      unfold EncOnly shift moveInterval
      rfl
    · cases h
      exact ⟨‹_›, rfl⟩

theorem encRenorm_raise {n : Nat} {s : State} {c : FaultCode} (h : encRenorm n s = raiseFault c) :
    c = .outputOverflow := by
  induction n generalizing s with
  | zero => cases h
  | succ n ih =>
    unfold encRenorm at h
    split at h
    · rcases Eff.bind_error.1 h with h | ⟨_, _, h⟩
      · exact bitPlusFollow_raise h
      · exact ih h
    · rcases Eff.bind_error.1 h with h | ⟨_, _, h⟩
      · exact bitPlusFollow_raise h
      · exact ih h
    · rcases Eff.bind_error.1 h with h | ⟨_, _, h⟩
      · exact absurd (fit_error h).2 (by simp)
      · exact ih h
    · cases h

/-- What the decoder's loop may write (R223). -/
def DecOnly (s t : State) : Prop :=
  t = { s with
    low := t.low, high := t.high, value := t.value
    srcByte := t.srcByte, srcRem := t.srcRem, eoi := t.eoi, ipos := t.ipos }

theorem DecOnly.trans {s t u : State} (h : DecOnly s t) (k : DecOnly t u) : DecOnly s u := by
  unfold DecOnly at *
  rw [k, h]

theorem ValueOnly.decOnly {s t u : State} (h : DecOnly s t) (k : ValueOnly t u) : DecOnly s u := by
  unfold DecOnly ValueOnly at *
  rw [k, h]

/-- DecRenorm ends in STOP and writes only the interval, VALUE and the source (R223). -/
theorem decRenorm_ok {n : Nat} {s t : State} (h : decRenorm n s = .ok t) :
    classify t.low t.high = .stop ∧ DecOnly s t := by
  induction n generalizing s with
  | zero => cases h
  | succ n ih =>
    unfold decRenorm at h
    split at h
    · obtain ⟨u, hu, h⟩ := Eff.bind_ok.1 h
      exact ⟨(ih h).1, (ValueOnly.decOnly (s := s) (t := (shift s)) rfl (pullBit_valueOnly hu)).trans (ih h).2⟩
    · obtain ⟨u, hu, h⟩ := Eff.bind_ok.1 h
      exact ⟨(ih h).1, (ValueOnly.decOnly (s := s) (t := (shift (moveAll half s))) rfl
          (pullBit_valueOnly hu)).trans (ih h).2⟩
    · obtain ⟨u, hu, h⟩ := Eff.bind_ok.1 h
      exact ⟨(ih h).1, (ValueOnly.decOnly (s := s) (t := (shift (moveAll quarter s))) rfl
          (pullBit_valueOnly hu)).trans (ih h).2⟩
    · cases h
      exact ⟨‹_›, rfl⟩

theorem decRenorm_ne_raise {n : Nat} {s : State} {c : FaultCode} : decRenorm n s ≠ raiseFault c := by
  induction n generalizing s with
  | zero => intro h; cases h
  | succ n ih =>
    intro h
    unfold decRenorm at h
    split at h
    all_goals first
      | (cases h)
      | (rcases Eff.bind_error.1 h with h | ⟨_, _, h⟩
         · exact pullBit_ne_raise h
         · exact ih h)

end Sys2Proof.Machine
end

