-- ==== Sys2Proof/Laws/Command.lean ====
section
/-! SUPPORT. What a command and a step can do, said once: every command but RESET runs its body in one shape, and a step
serves one access in one of six ways. -/

namespace Sys2Proof

/-- What a word that decodes says of its fields (30_encoding R93, R95-R97). -/
theorem decode_ok {w : Word} {i : Instr} (h : decode w = .ok i) :
    ∃ r ∈ opTable, r.opc = opcField w ∧ (r.usesB = false → bField w = 0) ∧
      (r.usesImm = false → immField w = 0) ∧ i = r.make (bField w) (immField w) := by
  unfold decode decodeFields at h
  split at h
  · cases h
  · rename_i r hr
    split at h
    · cases h
    · rename_i hc
      cases h
      simp only [Bool.or_eq_true, Bool.and_eq_true, Bool.not_eq_true', bne_iff_ne, not_or, not_and,
        not_not] at hc
      exact ⟨r, List.mem_of_find?_eq_some hr, by simpa using List.find?_some hr, hc.1, hc.2, rfl⟩

end Sys2Proof

namespace Sys2Proof.Machine

/-- The body of a command other than RESET, as its meaning runs it. -/
def bodyOf : Instr → State → Eff State
  | .nop => fun s => .ok s
  | .reset => fun s => .ok (performReset s)
  | .modelClear => modelClearBody
  | .modelCount sym => modelCountBody sym
  | .modelSetCount sym n => modelSetCountBody sym n
  | .modelBuild => modelBuildBody
  | .modelReadCount sym => modelReadCountBody sym
  | .modelReadCum i => modelReadCumBody i
  | .modelFind v => modelFindBody v
  | .bitReset => bitResetBody
  | .bitPut b => bitPutBody b
  | .bitPutn b n => bitPutnBody b n
  | .bitFlush => flush
  | .bitGet => bitGetBody
  | .encStart => encStartBody
  | .encSymbol sym => encSymbolBody sym
  | .encFinish => encFinishBody
  | .decStart n => decStartBody n
  | .decSymbol => decSymbolBody

/-- Every command but RESET runs in the one shape of R97. -/
theorem exec_eq_runCommand {i : Instr} (h : i ≠ .reset) (s : State) :
    exec i s = runCommand i (bodyOf i) s := by
  cases i with
  | reset => exact absurd rfl h
  | _ => rfl

theorem exec_reset (s : State) : exec .reset s = .next (performReset s) := rfl

/-- What a command can do: be ignored in FAULTED, raise BAD_STATE, complete, fault, or (RESET) reset. -/
theorem exec_next {i : Instr} {s t : State} (h : exec i s = .next t) :
    (i = .reset ∧ t = performReset s) ∨
    (i ≠ .reset ∧ s.session = .faulted ∧ t = s) ∨
    (i ≠ .reset ∧ s.session ≠ .faulted ∧ legal i s.session s.built = false ∧
      t = faultEntry .badState (encode i) s) ∨
    (i ≠ .reset ∧ s.session ≠ .faulted ∧ legal i s.session s.built = true ∧ bodyOf i s = .ok t) ∨
    (i ≠ .reset ∧ s.session ≠ .faulted ∧ legal i s.session s.built = true ∧
      ∃ c, bodyOf i s = raiseFault c ∧ t = faultEntry c (encode i) s) := by
  by_cases hi : i = .reset
  · subst hi
    cases h
    exact .inl ⟨rfl, rfl⟩
  · rw [exec_eq_runCommand hi] at h
    rcases runCommand_next h with ⟨h1, rfl⟩ | ⟨h1, h2, rfl⟩ | ⟨h1, h2, h3⟩ | ⟨h1, h2, c, h3, rfl⟩
    · exact .inr (.inl ⟨hi, h1, rfl⟩)
    · exact .inr (.inr (.inl ⟨hi, h1, h2, rfl⟩))
    · exact .inr (.inr (.inr (.inl ⟨hi, h1, h2, h3⟩)))
    · exact .inr (.inr (.inr (.inr ⟨hi, h1, h2, c, h3, rfl⟩)))

/-- In a session where a command is legal, it is its body, committed. -/
theorem exec_legal {i : Instr} {s : State} (hi : i ≠ .reset) (hs : s.session ≠ .faulted)
    (hl : legal i s.session s.built = true) : exec i s = commit (encode i) s (bodyOf i s) := by
  rw [exec_eq_runCommand hi, runCommand_legal hs hl]

/-- Where a command is not legal it raises BAD_STATE. -/
theorem exec_illegal {i : Instr} {s : State} (hi : i ≠ .reset) (hs : s.session ≠ .faulted)
    (hl : legal i s.session s.built = false) : exec i s = .next (faultEntry .badState (encode i) s) := by
  rw [exec_eq_runCommand hi]
  simp [runCommand, hs, hl]

/-- In FAULTED a command other than RESET is ignored. -/
theorem exec_ignored {i : Instr} {s : State} (hi : i ≠ .reset) (hs : s.session = .faulted) :
    exec i s = .next s := by
  rw [exec_eq_runCommand hi]
  simp [runCommand, hs]

/-- What a step can do, by the access it serves. `u` is the state whose oldest access has been taken. -/
theorem step_next {s t : State} (h : step s = .next t) :
    (s.pending = [] ∧ t = s) ∨
    ∃ a rest u, s.pending = a :: rest ∧ u = { s with pending := rest } ∧
      ((a = .resetInput ∧ t = performReset u) ∨
       (∃ addr width, a = .read addr width ∧ t = { u with readData := busRead addr width u }) ∨
       (∃ addr width data, a = .write addr width data ∧ isCommand addr width = false ∧
          t = busWrite addr width data u) ∨
       (∃ addr width w i, a = .write addr width w ∧ isCommand addr width = true ∧ decode w = .ok i ∧
          exec i u = .next t) ∨
       (∃ addr width w e, a = .write addr width w ∧ isCommand addr width = true ∧ decode w = .error e ∧
          ((u.session = .faulted ∧ t = u) ∨
           (u.session ≠ .faulted ∧ t = faultEntry (rejection e) w u)))) := by
  unfold step serveNext at h
  split at h
  · cases h; exact .inl ⟨‹_›, rfl⟩
  · rename_i a rest hp
    refine .inr ⟨a, rest, _, hp, rfl, ?_⟩
    unfold serve at h
    split at h
    · cases h; exact .inl ⟨rfl, rfl⟩
    · cases h; exact .inr (.inl ⟨_, _, rfl, rfl⟩)
    · rename_i addr width data
      split at h
      · rename_i hc
        unfold issueWord at h
        split at h
        · exact .inr (.inr (.inr (.inl ⟨_, _, _, _, rfl, hc, ‹_›, h⟩)))
        · refine .inr (.inr (.inr (.inr ⟨_, _, _, _, rfl, hc, ‹_›, ?_⟩)))
          split at h
          · cases h; exact .inl ⟨‹_›, rfl⟩
          · cases h; exact .inr ⟨‹_›, rfl⟩
      · cases h
        exact .inr (.inr (.inl ⟨_, _, _, rfl, by simpa using ‹¬ isCommand addr width = true›, rfl⟩))

/-- A write of the host that is no command changes IBUF or IBUF_LEN at most, and only in IDLE (R69, R71). -/
theorem busWrite_cases (a : Addr) (w : Nat) (data : Word) (s : State) :
    busWrite a w data s = s ∨
    (s.session = .idle ∧ data.toNat ≤ s.cfg.ibufCap ∧ busWrite a w data s = { s with ibufLen := data }) ∨
    (s.session = .idle ∧ ∃ i, i < s.cfg.ibufCap ∧
      busWrite a w data s = { s with ibuf := Memory.write s.ibuf i (data.setWidth 8) }) := by
  unfold busWrite
  split
  · split
    · unfold writeIbufLen
      split
      · rename_i h; exact .inr (.inl ⟨h.1, h.2, rfl⟩)
      · exact .inl rfl
    · exact .inl rfl
  · rename_i i hr
    have hi : i < s.cfg.ibufCap := by
      unfold region at hr
      split at hr
      · cases hr
      · split at hr
        · injection hr with hr
          omega
        · split at hr <;> exact absurd hr (by simp)
    split
    · unfold writeIbuf
      split
      · exact .inr (.inr ⟨‹_›, i, hi, rfl⟩)
      · exact .inl rfl
    · exact .inl rfl
  · exact .inl rfl
  · exact .inl rfl

end Sys2Proof.Machine
end

