-- ==== Sys2Proof/Laws/Model.lean ====
section
/-! SUPPORT. The frequency model's laws: the cumulative table's entries (40_frequency_model R124, R130) and what the
search finds (R126). -/

namespace Sys2Proof.Machine

/-- The sum of counts. -/
def countSum (cs : List (BitVec 32)) : Nat := (cs.map BitVec.toNat).sum

theorem countSum_le (cs : List (BitVec 32)) : countSum cs ≤ cs.length * (2 ^ 32 - 1) := by
  induction cs with
  | nil => simp [countSum]
  | cons c cs ih =>
    simp only [countSum, List.map_cons, List.sum_cons, List.length_cons] at *
    have := c.isLt
    omega

/-- An entry of the running sums (R124). -/
theorem runningSums_getElem (acc : Nat) (cs : List (BitVec 32)) (k : Nat) (h : k < (runningSums acc cs).length) :
    (runningSums acc cs)[k] = BitVec.ofNat 64 (acc + countSum (cs.take k)) := by
  induction cs generalizing acc k with
  | nil =>
    obtain rfl : k = 0 := by simpa using h
    simp [runningSums, countSum]
  | cons c cs ih =>
    cases k with
    | zero => simp [runningSums, countSum]
    | succ k =>
      simp only [runningSums, List.getElem_cons_succ, List.take_succ_cons]
      rw [ih]
      simp [countSum, Nat.add_assoc]

/-- CUM[k] is the sum of the counts below k, unwrapped (R124). -/
theorem cumTable_toNat (count : Vector (BitVec 32) 256) (k : Nat) (h : k < 257) :
    (cumTable count)[k].toNat = countSum (count.toList.take k) := by
  have hl : (runningSums 0 count.toList).length = 257 := by simp
  have hk : (cumTable count)[k] = (runningSums 0 count.toList)[k]'(by omega) := rfl
  rw [hk, runningSums_getElem, BitVec.toNat_ofNat, Nat.zero_add]
  apply Nat.mod_eq_of_lt
  have h1 := countSum_le (count.toList.take k)
  have h2 : (count.toList.take k).length ≤ 256 := by simp
  calc countSum (count.toList.take k) ≤ 256 * (2 ^ 32 - 1) := h1.trans (Nat.mul_le_mul_right _ h2)
    _ < 2 ^ 64 := by norm_num

/-- A table in which each entry is the one before it plus its count (R124). -/
structure TableOk (cum : Vector Word 257) (count : Vector (BitVec 32) 256) : Prop where
  zero : cum[0].toNat = 0
  succ : ∀ k (h : k < 256), cum[k + 1].toNat = cum[k].toNat + count[k].toNat
  bound : cum[256].toNat ≤ 256 * (2 ^ 32 - 1)

theorem cumTable_ok (count : Vector (BitVec 32) 256) : TableOk (cumTable count) count where
  zero := by rw [cumTable_toNat]; simp [countSum]
  succ := by
    intro k h
    have hk : k < count.toList.length := by simpa using h
    rw [cumTable_toNat, cumTable_toNat, List.take_succ_eq_append_getElem hk]
    simp [countSum]
  bound := by
    rw [cumTable_toNat]
    refine (countSum_le _).trans (Nat.mul_le_mul_right _ ?_)
    simp

theorem Inv.tableOk {s : State} (h : Inv s) (hb : s.built = true) : TableOk s.cum s.count := by
  rw [h.builtTable hb]
  exact cumTable_ok _

namespace TableOk

variable {cum : Vector Word 257} {count : Vector (BitVec 32) 256}

/-- Monotonicity (R130). -/
theorem mono (h : TableOk cum count) {i j : Nat} (hij : i ≤ j) (hj : j < 257) :
    cum[i].toNat ≤ cum[j].toNat := by
  induction j with
  | zero =>
    obtain rfl : i = 0 := by omega
    exact le_rfl
  | succ j ih =>
    rcases Nat.lt_or_ge i (j + 1) with hi | hi
    · have := ih (by omega) (by omega)
      rw [h.succ j (by omega)]
      omega
    · obtain rfl : i = j + 1 := by omega
      exact le_rfl

/-- Two spans that hold the same value are the same span (R126). -/
theorem unique (h : TableOk cum count) {i j : Nat} (hi : i < 256) (hj : j < 256) {v : Nat}
    (h1 : cum[i].toNat ≤ v) (h2 : v < cum[i + 1].toNat) (h3 : cum[j].toNat ≤ v) (h4 : v < cum[j + 1].toNat) :
    i = j := by
  rcases Nat.lt_trichotomy i j with hij | hij | hij
  · have := h.mono (show i + 1 ≤ j by omega) (by omega); omega
  · exact hij
  · have := h.mono (show j + 1 ≤ i by omega) (by omega); omega

end TableOk

/-- What the search finds: an index whose span holds the value. -/
theorem findFrom_some {i j v : Nat} {l : List Word} (h : findFrom i l v = some j) :
    i ≤ j ∧ ∃ hj : j - i + 1 < l.length, l[j - i].toNat ≤ v ∧ v < l[j - i + 1].toNat := by
  induction l generalizing i with
  | nil => cases h
  | cons lo l ih =>
    cases l with
    | nil => cases h
    | cons hi rest =>
      unfold findFrom at h
      split at h
      · cases h
        refine ⟨le_rfl, by simp, ?_⟩
        simpa using ‹lo.toNat ≤ v ∧ v < hi.toNat›
      · obtain ⟨h1, h2, h3⟩ := ih h
        have hji : j - i = (j - (i + 1)) + 1 := by omega
        refine ⟨by omega, by simp only [List.length_cons] at h2 ⊢; omega, ?_⟩
        simp only [hji, List.getElem_cons_succ]
        exact h3

/-- The search finds something where the first entry is at most the value and the last is over it. -/
theorem findFrom_isSome {i v : Nat} {l : List Word} (hl : l ≠ []) (h1 : (l.head hl).toNat ≤ v)
    (h2 : v < (l.getLast hl).toNat) : ∃ j, findFrom i l v = some j := by
  induction l generalizing i with
  | nil => exact absurd rfl hl
  | cons lo l ih =>
    cases l with
    | nil =>
      simp only [List.head_cons, List.getLast_singleton] at h1 h2
      omega
    | cons hi rest =>
      unfold findFrom
      split
      · exact ⟨_, rfl⟩
      · rename_i hc
        apply ih (List.cons_ne_nil _ _)
        · simp only [List.head_cons] at h1 ⊢
          omega
        · simpa using h2

/-- FindSymbol's answer (R126): a symbol whose span holds the value. -/
theorem findSymbol_ok {v : Nat} {s : State} {sym : Byte} (h : findSymbol v s = .ok sym) :
    cumLow sym s ≤ v ∧ v < cumHigh sym s := by
  unfold findSymbol at h
  split at h
  · rename_i j hj
    cases h
    obtain ⟨-, h2, h3⟩ := findFrom_some hj
    have hl : s.cum.toList.length = 257 := by simp
    have hj256 : j < 256 := by omega
    have hn : (BitVec.ofNat 8 j).toNat = j := by
      rw [BitVec.toNat_ofNat]; exact Nat.mod_eq_of_lt hj256
    simp only [Nat.sub_zero, Vector.getElem_toList] at h3
    unfold cumLow cumHigh
    simp only [hn]
    exact h3
  · cases h

/-- FindSymbol has its meaning for every value below TOTAL, where CUM[0] = 0. -/
theorem findSymbol_total {v : Nat} {s : State} (h0 : s.cum[0].toNat = 0) (h : v < s.total.toNat) :
    ∃ sym, findSymbol v s = .ok sym := by
  have hl : s.cum.toList ≠ [] := by
    intro hc
    have : s.cum.toList.length = 257 := by simp
    rw [hc] at this
    cases this
  obtain ⟨j, hj⟩ := findFrom_isSome (i := 0) (v := v) hl
    (by rw [List.head_eq_getElem]; simp only [Vector.getElem_toList]; omega)
    (by rw [List.getLast_eq_getElem]; simpa using h)
  exact ⟨_, by unfold findSymbol; rw [hj]⟩

end Sys2Proof.Machine
end

