-- ==== Sys2Proof/Laws/Sink.lean ====
section
/-! SUPPORT. The bit sink's laws: what each operation adds to the bits the sink has taken, that it keeps the sink sound,
and when it has its meaning (41_bit_sink_source R151-R155). -/

namespace Sys2Proof.Machine

/-! ### Bits of a byte -/

/-- Appending a bit below a value's low bits. -/
theorem lowBits_append {a v : Byte} {b : Bool} (n : Nat) (h : v.toNat = 2 * a.toNat + b.toNat) :
    lowBits v (n + 1) = lowBits a n ++ [b] := by
  have hv : ∀ j, v.getLsbD (j + 1) = a.getLsbD j := by
    intro j
    simp only [← BitVec.testBit_toNat]
    rw [h, Nat.testBit_succ]
    congr 1
    have := b.toNat_lt
    omega
  have h0 : v.getLsbD 0 = b := by
    simp only [← BitVec.testBit_toNat]
    rw [h, Nat.testBit_zero]
    cases b <;> simp
  unfold lowBits
  rw [List.range_succ, List.map_append]
  congr 1
  · apply List.map_congr_left
    intro i hi
    have : n + 1 - 1 - i = (n - 1 - i) + 1 := by
      have := List.mem_range.1 hi; omega
    rw [this, hv]
  · simpa using h0

/-- The bits of a byte whose low bits have been moved up by `8 - n`. -/
theorem lowBits_padded {a v : Byte} {n : Nat} (hn : n ≤ 8) (h : v.toNat = a.toNat * 2 ^ (8 - n)) :
    lowBits v 8 = lowBits a n ++ List.replicate (8 - n) false := by
  have hv : ∀ j, v.getLsbD j = (decide (8 - n ≤ j) && a.getLsbD (j - (8 - n))) := by
    intro j
    simp only [← BitVec.testBit_toNat]
    rw [h, Nat.testBit_mul_two_pow]
  unfold lowBits
  apply List.ext_getElem
  · simp; omega
  · intro i h1 h2
    simp only [List.length_map, List.length_range] at h1
    rw [List.getElem_map, List.getElem_range, hv]
    by_cases hi : i < n
    · rw [List.getElem_append_left (by simpa using hi), List.getElem_map, List.getElem_range,
        decide_eq_true (by omega), Bool.true_and]
      congr 1
      omega
    · rw [List.getElem_append_right (by simpa using Nat.not_lt.1 hi), List.getElem_replicate,
        decide_eq_false (by omega), Bool.false_and]

@[simp] theorem lowBits_length (b : Byte) (n : Nat) : (lowBits b n).length = n := by simp [lowBits]

@[simp] theorem lowBits_zero (b : Byte) : lowBits b 0 = [] := rfl

/-! ### The sink is sound -/

/-- The part of the invariant the sink's operations keep. -/
structure SinkOk (s : State) : Prop where
  cfgOk : s.cfg.wf
  obufForm : Memory.wf s.obuf
  obufIn : ∀ c ∈ s.obuf, c.1 < s.cfg.obufCap
  obufLenOk : s.obufLen.toNat ≤ s.cfg.obufCap
  obufWritten : ∀ i, i < s.obufLen.toNat → (Memory.lookup s.obuf i).isSome
  sinkOk : s.acc.toNat < 2 ^ s.fill.toNat

theorem Inv.toSinkOk {s : State} (h : Inv s) : SinkOk s :=
  ⟨h.cfgOk, h.obufForm, h.obufIn, h.obufLenOk, h.obufWritten, h.sinkOk⟩

theorem SinkOk.cap_lt {s : State} (h : SinkOk s) : s.cfg.obufCap < 2 ^ 64 := by
  have := h.cfgOk.2.2; omega

/-- OBUF with one byte more. -/
theorem obufLen_succ {s : State} (h : s.obufLen.toNat + 1 < 2 ^ 64) :
    (s.obufLen + 1).toNat = s.obufLen.toNat + 1 := by
  rw [BitVec.toNat_add]
  exact Nat.mod_eq_of_lt h

/-- The state after OBufAppend (R151): one byte more, the ones before it as they were. -/
theorem obufByte_append {s t : State} {b : Byte}
    (h : t.obuf = Memory.write s.obuf s.obufLen.toNat b) (hd : t.draw = s.draw) (k : Nat) :
    obufByte t k = if k = s.obufLen.toNat then b else obufByte s k := by
  unfold obufByte
  rw [h, hd]
  split
  · subst k; rw [Memory.lookup_write_self]; rfl
  · rw [Memory.lookup_write_of_ne _ _ ‹_›]

/-- OBufAppend's soundness, with a sink as it stands after the byte. -/
theorem SinkOk.append {s t : State} {b : Byte} (h : SinkOk s) (hl : s.obufLen.toNat < s.cfg.obufCap)
    (hc : t.cfg = s.cfg) (ho : t.obuf = Memory.write s.obuf s.obufLen.toNat b)
    (hn : t.obufLen = s.obufLen + 1) (ha : t.acc.toNat < 2 ^ t.fill.toNat) : SinkOk t where
  cfgOk := hc ▸ h.cfgOk
  obufForm := ho ▸ Memory.wf_write _ _ h.obufForm
  obufIn := by
    intro c hcm
    rw [ho] at hcm
    rw [hc]
    rcases Memory.mem_write hcm with rfl | hcm
    · exact hl
    · exact h.obufIn c hcm
  obufLenOk := by
    have := h.cap_lt
    rw [hn, hc, obufLen_succ (by omega)]
    omega
  obufWritten := by
    intro i hi
    have := h.cap_lt
    rw [hn, obufLen_succ (by omega)] at hi
    rw [ho]
    by_cases hk : i = s.obufLen.toNat
    · subst hk; rw [Memory.lookup_write_self]; rfl
    · rw [Memory.lookup_write_of_ne _ _ hk]; exact h.obufWritten i (by omega)
  sinkOk := ha

/-- The bits of OBUF after one byte more. -/
theorem flatMap_append {s t : State} {b : Byte} (hl : s.obufLen.toNat + 1 < 2 ^ 64)
    (ho : t.obuf = Memory.write s.obuf s.obufLen.toNat b) (hd : t.draw = s.draw)
    (hn : t.obufLen = s.obufLen + 1) :
    (List.range t.obufLen.toNat).flatMap (fun i => lowBits (obufByte t i) 8) =
      (List.range s.obufLen.toNat).flatMap (fun i => lowBits (obufByte s i) 8) ++ lowBits b 8 := by
  rw [hn, obufLen_succ hl, List.range_succ, List.flatMap_append]
  congr 1
  · apply List.flatMap_congr
    intro i hi
    rw [obufByte_append ho hd, if_neg (by have := List.mem_range.1 hi; omega)]
  · simp [obufByte_append ho hd]

/-! ### PutBit -/

/-- What a sound PutBit does (R152): the sink stays sound and has taken one bit more. -/
theorem putBit_spec {b : Bool} {s t : State} (h : SinkOk s) (hp : putBit b s = .ok t) :
    SinkOk t ∧ outputBits t = outputBits s ++ [b] ∧
      8 * t.obufLen.toNat + t.fill.toNat = 8 * s.obufLen.toNat + s.fill.toNat + 1 := by
  obtain ⟨hb, ⟨hf, hl, hl2, ht⟩ | ⟨hf, rfl⟩⟩ := putBit_ok.1 hp
  · have ho : t.obuf = Memory.write s.obuf s.obufLen.toNat (BitVec.ofNat 8 (2 * s.acc.toNat + b.toNat)) := by
      rw [ht]
    have hd : t.draw = s.draw := by rw [ht]
    have hn : t.obufLen = s.obufLen + 1 := by rw [ht]
    have hft : t.fill = 0 := by rw [ht]
    have h7 : s.fill.toNat = 7 := by rw [hf]; rfl
    refine ⟨h.append hl (by rw [ht]) ho hn (by rw [ht]; simp), ?_, ?_⟩
    · unfold outputBits
      rw [flatMap_append hl2 ho hd hn, h7, hft,
        lowBits_append 7 (a := s.acc) (b := b) (by rw [BitVec.toNat_ofNat, Nat.mod_eq_of_lt hb])]
      simp
    · rw [hn, hft, obufLen_succ hl2, h7]
      show 8 * (s.obufLen.toNat + 1) + 0 = _
      omega
  · have hf7 : s.fill.toNat + 1 < 2 ^ 3 := by
      have h1 : s.fill.toNat < 2 ^ 3 := s.fill.isLt
      have h2 : s.fill.toNat ≠ 7 := fun hc => hf (BitVec.eq_of_toNat_eq hc)
      omega
    have hfill : (s.fill + 1).toNat = s.fill.toNat + 1 := by
      rw [BitVec.toNat_add]
      exact Nat.mod_eq_of_lt hf7
    have hacc : (BitVec.ofNat 8 (2 * s.acc.toNat + b.toNat)).toNat = 2 * s.acc.toNat + b.toNat := by
      rw [BitVec.toNat_ofNat, Nat.mod_eq_of_lt hb]
    refine ⟨⟨h.cfgOk, h.obufForm, h.obufIn, h.obufLenOk, h.obufWritten, ?_⟩, ?_, ?_⟩
    · show (BitVec.ofNat 8 (2 * s.acc.toNat + b.toNat)).toNat < 2 ^ (s.fill + 1).toNat
      rw [hacc, hfill, pow_succ]
      have := h.sinkOk
      cases b <;> simp <;> omega
    · unfold outputBits
      show _ ++ lowBits _ (s.fill + 1).toNat = _
      rw [hfill, lowBits_append s.fill.toNat hacc, List.append_assoc]
      rfl
    · show 8 * s.obufLen.toNat + (s.fill + 1).toNat = _
      rw [hfill]
      omega

/-- A sound PutBit has its meaning: it completes unless the bit completes a byte and OBUF is full (R152). -/
theorem putBit_total (b : Bool) {s : State} (h : SinkOk s) :
    (∃ t, putBit b s = .ok t) ∨
      (putBit b s = raiseFault .outputOverflow ∧ s.fill = 7 ∧ s.obufLen.toNat = s.cfg.obufCap) := by
  have hs := h.sinkOk
  have hcap := h.cap_lt
  have hb : 2 * s.acc.toNat + b.toNat < 2 ^ 8 := by
    have h1 : s.fill.toNat ≤ 7 := by have : s.fill.toNat < 2 ^ 3 := s.fill.isLt; omega
    have h2 : 2 ^ s.fill.toNat ≤ 2 ^ 7 := Nat.pow_le_pow_right (by omega) h1
    cases b <;> simp <;> omega
  by_cases hf : s.fill = 7
  · rcases Nat.lt_or_eq_of_le h.obufLenOk with hl | hl
    · exact .inl ⟨_, putBit_ok.2 ⟨hb, .inl ⟨hf, hl, by omega, rfl⟩⟩⟩
    · refine .inr ⟨?_, hf, hl⟩
      unfold putBit
      rw [if_pos hf, fit_of_lt hb, Eff.ok_bind, obufAppend_raise.2 ⟨hl, rfl⟩]
      rfl
  · exact .inl ⟨_, putBit_ok.2 ⟨hb, .inr ⟨hf, rfl⟩⟩⟩

/-! ### PutFollowed -/

/-- What a sound PutFollowed does (R153): n copies of the bit. -/
theorem putFollowed_spec {b : Bool} {n : Nat} {s t : State} (h : SinkOk s) (hp : putFollowed b n s = .ok t) :
    SinkOk t ∧ outputBits t = outputBits s ++ List.replicate n b ∧
      8 * t.obufLen.toNat + t.fill.toNat = 8 * s.obufLen.toNat + s.fill.toNat + n := by
  induction n generalizing s with
  | zero => cases hp; simpa using h
  | succ n ih =>
    obtain ⟨u, hu, ht⟩ := Eff.bind_ok.1 hp
    obtain ⟨k1, k2, k3⟩ := putBit_spec h hu
    obtain ⟨l1, l2, l3⟩ := ih k1 ht
    refine ⟨l1, ?_, by omega⟩
    rw [l2, k2, List.append_assoc, List.replicate_succ, List.singleton_append]

/-- A sound PutFollowed completes where OBUF has room for the bytes it completes, and overflows where it has not (R153,
R157). -/
theorem putFollowed_total (b : Bool) (n : Nat) {s : State} (h : SinkOk s) :
    (s.obufLen.toNat + (s.fill.toNat + n) / 8 ≤ s.cfg.obufCap ∧ ∃ t, putFollowed b n s = .ok t) ∨
      (s.cfg.obufCap < s.obufLen.toNat + (s.fill.toNat + n) / 8 ∧
        putFollowed b n s = raiseFault .outputOverflow) := by
  induction n generalizing s with
  | zero =>
    refine .inl ⟨?_, s, rfl⟩
    have := h.obufLenOk
    have : s.fill.toNat < 2 ^ 3 := s.fill.isLt
    omega
  | succ n ih =>
    rcases putBit_total b h with ⟨u, hu⟩ | ⟨hr, hf, hl⟩
    · obtain ⟨k1, -, k3⟩ := putBit_spec h hu
      have hc : u.cfg = s.cfg := by
        have := putBit_sinkOnly hu
        unfold SinkOnly at this
        rw [this]
      have h1 : s.fill.toNat < 2 ^ 3 := s.fill.isLt
      have h2 : u.fill.toNat < 2 ^ 3 := u.fill.isLt
      rcases ih k1 with ⟨l1, t, ht⟩ | ⟨l1, ht⟩
      · exact .inl ⟨by rw [← hc]; omega, t, Eff.bind_ok.2 ⟨u, hu, ht⟩⟩
      · exact .inr ⟨by rw [← hc]; omega, Eff.bind_error.2 (.inr ⟨u, hu, ht⟩)⟩
    · refine .inr ⟨?_, Eff.bind_error.2 (.inl hr)⟩
      have h7 : s.fill.toNat = 7 := by rw [hf]; rfl
      omega

/-! ### Flush -/

/-- What a sound Flush does (R154): the pending bits and zeros up to a whole byte. -/
theorem flush_spec {s t : State} (h : SinkOk s) (hp : flush s = .ok t) :
    SinkOk t ∧ t.fill = 0 ∧ t.acc = 0 ∧
      ∃ pad, pad < 8 ∧ outputBits t = outputBits s ++ List.replicate pad false ∧
        (s.fill ≠ 0 → pad = 8 - s.fill.toNat ∧ t.obufLen.toNat = s.obufLen.toNat + 1) := by
  obtain ⟨hf, rfl⟩ | ⟨hf, hb, hl, hl2, ht⟩ := flush_ok.1 hp
  · refine ⟨h, hf, ?_, 0, by omega, by simp, fun hc => absurd hf hc⟩
    have := h.sinkOk
    rw [hf] at this
    exact BitVec.eq_of_toNat_eq (by simpa using this)
  · have ho : t.obuf = Memory.write s.obuf s.obufLen.toNat
        (BitVec.ofNat 8 (s.acc.toNat * 2 ^ (8 - s.fill.toNat))) := by rw [ht]
    have hd : t.draw = s.draw := by rw [ht]
    have hn : t.obufLen = s.obufLen + 1 := by rw [ht]
    have hft : t.fill = 0 := by rw [ht]
    have h8 : s.fill.toNat ≤ 8 := by have : s.fill.toNat < 2 ^ 3 := s.fill.isLt; omega
    have h0 : s.fill.toNat ≠ 0 := fun hc => hf (BitVec.eq_of_toNat_eq hc)
    refine ⟨h.append hl (by rw [ht]) ho hn (by rw [ht]; simp), hft, by rw [ht], 8 - s.fill.toNat, by omega, ?_,
      fun _ => ⟨rfl, by rw [hn, obufLen_succ hl2]⟩⟩
    unfold outputBits
    rw [flatMap_append hl2 ho hd hn, hft,
      lowBits_padded h8 (a := s.acc) (by rw [BitVec.toNat_ofNat, Nat.mod_eq_of_lt hb])]
    simp

/-- A sound Flush has its meaning: it completes unless bits are pending and OBUF is full (R154). -/
theorem flush_total {s : State} (h : SinkOk s) :
    (∃ t, flush s = .ok t) ∨
      (flush s = raiseFault .outputOverflow ∧ s.fill ≠ 0 ∧ s.obufLen.toNat = s.cfg.obufCap) := by
  have hcap := h.cap_lt
  by_cases hf : s.fill = 0
  · exact .inl ⟨s, flush_ok.2 (.inl ⟨hf, rfl⟩)⟩
  · have hb : s.acc.toNat * 2 ^ (8 - s.fill.toNat) < 2 ^ 8 := by
      have h1 : s.fill.toNat ≤ 8 := by have : s.fill.toNat < 2 ^ 3 := s.fill.isLt; omega
      calc s.acc.toNat * 2 ^ (8 - s.fill.toNat)
          < 2 ^ s.fill.toNat * 2 ^ (8 - s.fill.toNat) :=
            Nat.mul_lt_mul_of_pos_right h.sinkOk (Nat.two_pow_pos _)
        _ = 2 ^ 8 := by rw [← pow_add]; congr 1; omega
    rcases Nat.lt_or_eq_of_le h.obufLenOk with hl | hl
    · exact .inl ⟨_, flush_ok.2 (.inr ⟨hf, hb, hl, by omega, rfl⟩)⟩
    · refine .inr ⟨?_, hf, hl⟩
      unfold flush
      rw [if_neg hf, fit_of_lt hb, Eff.ok_bind, obufAppend_raise.2 ⟨hl, rfl⟩]
      rfl

end Sys2Proof.Machine
end

