-- ==== Sys2Proof/Laws/Source.lean ====
section
/-! SUPPORT. The bit source's laws: each bit read is the next of the input's bits, or padding when none is left
(41_bit_sink_source R160, R164; 43_range_decoder R221). -/

namespace Sys2Proof.Machine

/-- The part of the invariant the source's operations keep. -/
structure SourceOk (s : State) : Prop where
  sourceOk : s.srcRem.toNat ≤ 8
  ibufLenOk : s.ibufLen.toNat ≤ s.cfg.ibufCap
  iposOk : s.ipos.toNat ≤ s.cfg.ibufCap

theorem Inv.toSourceOk {s : State} (h : Inv s) : SourceOk s := ⟨h.sourceOk, h.ibufLenOk, h.iposOk⟩

/-- The highest of a byte's low bits comes first. -/
theorem lowBits_succ (b : Byte) (n : Nat) : lowBits b (n + 1) = b.getLsbD n :: lowBits b n := by
  unfold lowBits
  rw [List.range_succ_eq_map, List.map_cons, List.map_map]
  congr 1
  apply List.map_congr_left
  intro i hi
  simp only [Function.comp]
  congr 1
  omega

/-- The input's bits depend on the source and IBUF alone. -/
theorem inputBits_congr {s t : State} (h1 : t.srcByte = s.srcByte) (h2 : t.srcRem = s.srcRem)
    (h3 : t.ipos = s.ipos) (h4 : t.ibufLen = s.ibufLen) (h5 : t.ibuf = s.ibuf) (h6 : t.draw = s.draw) :
    inputBits t = inputBits s := by
  unfold inputBits ibufByte
  rw [h1, h2, h3, h4, h5, h6]

/-- What a sound GetBit does (R160): it returns the next bit of the input, or padding where none is left. -/
theorem getBit_spec {s : State} {g : Got} (h : SourceOk s) (hg : getBit s = .ok g) :
    SourceOk g.after ∧
      ((inputBits s = g.bit :: inputBits g.after ∧ g.padded = false ∧ g.after.eoi = s.eoi) ∨
       (inputBits s = [] ∧ g = ⟨false, true, { s with eoi := true }⟩)) := by
  obtain ⟨h0, h8, rfl⟩ | ⟨h0, h1, h2, rfl⟩ | ⟨h0, h1, rfl⟩ := getBit_ok.1 hg
  · have hn : s.srcRem.toNat ≠ 0 := fun hc => h0 (BitVec.eq_of_toNat_eq hc)
    have hr : (s.srcRem - 1).toNat = s.srcRem.toNat - 1 := by
      rw [BitVec.toNat_sub]
      have : (1 : BitVec 4).toNat = 1 := rfl
      rw [this]
      omega
    refine ⟨⟨?_, h.ibufLenOk, h.iposOk⟩, .inl ⟨?_, rfl, rfl⟩⟩
    · show (s.srcRem - 1).toNat ≤ 8
      omega
    · show lowBits s.srcByte s.srcRem.toNat ++ _ = _ :: (lowBits s.srcByte (s.srcRem - 1).toNat ++ _)
      rw [hr]
      obtain ⟨m, hm⟩ := Nat.exists_eq_succ_of_ne_zero hn
      rw [hm, lowBits_succ, Nat.succ_sub_one]
      rfl
  · have hi : (s.ipos + 1).toNat = s.ipos.toNat + 1 := by
      rw [BitVec.toNat_add]
      exact Nat.mod_eq_of_lt (by have := s.ibufLen.isLt; exact lt_of_le_of_lt h1 this)
    refine ⟨⟨?_, h.ibufLenOk, ?_⟩, .inl ⟨?_, rfl, rfl⟩⟩
    · show (7 : BitVec 4).toNat ≤ 8
      decide
    · show (s.ipos + 1).toNat ≤ s.cfg.ibufCap
      omega
    · obtain ⟨m, hm⟩ : ∃ m, s.ibufLen.toNat - s.ipos.toNat = m + 1 := ⟨_, (Nat.succ_pred (by omega)).symm⟩
      show lowBits s.srcByte s.srcRem.toNat ++ (List.range' s.ipos.toNat (s.ibufLen.toNat - s.ipos.toNat)).flatMap
          (fun i => lowBits (ibufByte s i) 8) =
        (ibufByte s s.ipos.toNat).getLsbD 7 :: (lowBits (ibufByte s s.ipos.toNat) (7 : BitVec 4).toNat ++
          (List.range' (s.ipos + 1).toNat (s.ibufLen.toNat - (s.ipos + 1).toNat)).flatMap
            (fun i => lowBits (ibufByte s i) 8))
      rw [h0, hi, show s.ibufLen.toNat - (s.ipos.toNat + 1) = m by omega, hm, List.range'_succ,
        List.flatMap_cons, lowBits_succ]
      rfl
  · refine ⟨⟨h.sourceOk, h.ibufLenOk, h.iposOk⟩, .inr ⟨?_, rfl⟩⟩
    unfold inputBits
    rw [h0, show s.ibufLen.toNat - s.ipos.toNat = 0 by omega]
    rfl

/-- What the decoder's reading of one bit does (R223): the next bit of the input, or 0, into VALUE. -/
theorem pullBit_spec {s t : State} (h : SourceOk s) (hp : pullBit s = .ok t) :
    SourceOk t ∧ inputBits t = (inputBits s).tail ∧
      t.value = BitVec.ofNat 16 (2 * s.value.toNat + ((inputBits s).head?.getD false).toNat) ∧
      t.eoi = (s.eoi || (inputBits s).isEmpty) := by
  obtain ⟨g, hg, rfl⟩ := pullBit_ok.1 hp
  have hv : g.after.value = s.value := by
    have := getBit_sourceOnly hg
    unfold SourceOnly at this
    rw [this]
  obtain ⟨h1, ⟨h2, -, h3⟩ | ⟨h2, rfl⟩⟩ := getBit_spec h hg
  · refine ⟨⟨h1.1, h1.2, h1.3⟩, ?_, ?_, ?_⟩
    · rw [h2, List.tail_cons]
      exact inputBits_congr rfl rfl rfl rfl rfl rfl
    · rw [h2, shiftInBit_value, hv]
      rfl
    · rw [h2, shiftInBit_eoi, h3]
      simp
  · refine ⟨⟨h1.1, h1.2, h1.3⟩, ?_, ?_, ?_⟩
    · rw [h2, List.tail_nil, ← h2]
      exact inputBits_congr rfl rfl rfl rfl rfl rfl
    · rw [h2]
      rfl
    · rw [h2]
      simp

/-- A sound source always answers the decoder. -/
theorem pullBit_total {s : State} (h : SourceOk s) : ∃ t, pullBit s = .ok t := by
  obtain ⟨g, hg⟩ := getBit_total h.sourceOk h.ibufLenOk
  exact ⟨_, pullBit_ok.2 ⟨g, hg, rfl⟩⟩

/-- What reading `n` bits does (R221): the next `n` bits of the input, padded with zeros, into VALUE. -/
theorem pullBits_spec {n : Nat} {s t : State} (h : SourceOk s) (hp : pullBits n s = .ok t) :
    SourceOk t ∧ inputBits t = (inputBits s).drop n ∧
      t.value.toNat =
        (((inputBits s ++ List.replicate n false).take n).foldl (fun v b => 2 * v + b.toNat) s.value.toNat) % 2 ^ 16 ∧
      (t.eoi = true ↔ s.eoi = true ∨ (inputBits s).length < n) := by
  induction n generalizing s with
  | zero =>
    obtain rfl : s = t := by cases hp; rfl
    exact ⟨h, rfl, (Nat.mod_eq_of_lt s.value.isLt).symm, by simp⟩
  | succ n ih =>
    obtain ⟨u, hu, ht⟩ := Eff.bind_ok.1 hp
    obtain ⟨k1, k2, k3, k4⟩ := pullBit_spec h hu
    obtain ⟨l1, l2, l3, l4⟩ := ih k1 ht
    have hmod : ∀ (bs : List Bool) (v : Nat),
        (bs.foldl (fun v b => 2 * v + b.toNat) (v % 2 ^ 16)) % 2 ^ 16 =
          (bs.foldl (fun v b => 2 * v + b.toNat) v) % 2 ^ 16 := by
      intro bs
      induction bs with
      | nil => intro v; exact Nat.mod_mod _ _
      | cons b bs ihb =>
        intro v
        rw [List.foldl_cons, List.foldl_cons, ← ihb, ← ihb (2 * v + b.toNat)]
        congr 2
        omega
    refine ⟨l1, ?_, ?_, ?_⟩
    · rw [l2, k2, List.drop_tail]
    · rw [l3, k3, BitVec.toNat_ofNat, hmod, k2]
      cases hb : inputBits s with
      | nil => simp [List.replicate_succ]
      | cons b bs =>
        simp only [List.head?_cons, Option.getD_some, List.tail_cons, List.cons_append, List.take_succ_cons,
          List.foldl_cons]
        congr 2
        rw [List.take_append, List.take_append, List.take_replicate, List.take_replicate]
        congr 2
        omega
    · rw [l4, k4, k2]
      cases hb : inputBits s with
      | nil => simp
      | cons b bs => simp

/-- A sound source always fills VALUE. -/
theorem pullBits_total (n : Nat) {s : State} (h : SourceOk s) : ∃ t, pullBits n s = .ok t := by
  induction n generalizing s with
  | zero => exact ⟨s, rfl⟩
  | succ n ih =>
    obtain ⟨u, hu⟩ := pullBit_total h
    obtain ⟨t, ht⟩ := ih (pullBit_spec h hu).1
    exact ⟨t, Eff.bind_ok.2 ⟨u, hu, ht⟩⟩

end Sys2Proof.Machine
end

