-- ==== Sys2Proof/Laws/Interval.lean ====
section
/-! SUPPORT. The interval's laws: narrowing stays inside (42_range_encoder R182), each fire doubles the width (R184),
the loops end within 16 fires (70_reset_and_hazards R320), and the decoder's value stays in the interval
(43_range_decoder R226). -/

namespace Sys2Proof.Machine

/-! ### Classify and the moves, on numbers -/

theorem half_toNat : half.toNat = 0x8000 := rfl

theorem quarter_toNat : quarter.toNat = 0x4000 := rfl

theorem threeq_toNat : threeq.toNat = 0xC000 := rfl

theorem classify_lower {s : State} (h : classify s.low s.high = .lower) : s.high.toNat < 0x8000 := by
  unfold classify at h
  split at h
  · rename_i hc; simpa [half, BitVec.lt_def] using hc
  · split at h
    · cases h
    · split at h <;> cases h

theorem classify_upper {s : State} (h : classify s.low s.high = .upper) :
    0x8000 ≤ s.high.toNat ∧ 0x8000 ≤ s.low.toNat := by
  unfold classify at h
  split at h
  · cases h
  · rename_i h1
    split at h
    · rename_i h2
      simp only [half, BitVec.lt_def, BitVec.le_def, Nat.not_lt] at h1 h2
      exact ⟨h1, h2⟩
    · split at h <;> cases h

theorem classify_middle {s : State} (h : classify s.low s.high = .middle) :
    0x8000 ≤ s.high.toNat ∧ s.high.toNat < 0xC000 ∧ 0x4000 ≤ s.low.toNat ∧ s.low.toNat < 0x8000 := by
  unfold classify at h
  split at h
  · cases h
  · rename_i h1
    split at h
    · cases h
    · rename_i h2
      split at h
      · rename_i h3
        simp only [half, quarter, threeq, BitVec.lt_def, BitVec.le_def, Nat.not_lt, Nat.not_le] at h1 h2 h3
        exact ⟨h1, h3.2, h3.1, h2⟩
      · cases h

/-- A branch fires only on an interval at most half as wide as the whole (R320). -/
theorem width_of_fire {s : State} (h : classify s.low s.high ≠ .stop) : width s ≤ 0x8000 := by
  unfold width
  have := s.high.isLt
  cases hc : classify s.low s.high with
  | lower => have := classify_lower hc; omega
  | upper => have := classify_upper hc; omega
  | middle => have := classify_middle hc; omega
  | stop => exact absurd hc h

/-- The interval after a LOWER fire, on numbers. -/
theorem lower_fire {s : State} (h : classify s.low s.high = .lower) (hle : s.low ≤ s.high) :
    (shift s).low.toNat = 2 * s.low.toNat ∧ (shift s).high.toNat = 2 * s.high.toNat + 1 := by
  have := classify_lower h
  rw [BitVec.le_def] at hle
  simp only [shift_low, shift_high, BitVec.toNat_ofNat]
  omega

/-- The interval after an UPPER fire, on numbers. -/
theorem upper_fire {s : State} (h : classify s.low s.high = .upper) :
    (shift (moveInterval half s)).low.toNat = 2 * (s.low.toNat - 0x8000) ∧
      (shift (moveInterval half s)).high.toNat = 2 * (s.high.toNat - 0x8000) + 1 := by
  have := classify_upper h
  have := s.low.isLt
  have := s.high.isLt
  simp only [shift_low, shift_high, moveInterval_low, moveInterval_high, BitVec.toNat_ofNat, BitVec.toNat_sub,
    half_toNat]
  omega

/-- The interval after a MIDDLE fire, on numbers. -/
theorem middle_fire {s : State} (h : classify s.low s.high = .middle) :
    (shift (moveInterval quarter s)).low.toNat = 2 * (s.low.toNat - 0x4000) ∧
      (shift (moveInterval quarter s)).high.toNat = 2 * (s.high.toNat - 0x4000) + 1 := by
  have := classify_middle h
  simp only [shift_low, shift_high, moveInterval_low, moveInterval_high, BitVec.toNat_ofNat, BitVec.toNat_sub,
    quarter_toNat]
  omega

/-- Every fire keeps LOW <= HIGH and doubles the width (R184). -/
theorem fire_width {s : State} (hle : s.low ≤ s.high) :
    (classify s.low s.high = .lower → (shift s).low ≤ (shift s).high ∧ width (shift s) = 2 * width s) ∧
    (classify s.low s.high = .upper →
      (shift (moveInterval half s)).low ≤ (shift (moveInterval half s)).high ∧
        width (shift (moveInterval half s)) = 2 * width s) ∧
    (classify s.low s.high = .middle →
      (shift (moveInterval quarter s)).low ≤ (shift (moveInterval quarter s)).high ∧
        width (shift (moveInterval quarter s)) = 2 * width s) := by
  refine ⟨fun h => ?_, fun h => ?_, fun h => ?_⟩
  · obtain ⟨h1, h2⟩ := lower_fire h hle
    rw [BitVec.le_def] at hle
    unfold width
    rw [BitVec.le_def, h1, h2]
    omega
  · obtain ⟨h1, h2⟩ := upper_fire h
    have := classify_upper h
    rw [BitVec.le_def] at hle
    unfold width
    rw [BitVec.le_def, h1, h2]
    omega
  · obtain ⟨h1, h2⟩ := middle_fire h
    have := classify_middle h
    rw [BitVec.le_def] at hle
    unfold width
    rw [BitVec.le_def, h1, h2]
    omega

/-- The width depends on LOW and HIGH alone. -/
theorem width_congr {s t : State} (h1 : t.low = s.low) (h2 : t.high = s.high) : width t = width s := by
  unfold width
  rw [h1, h2]

theorem width_pos {s : State} (h : s.low ≤ s.high) : 1 ≤ width s := by
  rw [BitVec.le_def] at h
  unfold width
  omega

/-- The renormalized interval is in order and at least 0x4002 wide (R42). -/
theorem Renormalized.width_ge {s : State} (h : Renormalized s.low s.high) :
    s.low ≤ s.high ∧ 0x4002 ≤ width s := by
  obtain ⟨h1, h2, h3⟩ := h
  simp only [BitVec.lt_def, BitVec.le_def, not_and, Nat.not_lt, half_toNat, quarter_toNat, threeq_toNat] at h1 h2 h3
  rw [BitVec.le_def]
  unfold width
  omega

/-! ### Narrow -/

theorem cumLow_le_cumHigh {s : State} (h : TableOk s.cum s.count) (sym : Byte) : cumLow sym s ≤ cumHigh sym s :=
  h.mono (Nat.le_succ _) (by have := sym.isLt; omega)

theorem cumHigh_le_total {s : State} (h : TableOk s.cum s.count) (sym : Byte) : cumHigh sym s ≤ s.total.toNat :=
  h.mono (by have := sym.isLt; omega) (by omega)

/-- Narrowing stays inside the interval (R182). -/
theorem narrow_bounds {s : State} {sym : Byte} (h : TableOk s.cum s.count) (ht : 0 < s.total.toNat)
    (hle : s.low ≤ s.high) :
    (s.low.toNat : Int) ≤ narrowedLow sym s ∧ narrowedHigh sym s ≤ s.high.toNat := by
  have hw := width_pos hle
  have ht' : (0 : Int) < s.total.toNat := by exact_mod_cast ht
  constructor
  · unfold narrowedLow
    have : 0 ≤ width s * (cumLow sym s : Int) / s.total.toNat :=
      Int.ediv_nonneg (Int.mul_nonneg (by omega) (by omega)) (by omega)
    omega
  · unfold narrowedHigh
    have h1 : width s * (cumHigh sym s : Int) ≤ width s * s.total.toNat :=
      Int.mul_le_mul_of_nonneg_left (by exact_mod_cast cumHigh_le_total h sym) (by omega)
    have h2 : width s * (cumHigh sym s : Int) / s.total.toNat ≤ width s :=
      Int.le_of_lt_add_one (Int.ediv_lt_of_lt_mul ht' (by nlinarith))
    have h3 : width s = (s.high.toNat : Int) - s.low.toNat + 1 := rfl
    omega

/-- Narrow has its meaning in a built model of nonzero total: it narrows, or the interval is empty (R182). -/
theorem narrow_total {s : State} (sym : Byte) (h : TableOk s.cum s.count) (ht : 0 < s.total.toNat)
    (hle : s.low ≤ s.high) :
    (narrowedLow sym s ≤ narrowedHigh sym s ∧ ∃ t, narrow sym s = .ok t) ∨
      (narrowedHigh sym s < narrowedLow sym s ∧ narrow sym s = raiseFault .emptyInterval) := by
  obtain ⟨h1, h2⟩ := narrow_bounds (sym := sym) h ht hle
  have h0 : s.total ≠ 0 := by
    intro hc
    rw [hc] at ht
    exact absurd ht (by decide)
  have hhigh := s.high.isLt
  by_cases he : narrowedHigh sym s < narrowedLow sym s
  · exact .inr ⟨he, by unfold narrow; rw [if_neg h0, if_pos he]⟩
  · refine .inl ⟨by omega, ?_⟩
    have hfit : ∀ n : Int, 0 ≤ n → n ≤ s.high.toNat → ∃ v, fitInt 16 n = .ok v := by
      intro n hn0 hn1
      exact ⟨BitVec.ofNat 16 n.toNat, fitInt_ok.2 ⟨by omega, by rw [BitVec.toNat_ofNat]; omega⟩⟩
    obtain ⟨lo, hlo⟩ := hfit (narrowedLow sym s) (by omega) (by omega)
    obtain ⟨hi, hhi⟩ := hfit (narrowedHigh sym s) (by omega) h2
    unfold narrow
    rw [if_neg h0, if_neg he, hlo, Eff.ok_bind, hhi, Eff.ok_bind]
    exact ⟨_, rfl⟩

/-- What a narrowing leaves (R182): the ends in order, and nothing but LOW and HIGH changed. -/
theorem narrow_le {s t : State} {sym : Byte} (h : narrow sym s = .ok t) : t.low ≤ t.high := by
  obtain ⟨-, h1, h2, h3, -⟩ := narrow_ok h
  rw [BitVec.le_def]
  omega

/-- The symbol whose span holds the scaled value is the one whose narrowed interval holds VALUE (R226). -/
theorem scaled_iff {s : State} (sym : Byte) (ht : 0 < s.total.toNat) (hle : s.low ≤ s.high) :
    ((cumLow sym s : Int) ≤ scaledQuotient s ↔ narrowedLow sym s ≤ s.value.toNat) ∧
      (scaledQuotient s < cumHigh sym s ↔ (s.value.toNat : Int) ≤ narrowedHigh sym s) := by
  have hw := width_pos hle
  have ht' : (0 : Int) < s.total.toNat := by exact_mod_cast ht
  unfold scaledQuotient narrowedLow narrowedHigh
  generalize width s = r at *
  generalize (s.total.toNat : Int) = T at *
  generalize hx : (s.value.toNat : Int) - s.low.toNat + 1 = x
  have hv : (s.value.toNat : Int) = s.low.toNat + x - 1 := by omega
  constructor
  · rw [Int.le_ediv_iff_mul_le (by omega), hv]
    have : r * (cumLow sym s : Int) / T < x ↔ r * (cumLow sym s : Int) < x * T :=
      Int.ediv_lt_iff_lt_mul ht'
    rw [Int.mul_comm (cumLow sym s : Int) r]
    constructor
    · intro hc
      have := this.2 (by omega)
      omega
    · intro hc
      have := this.1 (by omega)
      omega
  · rw [Int.ediv_lt_iff_lt_mul (by omega), hv]
    have : x ≤ r * (cumHigh sym s : Int) / T ↔ x * T ≤ r * (cumHigh sym s : Int) :=
      Int.le_ediv_iff_mul_le ht'
    rw [Int.mul_comm (cumHigh sym s : Int) r]
    constructor
    · intro hc
      have := this.2 (by omega)
      omega
    · intro hc
      have := this.1 (by omega)
      omega

/-- Where LOW <= VALUE <= HIGH, the quotient is in [0, TOTAL) before the clamp (R222, R226). -/
theorem scaledQuotient_range {s : State} (ht : 0 < s.total.toNat) (h1 : s.low ≤ s.value) (h2 : s.value ≤ s.high) :
    0 ≤ scaledQuotient s ∧ scaledQuotient s < s.total.toNat := by
  rw [BitVec.le_def] at h1 h2
  have ht' : (0 : Int) < s.total.toNat := by exact_mod_cast ht
  have hw : (1 : Int) ≤ width s := by unfold width; omega
  have hx : (1 : Int) ≤ (s.value.toNat : Int) - s.low.toNat + 1 := by omega
  have hxw : (s.value.toNat : Int) - s.low.toNat + 1 ≤ width s := by unfold width; omega
  unfold scaledQuotient
  constructor
  · exact Int.ediv_nonneg (by nlinarith) (by omega)
  · rw [Int.ediv_lt_iff_lt_mul (by omega)]
    nlinarith

/-- Scaled's answer in a decode session: the quotient itself (R222, R226). -/
theorem scaled_eq {s : State} (ht : 0 < s.total.toNat) (h1 : s.low ≤ s.value) (h2 : s.value ≤ s.high) :
    scaled s = .ok (scaledQuotient s).toNat := by
  obtain ⟨h3, h4⟩ := scaledQuotient_range ht h1 h2
  have hw : (1 : Int) ≤ width s := width_pos (BitVec.le_trans h1 h2)
  have h0 : s.total ≠ 0 := by
    intro hc
    rw [hc] at ht
    exact absurd ht (by decide)
  unfold scaled
  rw [if_neg (by rintro (hc | hc); exact h0 hc; omega)]
  unfold clamp
  simp only [if_neg (Int.not_lt.2 h3)]
  rw [if_neg (by omega)]

/-! ### The encoder's loop -/

/-- What BitPlusFollow does with a sound sink (R185): the bit and FOLLOW opposite bits, FOLLOW 0. -/
theorem bitPlusFollow_spec {b : Bool} {s t : State} (h : SinkOk s) (hp : bitPlusFollow b s = .ok t) :
    SinkOk t ∧ outputBits t = outputBits s ++ b :: List.replicate s.follow.toNat (!b) ∧
      8 * t.obufLen.toNat + t.fill.toNat = 8 * s.obufLen.toNat + s.fill.toNat + 1 + s.follow.toNat := by
  obtain ⟨u, hu, v, hv, rfl⟩ := bitPlusFollow_ok hp
  obtain ⟨k1, k2, k3⟩ := putBit_spec h hu
  obtain ⟨l1, l2, l3⟩ := putFollowed_spec k1 hv
  refine ⟨⟨l1.1, l1.2, l1.3, l1.4, l1.5, l1.6⟩, ?_, by simp only; omega⟩
  show outputBits v = _
  rw [l2, k2, List.append_assoc, List.singleton_append]

/-- A sound BitPlusFollow completes where OBUF has room for its bits, else overflows (R185). -/
theorem bitPlusFollow_total (b : Bool) {s : State} (h : SinkOk s) :
    (∃ t, bitPlusFollow b s = .ok t) ∨
      (bitPlusFollow b s = raiseFault .outputOverflow ∧
        8 * s.cfg.obufCap + 8 ≤ 8 * s.obufLen.toNat + s.fill.toNat + 1 + s.follow.toNat) := by
  unfold bitPlusFollow
  rcases putBit_total b h with ⟨u, hu⟩ | ⟨hr, hf, hl⟩
  · obtain ⟨k1, -, k3⟩ := putBit_spec h hu
    have hc := putBit_sinkOnly hu
    unfold SinkOnly at hc
    have hcc : u.cfg = s.cfg := by rw [hc]
    have hcf : u.follow = s.follow := by rw [hc]
    rw [hu, Eff.ok_bind]
    rcases putFollowed_total (!b) u.follow.toNat k1 with ⟨-, v, hv⟩ | ⟨l1, hv⟩
    · exact .inl ⟨_, by rw [hv]; rfl⟩
    · refine .inr ⟨by rw [hv]; rfl, ?_⟩
      rw [hcc, hcf] at l1
      omega
  · refine .inr ⟨by rw [hr]; rfl, ?_⟩
    have h7 : s.fill.toNat = 7 := by rw [hf]; rfl
    omega

/-- FOLLOW is 0 after BitPlusFollow (R185). -/
theorem bitPlusFollow_follow {b : Bool} {s t : State} (h : bitPlusFollow b s = .ok t) : t.follow = 0 := by
  obtain ⟨u, -, v, -, rfl⟩ := bitPlusFollow_ok h
  rfl

/-- The sink is sound with any LOW, HIGH, FOLLOW. -/
theorem SinkOk.congr {s t : State} (h : SinkOk s) (h1 : t.cfg = s.cfg) (h2 : t.obuf = s.obuf)
    (h3 : t.obufLen = s.obufLen) (h4 : t.acc = s.acc) (h5 : t.fill = s.fill) : SinkOk t := by
  obtain ⟨k1, k2, k3, k4, k5, k6⟩ := h
  constructor
  · rw [h1]; exact k1
  · rw [h2]; exact k2
  · rw [h2, h1]; exact k3
  · rw [h3, h1]; exact k4
  · rw [h3, h2]; exact k5
  · rw [h4, h5]; exact k6

/-- The sink's bits depend on the sink and OBUF alone. -/
theorem outputBits_congr {s t : State} (h1 : t.obufLen = s.obufLen) (h2 : t.obuf = s.obuf) (h3 : t.draw = s.draw)
    (h4 : t.acc = s.acc) (h5 : t.fill = s.fill) : outputBits t = outputBits s := by
  unfold outputBits obufByte
  rw [h1, h2, h3, h4, h5]

/-- What EncRenorm does from a sound sink (R186): the bits it emits and what FOLLOW gains together are its fires,
at most `n - 1` of them in `n` turns. -/
theorem encRenorm_spec {n : Nat} {s t : State} (h : SinkOk s) (hp : encRenorm n s = .ok t) :
    SinkOk t ∧ ∃ bits fires, outputBits t = outputBits s ++ bits ∧ fires + 1 ≤ n ∧
      bits.length + t.follow.toNat = s.follow.toNat + fires ∧
      8 * t.obufLen.toNat + t.fill.toNat = 8 * s.obufLen.toNat + s.fill.toNat + bits.length := by
  induction n generalizing s with
  | zero => cases hp
  | succ n ih =>
    unfold encRenorm at hp
    split at hp
    · obtain ⟨u, hu, hp⟩ := Eff.bind_ok.1 hp
      obtain ⟨k1, k2, k3⟩ := bitPlusFollow_spec h hu
      obtain ⟨l1, bits, f, l2, l3, l4, l5⟩ := ih (s := shift u) (k1.congr rfl rfl rfl rfl rfl) hp
      have hfo : (shift u).follow.toNat = 0 := by rw [shift_follow, bitPlusFollow_follow hu]; rfl
      have ho : outputBits (shift u) = outputBits u := outputBits_congr rfl rfl rfl rfl rfl
      simp only [shift_obufLen, shift_fill] at l5
      refine ⟨l1, false :: List.replicate s.follow.toNat (!false) ++ bits, f + 1, ?_, by omega, ?_, ?_⟩
      · rw [l2, ho, k2, List.append_assoc]
      · simp; omega
      · simp; omega
    · obtain ⟨u, hu, hp⟩ := Eff.bind_ok.1 hp
      obtain ⟨k1, k2, k3⟩ := bitPlusFollow_spec h hu
      obtain ⟨l1, bits, f, l2, l3, l4, l5⟩ := ih (s := shift (moveInterval half u)) (k1.congr rfl rfl rfl rfl rfl) hp
      have hfo : (shift (moveInterval half u)).follow.toNat = 0 := by
        rw [shift_follow, moveInterval_follow, bitPlusFollow_follow hu]; rfl
      have ho : outputBits (shift (moveInterval half u)) = outputBits u := outputBits_congr rfl rfl rfl rfl rfl
      simp only [shift_obufLen, shift_fill, moveInterval_obufLen, moveInterval_fill] at l5
      refine ⟨l1, true :: List.replicate s.follow.toNat (!true) ++ bits, f + 1, ?_, by omega, ?_, ?_⟩
      · rw [l2, ho, k2, List.append_assoc]
      · simp; omega
      · simp; omega
    · obtain ⟨v, hv, hp⟩ := Eff.bind_ok.1 hp
      obtain ⟨-, hv⟩ := fit_ok.1 hv
      have hs : SinkOk (shift (moveInterval quarter { s with follow := v })) := h.congr rfl rfl rfl rfl rfl
      obtain ⟨l1, bits, f, l2, l3, l4, l5⟩ := ih hs hp
      have ho : outputBits (shift (moveInterval quarter { s with follow := v })) = outputBits s :=
        outputBits_congr rfl rfl rfl rfl rfl
      simp only [shift_obufLen, shift_fill, moveInterval_obufLen, moveInterval_fill, shift_follow,
        moveInterval_follow] at l4 l5
      exact ⟨l1, bits, f + 1, by rw [l2, ho], by omega, by omega, l5⟩
    · cases hp
      exact ⟨h, [], 0, by simp, by omega, by simp, by simp⟩

/-- EncRenorm has its meaning within its bound (R320): from LOW <= HIGH it completes where OBUF has room for the bits,
and otherwise overflows. -/
theorem encRenorm_total {n : Nat} {s : State} (h : SinkOk s) (hle : s.low ≤ s.high)
    (hw : 2 ^ 16 < width s * 2 ^ n) (hf : s.follow.toNat + n < 2 ^ 64) :
    (∃ t, encRenorm n s = .ok t) ∨
      (encRenorm n s = raiseFault .outputOverflow ∧
        8 * s.cfg.obufCap + 8 < 8 * s.obufLen.toNat + s.fill.toNat + s.follow.toNat + n) := by
  induction n generalizing s with
  | zero =>
    have := s.high.isLt
    unfold width at hw
    omega
  | succ n ih =>
    have hw2 : 2 * width s * 2 ^ n = width s * 2 ^ (n + 1) := by rw [pow_succ]; ring
    have hn : classify s.low s.high ≠ .stop → 1 ≤ n := by
      intro hc
      have := width_of_fire hc
      by_contra hn
      obtain rfl : n = 0 := by omega
      omega
    unfold encRenorm
    split
    · rename_i hc
      have hn := hn (by rw [hc]; decide)
      rcases bitPlusFollow_total false h with ⟨u, hu⟩ | ⟨hr, hroom⟩
      · obtain ⟨k1, -, k3⟩ := bitPlusFollow_spec h hu
        have hfr := bitPlusFollow_frame hu
        have h1 : u.low = s.low := by rw [hfr]
        have h2 : u.high = s.high := by rw [hfr]
        have h3 : u.cfg = s.cfg := by rw [hfr]
        have h4 : u.follow.toNat = 0 := by rw [hfr]; rfl
        obtain ⟨w1, w2⟩ := (fire_width (s := u) (by rw [h1, h2]; exact hle)).1 (by rw [h1, h2]; exact hc)
        rw [hu, Eff.ok_bind]
        rcases ih (s := shift u) (k1.congr rfl rfl rfl rfl rfl) w1
          (by rw [w2, width_congr h1 h2, hw2]; exact hw) (by rw [shift_follow]; omega) with ht | ⟨ht, hroom⟩
        · exact .inl ht
        · simp only [shift_obufLen, shift_fill, shift_cfg, shift_follow, h3] at hroom
          exact .inr ⟨ht, by omega⟩
      · exact .inr ⟨by rw [hr]; rfl, by omega⟩
    · rename_i hc
      have hn := hn (by rw [hc]; decide)
      rcases bitPlusFollow_total true h with ⟨u, hu⟩ | ⟨hr, hroom⟩
      · obtain ⟨k1, -, k3⟩ := bitPlusFollow_spec h hu
        have hfr := bitPlusFollow_frame hu
        have h1 : u.low = s.low := by rw [hfr]
        have h2 : u.high = s.high := by rw [hfr]
        have h3 : u.cfg = s.cfg := by rw [hfr]
        have h4 : u.follow.toNat = 0 := by rw [hfr]; rfl
        obtain ⟨w1, w2⟩ := (fire_width (s := u) (by rw [h1, h2]; exact hle)).2.1 (by rw [h1, h2]; exact hc)
        rw [hu, Eff.ok_bind]
        rcases ih (s := shift (moveInterval half u)) (k1.congr rfl rfl rfl rfl rfl) w1
          (by rw [w2, width_congr h1 h2, hw2]; exact hw)
          (by rw [shift_follow, moveInterval_follow]; omega) with ht | ⟨ht, hroom⟩
        · exact .inl ht
        · simp only [shift_obufLen, shift_fill, shift_cfg, shift_follow, moveInterval_obufLen, moveInterval_fill,
            moveInterval_cfg, moveInterval_follow, h3] at hroom
          exact .inr ⟨ht, by omega⟩
      · exact .inr ⟨by rw [hr]; rfl, by omega⟩
    · rename_i hc
      rw [fit_of_lt (by omega), Eff.ok_bind]
      have hv : (BitVec.ofNat 64 (s.follow.toNat + 1)).toNat = s.follow.toNat + 1 := by
        rw [BitVec.toNat_ofNat]; omega
      obtain ⟨w1, w2⟩ := (fire_width (s := { s with follow := BitVec.ofNat 64 (s.follow.toNat + 1) }) hle).2.2 hc
      rcases ih (s := shift (moveInterval quarter { s with follow := BitVec.ofNat 64 (s.follow.toNat + 1) }))
        (h.congr rfl rfl rfl rfl rfl) w1
        (by rw [w2, width_congr (s := s) (by rfl) (by rfl), hw2]; exact hw)
        (by rw [shift_follow, moveInterval_follow, hv]; omega) with ht | ⟨ht, hroom⟩
      · exact .inl ht
      · simp only [shift_obufLen, shift_fill, shift_cfg, shift_follow, moveInterval_obufLen, moveInterval_fill,
          moveInterval_cfg, moveInterval_follow, hv] at hroom
        exact .inr ⟨ht, by omega⟩
    · exact .inl ⟨s, rfl⟩

/-! ### The decoder's loop -/

/-- A moved value and the bit read after it, on numbers. -/
theorem shiftedValue {v : BitVec 16} {b : Bool} (h : v.toNat < 0x8000) :
    (BitVec.ofNat 16 (2 * v.toNat + b.toNat)).toNat = 2 * v.toNat + b.toNat := by
  have := b.toNat_lt
  rw [BitVec.toNat_ofNat]
  omega

/-- VALUE less the branch's constant, on numbers. -/
theorem movedValue {v d : BitVec 16} (h : d.toNat ≤ v.toNat) : (v - d).toNat = v.toNat - d.toNat := by
  have := v.isLt
  have := d.isLt
  rw [BitVec.toNat_sub]
  omega

/-- What the decoder's operations read of the source is sound with any LOW, HIGH, VALUE. -/
theorem SourceOk.congr {s t : State} (h : SourceOk s) (h1 : t.srcRem = s.srcRem) (h2 : t.ibufLen = s.ibufLen)
    (h3 : t.ipos = s.ipos) (h4 : t.cfg = s.cfg) : SourceOk t := by
  obtain ⟨k1, k2, k3⟩ := h
  exact ⟨by rw [h1]; exact k1, by rw [h2, h4]; exact k2, by rw [h3, h4]; exact k3⟩

/-- DecRenorm from a sound source with LOW <= VALUE <= HIGH (R223, R226): it completes within its bound, and keeps the
source sound and VALUE inside. -/
theorem decRenorm_total {n : Nat} {s : State} (h : SourceOk s) (h1 : s.low ≤ s.value) (h2 : s.value ≤ s.high)
    (hw : 2 ^ 16 < width s * 2 ^ n) :
    ∃ t, decRenorm n s = .ok t ∧ SourceOk t ∧ t.low ≤ t.value ∧ t.value ≤ t.high := by
  induction n generalizing s with
  | zero =>
    have := s.high.isLt
    unfold width at hw
    omega
  | succ n ih =>
    have hle := BitVec.le_trans h1 h2
    have hw2 : 2 * width s * 2 ^ n = width s * 2 ^ (n + 1) := by rw [pow_succ]; ring
    have hv1 := h1
    have hv2 := h2
    rw [BitVec.le_def] at hv1 hv2
    have key : ∀ u : State, SourceOk u → width u = 2 * width s → u.value.toNat < 0x8000 →
        u.low.toNat ≤ 2 * u.value.toNat → 2 * u.value.toNat + 1 ≤ u.high.toNat →
        ∃ t, (pullBit u >>= fun t => decRenorm n t) = .ok t ∧ SourceOk t ∧ t.low ≤ t.value ∧ t.value ≤ t.high := by
      intro u hu hwu hv hlo hhi
      obtain ⟨p, hp⟩ := pullBit_total hu
      obtain ⟨k1, -, k3, -⟩ := pullBit_spec hu hp
      have hfr := pullBit_valueOnly hp
      unfold ValueOnly at hfr
      have e1 : p.low = u.low := by rw [hfr]
      have e2 : p.high = u.high := by rw [hfr]
      have e3 := shiftedValue (b := ((inputBits u).head?.getD false)) hv
      rw [← k3] at e3
      have := ((inputBits u).head?.getD false).toNat_lt
      obtain ⟨t, ht, hrest⟩ := ih (s := p) k1 (by rw [BitVec.le_def, e1]; omega) (by rw [BitVec.le_def, e2]; omega)
        (by rw [width_congr e1 e2, hwu, hw2]; exact hw)
      exact ⟨t, by rw [hp]; exact ht, hrest⟩
    unfold decRenorm
    split
    · rename_i hc
      obtain ⟨a1, a2⟩ := lower_fire hc hle
      have := classify_lower hc
      apply key
      · exact h.congr rfl rfl rfl rfl
      · exact ((fire_width hle).1 hc).2
      · rw [shift_value]; omega
      · rw [a1, shift_value]; omega
      · rw [a2, shift_value]; omega
    · rename_i hc
      obtain ⟨a1, a2⟩ := upper_fire hc
      have := classify_upper hc
      have hval : (s.value - half).toNat = s.value.toNat - 0x8000 :=
        movedValue (d := half) (by rw [half_toNat]; omega)
      have hhi := s.high.isLt
      apply key
      · exact h.congr rfl rfl rfl rfl
      · exact ((fire_width hle).2.1 hc).2
      · rw [shift_value, moveAll_value, hval]; omega
      · rw [shift_value, moveAll_value, hval]
        change (shift (moveInterval half s)).low.toNat ≤ _
        rw [a1]; omega
      · rw [shift_value, moveAll_value, hval]
        change _ ≤ (shift (moveInterval half s)).high.toNat
        rw [a2]; omega
    · rename_i hc
      obtain ⟨a1, a2⟩ := middle_fire hc
      have := classify_middle hc
      have hval : (s.value - quarter).toNat = s.value.toNat - 0x4000 :=
        movedValue (d := quarter) (by rw [quarter_toNat]; omega)
      apply key
      · exact h.congr rfl rfl rfl rfl
      · exact ((fire_width hle).2.2 hc).2
      · rw [shift_value, moveAll_value, hval]; omega
      · rw [shift_value, moveAll_value, hval]
        change (shift (moveInterval quarter s)).low.toNat ≤ _
        rw [a1]; omega
      · rw [shift_value, moveAll_value, hval]
        change _ ≤ (shift (moveInterval quarter s)).high.toNat
        rw [a2]; omega
    · exact ⟨s, rfl, h, h1, h2⟩

end Sys2Proof.Machine
end

