-- ==== Sys2Proof/Laws/Bodies.lean ====
section
/-! SUPPORT. What each command's body can write (its frame) and which faults it can raise, said once per body. -/

namespace Sys2Proof.Machine

/-! ### Frames -/

theorem modelCountBody_frame {sym : Byte} {s t : State} (h : modelCountBody sym s = .ok t) :
    t = { s with count := t.count } := by
  unfold modelCountBody at h
  split at h <;> cases h
  rfl

theorem modelSetCountBody_frame {sym : Byte} {n : Imm} {s t : State} (h : modelSetCountBody sym n s = .ok t) :
    t = { s with count := t.count } := by
  obtain ⟨c, -, h⟩ := Eff.bind_ok.1 h
  cases h
  rfl

theorem modelReadCumBody_frame {i : Imm} {s t : State} (h : modelReadCumBody i s = .ok t) :
    t = { s with result := t.result } := by
  obtain ⟨c, -, h⟩ := Eff.bind_ok.1 h
  cases h
  rfl

theorem modelFindBody_frame {v : Imm} {s t : State} (h : modelFindBody v s = .ok t) :
    t = { s with result := t.result } := by
  obtain ⟨c, -, h⟩ := Eff.bind_ok.1 h
  obtain ⟨c, -, h⟩ := Eff.bind_ok.1 h
  cases h
  rfl

theorem bitPutBody_frame {b : Byte} {s t : State} (h : bitPutBody b s = .ok t) : SinkOnly s t := by
  obtain ⟨c, -, h⟩ := Eff.bind_ok.1 h
  exact putBit_sinkOnly h

theorem bitPutnBody_frame {b : Byte} {n : Imm} {s t : State} (h : bitPutnBody b n s = .ok t) : SinkOnly s t := by
  obtain ⟨c, -, h⟩ := Eff.bind_ok.1 h
  exact putFollowed_sinkOnly h

theorem bitGetBody_frame {s t : State} (h : bitGetBody s = .ok t) :
    t = { s with result := t.result, srcByte := t.srcByte, srcRem := t.srcRem, eoi := t.eoi, ipos := t.ipos } := by
  obtain ⟨g, hg, h⟩ := Eff.bind_ok.1 h
  cases h
  have hs := getBit_sourceOnly hg
  unfold SourceOnly at hs
  conv_lhs => rw [hs]

/-- ENC_SYMBOL's parts (R188), where it completes. -/
theorem encSymbolBody_ok {sym : Byte} {s t : State} (h : encSymbolBody sym s = .ok t) :
    s.encCount ≠ s.total ∧ ∃ u, narrow sym s = .ok u ∧ ∃ v, encRenorm renormFuel u = .ok v ∧
      ∃ n, fit 64 (v.encCount.toNat + 1) = .ok n ∧ t = { v with encCount := n } := by
  unfold encSymbolBody at h
  split at h
  · cases h
  · rename_i hc
    obtain ⟨u, hu, h⟩ := Eff.bind_ok.1 h
    obtain ⟨v, hv, h⟩ := Eff.bind_ok.1 h
    obtain ⟨n, hn, h⟩ := Eff.bind_ok.1 h
    cases h
    exact ⟨hc, u, hu, v, hv, n, hn, rfl⟩

theorem encSymbolBody_frame {sym : Byte} {s t : State} (h : encSymbolBody sym s = .ok t) :
    t = { s with
      low := t.low, high := t.high, follow := t.follow, encCount := t.encCount
      acc := t.acc, fill := t.fill, obuf := t.obuf, obufLen := t.obufLen } := by
  obtain ⟨-, u, hu, v, hv, n, -, rfl⟩ := encSymbolBody_ok h
  obtain ⟨-, -, -, -, hu⟩ := narrow_ok hu
  obtain ⟨-, hv⟩ := encRenorm_ok hv
  unfold EncOnly at hv
  conv_lhs => rw [hv, hu]

/-- The parts of ENC_FINISH's bits (R189), where they are emitted. -/
theorem finishBits_ok {s t : State} (h : finishBits s = .ok t) :
    ∃ n, fit 64 (s.follow.toNat + 1) = .ok n ∧
      ∃ u, bitPlusFollow (decide (quarter ≤ s.low)) { s with follow := n } = .ok u ∧ flush u = .ok t := by
  obtain ⟨n, hn, h⟩ := Eff.bind_ok.1 h
  obtain ⟨u, hu, h⟩ := Eff.bind_ok.1 h
  exact ⟨n, hn, u, hu, h⟩

theorem finishBits_frame {s t : State} (h : finishBits s = .ok t) :
    t = { s with follow := 0, acc := t.acc, fill := t.fill, obuf := t.obuf, obufLen := t.obufLen } := by
  obtain ⟨n, -, u, hu, ht⟩ := finishBits_ok h
  have ht := flush_sinkOnly ht
  have hu := bitPlusFollow_frame hu
  unfold SinkOnly at ht
  conv_lhs => rw [ht, hu]

theorem encFinishBody_ok {s t : State} (h : encFinishBody s = .ok t) :
    s.encCount = s.total ∧ ((s.total = 0 ∧ t = { s with session := .idle }) ∨
      (s.total ≠ 0 ∧ ∃ u, finishBits s = .ok u ∧ t = { u with session := .idle })) := by
  unfold encFinishBody at h
  split at h
  · cases h
  · rename_i hc
    refine ⟨not_not.1 hc, ?_⟩
    split at h
    · rename_i h0
      cases h
      exact .inl ⟨h0, rfl⟩
    · rename_i h0
      obtain ⟨u, hu, h⟩ := Eff.bind_ok.1 h
      cases h
      exact .inr ⟨h0, u, hu, rfl⟩

theorem encFinishBody_frame {s t : State} (h : encFinishBody s = .ok t) :
    t = { s with
      session := .idle, follow := t.follow, acc := t.acc, fill := t.fill, obuf := t.obuf, obufLen := t.obufLen } := by
  obtain ⟨-, ⟨-, rfl⟩ | ⟨-, u, hu, rfl⟩⟩ := encFinishBody_ok h
  · rfl
  · have hf := finishBits_frame hu
    have hz : u.follow = 0 := by rw [hf]
    have hk : u = { s with
        follow := u.follow, acc := u.acc, fill := u.fill, obuf := u.obuf, obufLen := u.obufLen } := by
      rw [hz]
      exact hf
    exact congrArg (fun x : State => { x with session := .idle }) hk

theorem decStartBody_ok {n : Imm} {s t : State} (h : decStartBody n s = .ok t) :
    n.toNat = s.total.toNat ∧ ((n = 0 ∧ t = decStartInit n s) ∨
      (n ≠ 0 ∧ ∃ u, valueFill (decStartInit n s) = .ok u ∧ t = { u with session := .dec })) := by
  unfold decStartBody at h
  split at h
  · cases h
  · rename_i hc
    refine ⟨not_not.1 hc, ?_⟩
    split at h
    · rename_i h0
      cases h
      exact .inl ⟨h0, rfl⟩
    · rename_i h0
      obtain ⟨u, hu, h⟩ := Eff.bind_ok.1 h
      cases h
      exact .inr ⟨h0, u, hu, rfl⟩

theorem decStartBody_frame {n : Imm} {s t : State} (h : decStartBody n s = .ok t) :
    t = { s with
      session := t.session, srcByte := t.srcByte, srcRem := t.srcRem, eoi := t.eoi, ipos := t.ipos
      obufLen := 0, low := 0x0000, high := 0xFFFF, value := t.value, remaining := n.setWidth 64 } := by
  obtain ⟨-, ⟨-, rfl⟩ | ⟨-, u, hu, rfl⟩⟩ := decStartBody_ok h
  · rfl
  · have hf := pullBits_valueOnly hu
    unfold ValueOnly at hf
    conv_lhs => rw [hf]
    rfl

theorem countDown_ok {s t : State} (h : countDown s = .ok t) :
    s.remaining ≠ 0 ∧ t = { s with
      remaining := s.remaining - 1
      session := if s.remaining = 1 then .idle else s.session } := by
  unfold countDown at h
  split at h
  · cases h
  · rename_i h0
    cases h
    exact ⟨h0, rfl⟩

/-- DEC_SYMBOL's parts (R225), where it completes. -/
theorem decSymbolBody_ok {s t : State} (h : decSymbolBody s = .ok t) :
    ∃ v, scaled s = .ok v ∧ ∃ sym, findSymbol v s = .ok sym ∧ ∃ p, obufAppend sym s = .ok p ∧
      ∃ q, narrow sym { p with result := sym.setWidth 64 } = .ok q ∧ ∃ r, decRenorm renormFuel q = .ok r ∧
        countDown r = .ok t := by
  obtain ⟨v, hv, h⟩ := Eff.bind_ok.1 h
  obtain ⟨sym, hsym, h⟩ := Eff.bind_ok.1 h
  obtain ⟨p, hp, h⟩ := Eff.bind_ok.1 h
  obtain ⟨q, hq, h⟩ := Eff.bind_ok.1 h
  obtain ⟨r, hr, h⟩ := Eff.bind_ok.1 h
  exact ⟨v, hv, sym, hsym, p, hp, q, hq, r, hr, h⟩

theorem decSymbolBody_frame {s t : State} (h : decSymbolBody s = .ok t) :
    ∃ sym : Byte, t = { s with
      low := t.low, high := t.high, value := t.value, srcByte := t.srcByte, srcRem := t.srcRem
      eoi := t.eoi, ipos := t.ipos, obuf := Memory.write s.obuf s.obufLen.toNat sym, obufLen := s.obufLen + 1
      result := sym.setWidth 64, remaining := s.remaining - 1
      session := if s.remaining = 1 then .idle else s.session } := by
  obtain ⟨v, -, sym, -, p, hp, q, hq, r, hr, ht⟩ := decSymbolBody_ok h
  obtain ⟨-, -, rfl⟩ := obufAppend_ok.1 hp
  obtain ⟨-, -, -, -, hq⟩ := narrow_ok hq
  obtain ⟨-, hr⟩ := decRenorm_ok hr
  obtain ⟨-, rfl⟩ := countDown_ok ht
  refine ⟨sym, ?_⟩
  unfold DecOnly at hr
  rw [hr, hq]

/-! ### Faults -/

theorem bitOperand_raise {b : Byte} {c : FaultCode} (h : bitOperand b = raiseFault c) : c = .badOperand := by
  unfold bitOperand at h
  split at h <;> cases h
  rfl

theorem countOperand_raise {n : Imm} {c : FaultCode} (h : countOperand n = raiseFault c) : c = .badOperand := by
  unfold countOperand at h
  split at h <;> cases h
  rfl

theorem indexOperand_raise {i : Imm} {c : FaultCode} (h : indexOperand i = raiseFault c) : c = .badOperand := by
  unfold indexOperand at h
  split at h <;> cases h
  rfl

theorem findOperand_raise {v : Imm} {s : State} {c : FaultCode} (h : findOperand v s = raiseFault c) :
    c = .badOperand := by
  unfold findOperand at h
  split at h <;> cases h
  rfl

theorem findSymbol_ne_raise {v : Nat} {s : State} {c : FaultCode} : findSymbol v s ≠ raiseFault c := by
  unfold findSymbol
  split <;> simp

theorem scaled_ne_raise {s : State} {c : FaultCode} : scaled s ≠ raiseFault c := by
  unfold scaled
  split <;> simp

theorem fit_ne_raise {w n : Nat} {c : FaultCode} : fit w n ≠ raiseFault c := by
  intro h
  cases (fit_error h).2

theorem finishBits_raise {s : State} {c : FaultCode} (h : finishBits s = raiseFault c) : c = .outputOverflow := by
  unfold finishBits at h
  rcases Eff.bind_error.1 h with h | ⟨n, -, h⟩
  · exact absurd h fit_ne_raise
  · rcases Eff.bind_error.1 h with h | ⟨u, -, h⟩
    · exact bitPlusFollow_raise h
    · exact (flush_raise h).1

theorem countDown_ne_raise {s : State} {c : FaultCode} : countDown s ≠ raiseFault c := by
  unfold countDown
  split <;> simp

/-- The faults a body raises are those of its row of R262. -/
theorem bodyOf_raise {i : Instr} {s : State} {c : FaultCode} (hi : i ≠ .reset) (h : bodyOf i s = raiseFault c) :
    c ∈ bodyFaults i := by
  cases i with
  | reset => exact absurd rfl hi
  | nop => cases h
  | modelClear => cases h
  | modelCount sym =>
    simp only [bodyOf, modelCountBody] at h
    split at h <;> cases h
    simp [bodyFaults]
  | modelSetCount sym n =>
    rcases Eff.bind_error.1 h with h | ⟨_, -, h⟩
    · simp [bodyFaults, countOperand_raise h]
    · cases h
  | modelBuild => cases h
  | modelReadCount => cases h
  | modelReadCum k =>
    rcases Eff.bind_error.1 h with h | ⟨_, -, h⟩
    · simp [bodyFaults, indexOperand_raise h]
    · cases h
  | modelFind v =>
    rcases Eff.bind_error.1 h with h | ⟨_, -, h⟩
    · simp [bodyFaults, findOperand_raise h]
    · rcases Eff.bind_error.1 h with h | ⟨_, -, h⟩
      · exact absurd h findSymbol_ne_raise
      · cases h
  | bitReset => cases h
  | bitPut b =>
    rcases Eff.bind_error.1 h with h | ⟨_, -, h⟩
    · simp [bodyFaults, bitOperand_raise h]
    · simp [bodyFaults, (putBit_raise h).1]
  | bitPutn b n =>
    rcases Eff.bind_error.1 h with h | ⟨_, -, h⟩
    · simp [bodyFaults, bitOperand_raise h]
    · simp [bodyFaults, putFollowed_raise h]
  | bitFlush => simp [bodyFaults, (flush_raise h).1]
  | bitGet =>
    rcases Eff.bind_error.1 h with h | ⟨_, -, h⟩
    · exact absurd h getBit_ne_raise
    · cases h
  | encStart => cases h
  | encSymbol sym =>
    simp only [bodyOf, encSymbolBody] at h
    split at h
    · cases h
      simp [bodyFaults]
    · rcases Eff.bind_error.1 h with h | ⟨_, -, h⟩
      · simp [bodyFaults, (narrow_raise h).1]
      · rcases Eff.bind_error.1 h with h | ⟨_, -, h⟩
        · simp [bodyFaults, encRenorm_raise h]
        · rcases Eff.bind_error.1 h with h | ⟨_, -, h⟩
          · exact absurd h fit_ne_raise
          · cases h
  | encFinish =>
    simp only [bodyOf, encFinishBody] at h
    split at h
    · cases h
      simp [bodyFaults]
    · split at h
      · cases h
      · rcases Eff.bind_error.1 h with h | ⟨_, -, h⟩
        · simp [bodyFaults, finishBits_raise h]
        · cases h
  | decStart n =>
    simp only [bodyOf, decStartBody] at h
    split at h
    · cases h
      simp [bodyFaults]
    · split at h
      · cases h
      · rcases Eff.bind_error.1 h with h | ⟨_, -, h⟩
        · exact absurd h pullBits_ne_raise
        · cases h
  | decSymbol =>
    rcases Eff.bind_error.1 h with h | ⟨_, -, h⟩
    · exact absurd h scaled_ne_raise
    · rcases Eff.bind_error.1 h with h | ⟨_, -, h⟩
      · exact absurd h findSymbol_ne_raise
      · rcases Eff.bind_error.1 h with h | ⟨_, -, h⟩
        · simp [bodyFaults, (obufAppend_raise.1 h).2]
        · rcases Eff.bind_error.1 h with h | ⟨_, -, h⟩
          · simp [bodyFaults, (narrow_raise h).1]
          · rcases Eff.bind_error.1 h with h | ⟨_, -, h⟩
            · exact absurd h decRenorm_ne_raise
            · exact absurd h countDown_ne_raise

end Sys2Proof.Machine
end

