-- ==== Sys2Proof/Laws/Append.lean ====
section
/-! SUPPORT. OBUF is written only by appending (20_memory R67, 41_bit_sink_source R151): what each operation leaves of
its other bytes. -/

namespace Sys2Proof.Machine

/-- OBUF_LEN went from one state's value to the other's, and no byte outside that range changed. -/
def Appended (s t : State) : Prop :=
  s.obufLen.toNat ≤ t.obufLen.toNat ∧
    ∀ k, ¬ (s.obufLen.toNat ≤ k ∧ k < t.obufLen.toNat) → obufByte t k = obufByte s k

theorem Appended.of_eq {s t : State} (h1 : t.obufLen = s.obufLen) (h2 : t.obuf = s.obuf) (h3 : t.draw = s.draw) :
    Appended s t := by
  refine ⟨by rw [h1], fun k _ => ?_⟩
  unfold obufByte
  rw [h2, h3]

theorem Appended.trans {s t u : State} (h : Appended s t) (k : Appended t u) : Appended s u := by
  obtain ⟨h1, h2⟩ := h
  obtain ⟨k1, k2⟩ := k
  refine ⟨by omega, fun i hi => ?_⟩
  rw [k2 i (by omega), h2 i (by omega)]

/-- The byte appended, and the others. -/
theorem appended_of_write {s t : State} {b : Byte} (hl : s.obufLen.toNat + 1 < 2 ^ 64)
    (ho : t.obuf = Memory.write s.obuf s.obufLen.toNat b) (hd : t.draw = s.draw) (hn : t.obufLen = s.obufLen + 1) :
    Appended s t := by
  have hs := obufLen_succ hl
  refine ⟨by rw [hn, hs]; omega, fun k hk => ?_⟩
  rw [hn, hs] at hk
  rw [obufByte_append ho hd, if_neg (by omega)]

theorem putBit_appended {b : Bool} {s t : State} (h : putBit b s = .ok t) : Appended s t := by
  obtain ⟨-, ⟨-, -, hl, rfl⟩ | ⟨-, rfl⟩⟩ := putBit_ok.1 h
  · exact appended_of_write hl rfl rfl rfl
  · exact .of_eq rfl rfl rfl

theorem putFollowed_appended {b : Bool} {n : Nat} {s t : State} (h : putFollowed b n s = .ok t) : Appended s t := by
  induction n generalizing s with
  | zero => cases h; exact .of_eq rfl rfl rfl
  | succ n ih =>
    obtain ⟨u, hu, h⟩ := Eff.bind_ok.1 h
    exact (putBit_appended hu).trans (ih h)

theorem flush_appended {s t : State} (h : flush s = .ok t) : Appended s t := by
  obtain ⟨-, rfl⟩ | ⟨-, -, -, hl, rfl⟩ := flush_ok.1 h
  · exact .of_eq rfl rfl rfl
  · exact appended_of_write hl rfl rfl rfl

theorem bitPlusFollow_appended {b : Bool} {s t : State} (h : bitPlusFollow b s = .ok t) : Appended s t := by
  obtain ⟨u, hu, v, hv, rfl⟩ := bitPlusFollow_ok h
  exact (putBit_appended hu).trans ((putFollowed_appended hv).trans (.of_eq rfl rfl rfl))

theorem encRenorm_appended {n : Nat} {s t : State} (h : encRenorm n s = .ok t) : Appended s t := by
  induction n generalizing s with
  | zero => cases h
  | succ n ih =>
    unfold encRenorm at h
    split at h
    · obtain ⟨u, hu, h⟩ := Eff.bind_ok.1 h
      exact (bitPlusFollow_appended hu).trans ((Appended.of_eq rfl rfl rfl).trans (ih (s := shift u) h))
    · obtain ⟨u, hu, h⟩ := Eff.bind_ok.1 h
      exact (bitPlusFollow_appended hu).trans
        ((Appended.of_eq rfl rfl rfl).trans (ih (s := shift (moveInterval half u)) h))
    · obtain ⟨v, -, h⟩ := Eff.bind_ok.1 h
      exact (Appended.of_eq rfl rfl rfl).trans
        (ih (s := shift (moveInterval quarter { s with follow := v })) h)
    · cases h
      exact .of_eq rfl rfl rfl

theorem encSymbolBody_appended {sym : Byte} {s t : State} (h : encSymbolBody sym s = .ok t) : Appended s t := by
  obtain ⟨-, u, hu, v, hv, n, -, rfl⟩ := encSymbolBody_ok h
  obtain ⟨-, -, -, -, hf⟩ := narrow_ok hu
  exact (Appended.of_eq (s := s) (t := u) (by rw [hf]) (by rw [hf]) (by rw [hf])).trans
    ((encRenorm_appended hv).trans (.of_eq rfl rfl rfl))

theorem finishBits_appended {s t : State} (h : finishBits s = .ok t) : Appended s t := by
  obtain ⟨n, -, u, hu, ht⟩ := finishBits_ok h
  exact (Appended.of_eq rfl rfl rfl).trans ((bitPlusFollow_appended hu).trans (flush_appended ht))

theorem encFinishBody_appended {s t : State} (h : encFinishBody s = .ok t) : Appended s t := by
  obtain ⟨-, ⟨-, rfl⟩ | ⟨-, u, hu, rfl⟩⟩ := encFinishBody_ok h
  · exact .of_eq rfl rfl rfl
  · exact (finishBits_appended hu).trans (.of_eq rfl rfl rfl)

theorem decSymbolBody_appended {s t : State} (h : decSymbolBody s = .ok t) : Appended s t := by
  obtain ⟨v, -, sym, -, p, hp, -⟩ := decSymbolBody_ok h
  obtain ⟨-, hl, -⟩ := obufAppend_ok.1 hp
  obtain ⟨sym, hf⟩ := decSymbolBody_frame h
  exact appended_of_write (b := sym) hl (by rw [hf]) (by rw [hf]) (by rw [hf])

end Sys2Proof.Machine
end

