-- ==== Sys2Proof/Laws/Invariant.lean ====
section
/-! SUPPORT. The machine's invariant under the commands: the parts of the invariant each kind of change keeps, what
DEC_SYMBOL does from every state of a decode session (43_range_decoder R225, R226), and that each body keeps the
invariant and has its meaning in every state that meets it (70_reset_and_hazards R321, R323). -/

namespace Sys2Proof.Machine

/-- The bound of the renormalization loops is enough from every LOW <= HIGH (R320). -/
theorem renormFuel_ok {s : State} (h : s.low ≤ s.high) : (2:Int) ^ 16 < width s * 2 ^ renormFuel := by
  have := width_pos h
  show (2:Int)^16 < width s * 2 ^ 17
  omega

/-- DEC_SYMBOL in a decode session with room in OBUF (R225, R226): it completes with the symbol whose narrowed interval
holds VALUE, a symbol of nonzero count. -/
theorem decSymbolBody_spec {s : State} (h : Inv s) (hs : s.session = .dec) (hroom : s.obufLen.toNat < s.cfg.obufCap) :
    ∃ (t : State) (sym : Byte), decSymbolBody s = .ok t ∧ narrowedLow sym s ≤ s.value.toNat ∧
      (s.value.toNat : Int) ≤ narrowedHigh sym s ∧ s.count[sym.toNat] ≠ 0 ∧ t.result = sym.setWidth 64 ∧
      obufByte t s.obufLen.toNat = sym ∧ Renormalized t.low t.high ∧ t.low ≤ t.value ∧ t.value ≤ t.high ∧
      SourceOk t := by
  have hb := h.sessionBuilt (.inr hs)
  have htab := h.tableOk hb
  obtain ⟨⟨h1, h2⟩, h3, h4⟩ := h.decoding hs
  have ht : 0 < s.total.toNat := by omega
  have hle := BitVec.le_trans h3 h4
  obtain ⟨q1, q2⟩ := scaledQuotient_range ht h3 h4
  obtain ⟨sym, hsym⟩ := findSymbol_total (v := (scaledQuotient s).toNat) htab.zero (by omega)
  obtain ⟨c1, c2⟩ := findSymbol_ok hsym
  obtain ⟨i1, i2⟩ := scaled_iff sym ht hle
  have n1 := i1.1 (by omega)
  have n2 := i2.1 (by omega)
  have hcap := h.cfgOk.2.2
  have hap := obufAppend_ok (b := sym) (s := s) (t := _) |>.2 ⟨hroom, by omega, rfl⟩
  generalize hp : ({ s with obuf := Memory.write s.obuf s.obufLen.toNat sym, obufLen := s.obufLen + 1 } : State)
      = p at hap
  generalize hp2 : ({ p with result := sym.setWidth 64 } : State) = p2
  have e : p2.low = s.low ∧ p2.high = s.high ∧ p2.value = s.value ∧ p2.cum = s.cum ∧ p2.count = s.count := by
    subst hp2
    subst hp
    simp
  obtain ⟨e1, e2, e3, e4, e5⟩ := e
  have enl : narrowedLow sym p2 = narrowedLow sym s := by unfold narrowedLow width cumLow State.total; rw [e1, e2, e4]
  have enh : narrowedHigh sym p2 = narrowedHigh sym s := by
    unfold narrowedHigh width cumHigh State.total
    rw [e1, e2, e4]
  rcases narrow_total sym (s := p2) (by rw [e4, e5]; exact htab) (by unfold State.total; rw [e4]; exact ht)
      (by rw [e1, e2]; exact hle) with ⟨-, q, hq⟩ | ⟨hn, -⟩
  · obtain ⟨-, -, g1, g2, g3⟩ := narrow_ok hq
    have f1 : q.value = s.value := by rw [g3]; exact e3
    have hk := h.toSourceOk
    have z1 : SourceOk q := by
      apply hk.congr <;> rw [g3] <;> subst hp2 <;> subst hp <;> rfl
    have z2 : q.low ≤ q.value := by rw [BitVec.le_def, f1]; omega
    have z3 : q.value ≤ q.high := by rw [BitVec.le_def, f1]; omega
    obtain ⟨r, hr, k1, k2, k3⟩ := decRenorm_total (n := renormFuel) (s := q) z1 z2 z3 (renormFuel_ok (narrow_le hq))
    · obtain ⟨hst, hfr⟩ := decRenorm_ok hr
      have hrem : r.remaining = s.remaining := by
        unfold DecOnly at hfr; rw [hfr, g3]; subst hp2; subst hp; rfl
      have hrem0 : s.remaining ≠ 0 := by intro hc; rw [hc] at h1; simp at h1
      have hcd : countDown r = .ok { r with
          remaining := r.remaining - 1
          session := if r.remaining = 1 then .idle else r.session } := by
        unfold countDown; rw [if_neg (by rw [hrem]; exact hrem0)]
      refine ⟨{ r with remaining := r.remaining - 1, session := if r.remaining = 1 then .idle else r.session }, sym,
          ?_, n1, n2, ?_, ?_, ?_, classify_stop.1 hst, k2, k3, ?_⟩
      · unfold decSymbolBody
        rw [scaled_eq ht h3 h4]
        simp only [Eff.ok_bind, hsym, hap, hp2, hq, hr]
        exact hcd
      · intro hc
        have := htab.succ sym.toNat sym.isLt
        rw [hc] at this
        unfold cumLow at c1; unfold cumHigh at c2
        simp at this; omega
      · unfold DecOnly at hfr; simp only; rw [hfr, g3]; subst hp2; rfl
      · unfold DecOnly at hfr
        show obufByte r _ = sym
        rw [obufByte_append (s := s) (b := sym) (by rw [hfr, g3]; subst hp2; subst hp; rfl)
          (by rw [hfr, g3]; subst hp2; subst hp; rfl)]
        simp
      · exact k1.congr rfl rfl rfl rfl
  · omega

/-- The invariant does not read RESULT or the host's side. -/
theorem Inv.congr {s t : State} (h : Inv s)
    (h1 : t = { s with result := t.result, pending := t.pending, readData := t.readData, draw := t.draw }) :
    Inv t := by
  rw [h1]
  obtain ⟨a1,a2,a3,a4,a5,a6,a7,a8,a9,a10,a11,a12,a13,a14,a15,a16,a17,a18,a19⟩ := h
  exact ⟨a1,a2,a3,a4,a5,a6,a7,a8,a9,a10,a11,a12,a13,a14,a15,a16,a17,a18,a19⟩

/-- Fault entry keeps the invariant (R264). -/
theorem Inv.fault {s : State} {c : FaultCode} {w : Word} (h : Inv s) (hc : c ≠ .none) : Inv (faultEntry c w s) := by
  obtain ⟨a1,a2,a3,a4,a5,a6,a7,a8,a9,a10,a11,a12,a13,a14,a15,a16,a17,a18,a19⟩ := h
  refine ⟨a1,a2,a3,a4,a5,a6,a7,a8,a9,a10,a11,a12,a13,?_,a15,?_,?_,?_,?_⟩ <;> simp [hc]

/-- Reset gives the invariant (R300). -/
theorem Inv.reset {s : State} (h : s.cfg.wf) : Inv (performReset s) := by
  refine ⟨h, ?_, ?_, ?_, ?_, ?_, ?_, ?_, ?_, ?_, ?_, ?_, ?_, ?_, ?_, ?_, ?_, ?_, ?_⟩ <;> simp [performReset,
      State.reset, Memory.wf]
  decide

/-- A change of the sink alone that leaves it sound keeps the invariant. -/
theorem Inv.sink {s t : State} (h : Inv s) (hk : SinkOk t) (hf : SinkOnly s t) : Inv t := by
  obtain ⟨a1,a2,a3,a4,a5,a6,a7,a8,a9,a10,a11,a12,a13,a14,a15,a16,a17,a18,a19⟩ := h
  obtain ⟨k1,k2,k3,k4,k5,k6⟩ := hk
  unfold SinkOnly at hf
  generalize t.acc = ta at hf
  generalize t.fill = tf at hf
  generalize t.obuf = tob at hf
  generalize t.obufLen = tl at hf
  subst hf
  exact ⟨a1,a2,k2,a4,k3,a6,k4,k5,k6,a10,a11,a12,a13,a14,a15,a16,a17,a18,a19⟩

/-- A change of the source alone that leaves it sound keeps the invariant. -/
theorem Inv.source {s t : State} (h : Inv s) (hk : SourceOk t) (hf : SourceOnly s t) : Inv t := by
  obtain ⟨a1,a2,a3,a4,a5,a6,a7,a8,a9,a10,a11,a12,a13,a14,a15,a16,a17,a18,a19⟩ := h
  obtain ⟨k1,k2,k3⟩ := hk
  unfold SourceOnly at hf
  generalize t.srcByte = t1 at hf
  generalize t.srcRem = t2 at hf
  generalize t.eoi = t3 at hf
  generalize t.ipos = t4 at hf
  subst hf
  exact ⟨a1,a2,a3,a4,a5,a6,a7,a8,a9,k1,k3,a12,a13,a14,a15,a16,a17,a18,a19⟩

/-- The interval of reset and of a session's start is renormalized (R42). -/
theorem reset_interval : Renormalized 0x0000 0xFFFF := by decide

/-- No fault code outside FAULTED (R37). -/
theorem Inv.faultCode_none {s : State} (h : Inv s) (hs : s.session ≠ .faulted) : s.faultCode = .none := by
  by_contra hc; exact hs (h.faultedOk.2 hc)

/-- Every body that completes keeps the invariant. -/
theorem bodyOf_inv {i : Instr} {s t : State} (hi : i ≠ .reset) (h : Inv s) (hs : s.session ≠ .faulted)
    (hl : legal i s.session s.built = true)
   (hb : bodyOf i s = .ok t) : Inv t := by
  have hcode := h.faultCode_none hs
  have h0 := h
  obtain ⟨a1,a2,a3,a4,a5,a6,a7,a8,a9,a10,a11,a12,a13,a14,a15,a16,a17,a18,a19⟩ := h0
  cases i with
  | reset => exact absurd rfl hi
  | nop => cases hb; exact h
  | modelClear =>
    simp [legal] at hl
    cases hb
    refine ⟨a1,a2,a3,a4,a5,a6,a7,a8,a9,a10,a11,?_,?_,?_,a15,?_,?_,a18,a19⟩ <;> simp [hl]
  | modelCount sym =>
    simp [legal] at hl
    have := modelCountBody_frame hb
    generalize t.count = c at this
    subst this
    refine ⟨a1,a2,a3,a4,a5,a6,a7,a8,a9,a10,a11,?_,a13,a14,a15,?_,?_,a18,a19⟩ <;> simp [hl]
  | modelSetCount sym n =>
    simp [legal] at hl
    have := modelSetCountBody_frame hb
    generalize t.count = c at this
    subst this
    refine ⟨a1,a2,a3,a4,a5,a6,a7,a8,a9,a10,a11,?_,a13,a14,a15,?_,?_,a18,a19⟩ <;> simp [hl]
  | modelBuild =>
    simp [legal] at hl
    cases hb
    refine ⟨a1,a2,a3,a4,a5,a6,a7,a8,a9,a10,a11,?_,?_,?_,a15,?_,?_,a18,a19⟩ <;> simp [hl]
  | modelReadCount => cases hb; exact h.congr rfl
  | modelReadCum => exact h.congr (by have e := modelReadCumBody_frame hb; generalize t.result = r at e; subst e; rfl)
  | modelFind => exact h.congr (by have e := modelFindBody_frame hb; generalize t.result = r at e; subst e; rfl)
  | bitReset =>
    cases hb
    refine ⟨a1,a2,a3,a4,a5,a6,?_,?_,?_,?_,?_,a12,a13,a14,a15,a16,a17,a18,a19⟩ <;> simp
  | bitPut b =>
    obtain ⟨c, -, hb⟩ := Eff.bind_ok.1 hb
    exact h.sink (putBit_spec h.toSinkOk hb).1 (putBit_sinkOnly hb)
  | bitPutn b n =>
    obtain ⟨c, -, hb⟩ := Eff.bind_ok.1 hb
    exact h.sink (putFollowed_spec h.toSinkOk hb).1 (putFollowed_sinkOnly hb)
  | bitFlush => exact h.sink (flush_spec h.toSinkOk hb).1 (flush_sinkOnly hb)
  | bitGet =>
    obtain ⟨g, hg, hb⟩ := Eff.bind_ok.1 hb
    cases hb
    exact Inv.congr (h.source (getBit_spec h.toSourceOk hg).1 (getBit_sourceOnly hg)) rfl
  | encStart =>
    simp [legal] at hl
    cases hb
    refine ⟨a1,a2,a3,a4,a5,a6,?_,?_,?_,a10,a11,a12,a13,?_,?_,?_,?_,?_,a19⟩ <;> simp [hl, hcode]
    exact reset_interval
  | encSymbol sym =>
    simp [legal] at hl
    have hf := encSymbolBody_frame hb
    obtain ⟨hne, u, hu, v, hv, n, hn, ht⟩ := encSymbolBody_ok hb
    obtain ⟨-, -, -, -, hfr⟩ := narrow_ok hu
    have hk : SinkOk u := h.toSinkOk.congr (by rw [hfr]) (by rw [hfr]) (by rw [hfr]) (by rw [hfr]) (by rw [hfr])
    obtain ⟨k1, bits, f, k2, k3, k4, k5⟩ := encRenorm_spec hk hv
    obtain ⟨hst, hve⟩ := encRenorm_ok hv
    have e1 : t.low = v.low := by rw [ht]
    have e2 : t.high = v.high := by rw [ht]
    have e3 : t.follow = v.follow := by rw [ht]
    have e4 : t.encCount = n := by rw [ht]
    have e5 : u.follow = s.follow := by rw [hfr]
    have e6 : v.encCount = s.encCount := by unfold EncOnly at hve; rw [hve, hfr]
    have hk' : SinkOk t := k1.congr (by rw [ht]) (by rw [ht]) (by rw [ht]) (by rw [ht]) (by rw [ht])
    have hint : Renormalized t.low t.high := by rw [e1, e2]; exact classify_stop.1 hst
    have henc : t.encCount.toNat ≤ s.total.toNat ∧ t.follow.toNat ≤ 16 * t.encCount.toNat := by
      rw [e3, e4]
      obtain ⟨n1, n2⟩ := fit_ok.1 hn
      obtain ⟨o1, o2⟩ := a16 hl
      rw [e5] at k4
      rw [e6] at n2
      have : s.encCount.toNat ≠ s.total.toNat := fun hh => hne (BitVec.eq_of_toNat_eq hh)
      simp only [renormFuel] at k3
      omega
    obtain ⟨k1,k2,k3,k4,k5,k6⟩ := hk'
    clear e1 e2 e3 e4 ht
    rw [hf] at hint henc k1 k2 k3 k4 k5 k6
    rw [hf]
    exact ⟨a1,a2,k2,a4,k3,a6,k4,k5,k6,a10,a11,a12,a13,a14,hint,fun _ => henc,by simp [hl],a18,a19⟩
  | encFinish =>
    simp [legal] at hl
    have hf := encFinishBody_frame hb
    have hk' : SinkOk t := by
      obtain ⟨-, ⟨-, rfl⟩ | ⟨-, u, hu, rfl⟩⟩ := encFinishBody_ok hb
      · exact h.toSinkOk.congr rfl rfl rfl rfl rfl
      · obtain ⟨n, -, v, hv, hu⟩ := finishBits_ok hu
        have hk : SinkOk { s with follow := n } := h.toSinkOk.congr rfl rfl rfl rfl rfl
        exact (flush_spec (bitPlusFollow_spec hk hv).1 hu).1.congr rfl rfl rfl rfl rfl
    obtain ⟨k1,k2,k3,k4,k5,k6⟩ := hk'
    rw [hf] at k1 k2 k3 k4 k5 k6
    rw [hf]
    refine ⟨a1,a2,k2,a4,k3,a6,k4,k5,k6,a10,a11,a12,a13,?_,a15,?_,?_,?_,a19⟩ <;> simp [hcode]
  | decStart n =>
    simp [legal] at hl
    obtain ⟨hn, ⟨hz, rfl⟩ | ⟨hz, u, hu, rfl⟩⟩ := decStartBody_ok hb
    · refine ⟨a1,a2,a3,a4,a5,a6,?_,?_,a9,?_,?_,a12,a13,?_,?_,?_,?_,?_,a19⟩ <;> simp [hl, hcode]
      exact reset_interval
    · have hk : SourceOk { decStartInit n s with value := 0 } := ⟨by simp [decStartInit, sourceReset], h.ibufLenOk,
        by simp [decStartInit, sourceReset]⟩
      obtain ⟨⟨k1,k2,k3⟩, -⟩ := pullBits_spec hk hu
      have hf := pullBits_valueOnly hu
      unfold ValueOnly at hf
      rw [hf] at k1 k2 k3 
      rw [hf]
      refine ⟨a1,a2,a3,a4,a5,a6,?_,?_,a9,k1,k3,a12,a13,?_,?_,?_,?_,?_,a19⟩ <;> simp [hl, hcode]
      · exact reset_interval
      · have : n.toNat ≠ 0 := fun hh => hz (BitVec.eq_of_toNat_eq hh)
        have := n.isLt
        refine ⟨⟨by omega, ?_⟩, ?_⟩
        · simp only [State.total] at hn
          show n.toNat % _ ≤ s.cum[256].toNat
          omega
        · constructor
          · rw [BitVec.le_def]; show 0 ≤ _; omega
          · show u.value ≤ 0xFFFF
            have := u.value.isLt
            rw [BitVec.le_def]; show _ ≤ 65535; omega
  | decSymbol =>
    simp [legal] at hl
    obtain ⟨sy, hf⟩ := decSymbolBody_frame hb
    have hroom : s.obufLen.toNat < s.cfg.obufCap := by
      obtain ⟨v, -, sym, -, p, hp, -⟩ := decSymbolBody_ok hb
      exact (obufAppend_ok.1 hp).1
    obtain ⟨t', sym, c1, c2, c3, c4, c5, c6, c7, c8, c9, c10⟩ := decSymbolBody_spec h hl hroom
    have : bodyOf .decSymbol s = decSymbolBody s := rfl
    rw [this, c1] at hb
    cases hb
    have hsy : SinkOk { s with obuf := Memory.write s.obuf s.obufLen.toNat sy, obufLen := s.obufLen + 1 } :=
      h.toSinkOk.append hroom rfl rfl rfl h.sinkOk
    obtain ⟨k1,k2,k3,k4,k5,k6⟩ := hsy
    obtain ⟨m1,m2,m3⟩ := c10
    obtain ⟨⟨o1, o2⟩, o3⟩ := a17 hl
    clear c1
    rw [hf] at c7 c8 c9 m1 m2 m3
    rw [hf]
    have hsr : (s.remaining - 1).toNat = s.remaining.toNat - 1 := by rw [BitVec.toNat_sub]; simp; omega
    refine ⟨a1,a2,k2,a4,k3,a6,k4,k5,k6,m1,m3,a12,a13,?_,c7,?_,?_,?_,a19⟩
    · intro _; exact a14 (.inr hl)
    · simp only; split <;> simp [hl]
    · simp only; split
      · simp
      · rename_i hr1
        intro _
        have : s.remaining.toNat ≠ 1 := fun hh => hr1 (BitVec.eq_of_toNat_eq hh)
        refine ⟨⟨by omega, ?_⟩, c8, c9⟩
        simp only [State.total] at o2 ⊢
        omega
    · simp only [hcode]; split <;> simp [hl]

/-- Every command keeps the invariant. -/
theorem exec_inv {i : Instr} {s t : State} (h : Inv s) (he : exec i s = .next t) : Inv t := by
  rcases exec_next he with ⟨rfl, rfl⟩ | ⟨_, h1, rfl⟩ | ⟨_, _, h1, rfl⟩ | ⟨hi, hs, hl, h1⟩ | ⟨hi, _, _, c, h1, rfl⟩
  · exact Inv.reset h.cfgOk
  · exact h
  · exact Inv.fault h (by simp)
  · exact bodyOf_inv hi h hs hl h1
  · refine Inv.fault h ?_
    have := bodyOf_raise hi h1
    rintro rfl
    cases i <;> simp [bodyFaults] at this

/-- Every legal body has its meaning: it completes, or raises a fault of the core (R323). -/
theorem bodyOf_total {i : Instr} {s : State} (hi : i ≠ .reset) (h : Inv s)
    (hl : legal i s.session s.built = true) :
   (∃ t, bodyOf i s = .ok t) ∨ ∃ c, bodyOf i s = raiseFault c := by
  cases i with
  | reset => exact absurd rfl hi
  | nop => exact .inl ⟨_, rfl⟩
  | modelClear => exact .inl ⟨_, rfl⟩
  | modelCount sym => simp only [bodyOf, modelCountBody]; split <;> simp
  | modelSetCount sym n => simp only [bodyOf, modelSetCountBody, countOperand]; split <;> simp
  | modelBuild => exact .inl ⟨_, rfl⟩
  | modelReadCount => exact .inl ⟨_, rfl⟩
  | modelReadCum => simp only [bodyOf, modelReadCumBody, indexOperand]; split <;> simp
  | modelFind v =>
    have hb : s.built = true := by
      simp [legal] at hl
      rcases hl with (⟨_, h1⟩ | h1) | h1
      · exact h1
      · exact h.sessionBuilt (.inl h1)
      · exact h.sessionBuilt (.inr h1)
    simp only [bodyOf, modelFindBody, findOperand]; split
    · simp
    · obtain ⟨sym, hf⟩ := findSymbol_total (v := v.toNat) (h.tableOk hb).zero (by omega)
      simp [hf]
  | bitReset => exact .inl ⟨_, rfl⟩
  | bitPut b =>
    simp only [bodyOf, bitPutBody, bitOperand]; split
    · simp
    · rcases putBit_total (b.toNat == 1) h.toSinkOk with ⟨t, ht⟩ | ⟨ht, -⟩ <;> simp [ht]
  | bitPutn b n =>
    simp only [bodyOf, bitPutnBody, bitOperand]; split
    · simp
    · rcases putFollowed_total (b.toNat == 1) n.toNat h.toSinkOk with ⟨-, t, ht⟩ | ⟨-, ht⟩ <;> simp [ht]
  | bitFlush =>
    rcases flush_total h.toSinkOk with ⟨t, ht⟩ | ⟨ht, -⟩ <;> simp [bodyOf, ht]
  | bitGet =>
    obtain ⟨g, hg⟩ := getBit_total h.sourceOk h.ibufLenOk
    simp [bodyOf, bitGetBody, hg]
  | encStart => exact .inl ⟨_, rfl⟩
  | encSymbol sym =>
    simp [legal] at hl
    have hb := h.sessionBuilt (.inl hl)
    have htab := h.tableOk hb
    obtain ⟨o1, o2⟩ := h.encoding hl
    simp only [bodyOf, encSymbolBody]; split
    · simp
    · rename_i hne
      have hne : s.encCount.toNat ≠ s.total.toNat := fun hh => hne (BitVec.eq_of_toNat_eq hh)
      have hbd := htab.bound
      rcases narrow_total sym htab (by omega) h.interval.width_ge.1 with ⟨-, u, hu⟩ | ⟨-, hu⟩
      · have hle := narrow_le hu
        obtain ⟨-, -, -, -, hfr⟩ := narrow_ok hu
        have hk : SinkOk u := h.toSinkOk.congr (by rw [hfr]) (by rw [hfr]) (by rw [hfr]) (by rw [hfr]) (by rw [hfr])
        have g1 : u.follow = s.follow := by rw [hfr]
        rcases encRenorm_total hk hle (renormFuel_ok hle)
          (by rw [g1]; simp only [renormFuel]; simp only [State.total] at *; omega) with ⟨v, hv⟩ | ⟨hv, -⟩
        · obtain ⟨-, hve⟩ := encRenorm_ok hv
          have g6 : v.encCount = s.encCount := by unfold EncOnly at hve; rw [hve, hfr]
          simp [hu, hv, fit_of_lt (w := 64) (n := v.encCount.toNat + 1)
            (by rw [g6]; simp only [State.total] at *; omega)]
        · simp [hu, hv]
      · simp [hu]
  | encFinish =>
    simp [legal] at hl
    have hb := h.sessionBuilt (.inl hl)
    have htab := h.tableOk hb
    obtain ⟨o1, o2⟩ := h.encoding hl
    have hbd := htab.bound
    simp only [bodyOf, encFinishBody]; split
    · simp
    · split
      · simp
      · have hfit : fit 64 (s.follow.toNat + 1) = .ok (BitVec.ofNat 64 (s.follow.toNat + 1)) := fit_of_lt
          (by simp only [State.total] at *; omega)
        have hk : SinkOk { s with follow := BitVec.ofNat 64 (s.follow.toNat + 1) }
            := h.toSinkOk.congr rfl rfl rfl rfl rfl
        unfold finishBits
        rcases bitPlusFollow_total (decide (quarter ≤ s.low)) hk with ⟨u, hu⟩ | ⟨hu, -⟩
        · rcases flush_total (bitPlusFollow_spec hk hu).1 with ⟨t, ht⟩ | ⟨ht, -⟩ <;> simp [hfit, hu, ht]
        · simp [hfit, hu]
  | decStart n =>
    have hk : SourceOk { decStartInit n s with value := 0 } := ⟨by simp [decStartInit, sourceReset], h.ibufLenOk,
        by simp [decStartInit, sourceReset]⟩
    obtain ⟨u, hu⟩ := pullBits_total 16 hk
    simp only [bodyOf, decStartBody]; split
    · simp
    · split
      · simp
      · rw [show valueFill (decStartInit n s) = .ok u from hu]; exact .inl ⟨_, rfl⟩
  | decSymbol =>
    simp [legal] at hl
    have hb := h.sessionBuilt (.inr hl)
    rcases Nat.lt_or_eq_of_le h.obufLenOk with hr | hr
    · obtain ⟨t, _, ht, _⟩ := decSymbolBody_spec h hl hr
      exact .inl ⟨t, ht⟩
    · right
      obtain ⟨⟨h1, h2⟩, h3, h4⟩ := h.decoding hl
      have ht : 0 < s.total.toNat := by omega
      obtain ⟨q1, q2⟩ := scaledQuotient_range ht h3 h4
      obtain ⟨sym, hsym⟩ := findSymbol_total (v := (scaledQuotient s).toNat) (h.tableOk hb).zero (by omega)
      refine ⟨.outputOverflow, ?_⟩
      simp [bodyOf, decSymbolBody, scaled_eq ht h3 h4, hsym, obufAppend_raise.2 ⟨hr, rfl⟩]

end Sys2Proof.Machine
end

