-- ==== Sys2Proof/Laws/Lockstep.lean ====
section
/-! SUPPORT. The encoder and the decoder in lockstep (43_range_decoder R226, R227): the bits the encoder is still to
emit, read as the decoder reads them, lie in the encoder's interval, and each renormalization moves both alike. -/

namespace Sys2Proof.Machine

/-! ### Bits as numbers -/

/-- The first `n` bits, padded with zeros, as a number. -/
def window (bits : List Bool) : Nat → Nat
  | 0 => 0
  | n + 1 => 2 * window bits n + (bits.getD n false).toNat

theorem window_cons (b : Bool) (bits : List Bool) (n : Nat) :
    window (b :: bits) (n + 1) = b.toNat * 2 ^ n + window bits n := by
  induction n with
  | zero => simp [window]
  | succ n ih =>
    rw [window, ih, window, pow_succ, List.getD_cons_succ]
    ring

theorem window_replicate (b : Bool) (k n : Nat) (bits : List Bool) :
    (window (List.replicate k b ++ bits) (k + n) : Int) = b.toNat * (2 ^ k - 1) * 2 ^ n + window bits n := by
  induction k with
  | zero => simp
  | succ k ih =>
    rw [List.replicate_succ, List.cons_append, show k + 1 + n = (k + n) + 1 by omega, window_cons]
    push_cast
    rw [ih, pow_succ, pow_add]
    ring

theorem window_lt (bits : List Bool) (n : Nat) : window bits n < 2 ^ n := by
  induction n with
  | zero => exact Nat.one_pos
  | succ n ih =>
    have := (bits.getD n false).toNat_lt
    rw [window, pow_succ]
    omega

/-- What the decoder's VALUE is where the encoder's FOLLOW is `follow` and `bits` are the encoder's bits still to come:
each pending middle fire has taken QUARTER from it and doubled it. -/
def aheadValue (follow : Nat) (bits : List Bool) : Int :=
  window bits (16 + follow) - 2 ^ 15 * (2 ^ follow - 1)

/-- The bits still to come, as VALUE, lie in the encoder's interval. -/
def Ahead (s : State) (bits : List Bool) : Prop :=
  (s.low.toNat : Int) ≤ aheadValue s.follow.toNat bits ∧ aheadValue s.follow.toNat bits ≤ s.high.toNat

/-- The decoder `d` stands where the encoder `s` stood with `bits` still to come. -/
def Tracks (d s : State) (bits : List Bool) : Prop :=
  SourceOk d ∧ d.low = s.low ∧ d.high = s.high ∧ (d.value.toNat : Int) = aheadValue s.follow.toNat bits ∧
    inputBits d = bits.drop (16 + s.follow.toNat)

/-- After a bit and its FOLLOW opposite bits, what follows is read with FOLLOW = 0, one bit higher. -/
theorem aheadValue_emitted (b : Bool) (follow : Nat) (bits : List Bool) :
    aheadValue follow (b :: List.replicate follow (!b) ++ bits) = 2 ^ 15 * b.toNat + window bits 15 := by
  unfold aheadValue
  rw [show 16 + follow = (follow + 15) + 1 by omega, List.cons_append, window_cons]
  push_cast
  rw [window_replicate, pow_add]
  cases b <;> simp <;> ring

theorem aheadValue_zero (bits : List Bool) :
    aheadValue 0 bits = 2 * window bits 15 + (bits.getD 15 false).toNat := by
  simp [aheadValue, window]

theorem aheadValue_succ (follow : Nat) (bits : List Bool) :
    aheadValue (follow + 1) bits =
      2 * (aheadValue follow bits - 2 ^ 14) + (bits.getD (16 + follow) false).toNat := by
  unfold aheadValue
  rw [show 16 + (follow + 1) = (16 + follow) + 1 by omega, window, pow_succ]
  push_cast
  ring

/-! ### One bit of the decoder -/

/-- Reading the next bit of the input into a value below HALF. -/
theorem pullBit_drop {d : State} {bits : List Bool} {k : Nat} (h : SourceOk d) (hv : d.value.toNat < 0x8000)
    (hi : inputBits d = bits.drop k) :
    ∃ t, pullBit d = .ok t ∧ SourceOk t ∧ inputBits t = bits.drop (k + 1) ∧ t.low = d.low ∧ t.high = d.high ∧
      t.value.toNat = 2 * d.value.toNat + (bits.getD k false).toNat := by
  obtain ⟨t, ht⟩ := pullBit_total h
  obtain ⟨k1, k2, k3, -⟩ := pullBit_spec h ht
  have hfr := pullBit_valueOnly ht
  unfold ValueOnly at hfr
  refine ⟨t, ht, k1, ?_, by rw [hfr], by rw [hfr], ?_⟩
  · rw [k2, hi, List.tail_drop]
  · rw [k3, hi, List.head?_drop, List.getD_eq_getElem?_getD]
    exact shiftedValue hv

/-- Reading bits one by one into a VALUE that starts at 0 (R221). -/
theorem pullBits_window {n k : Nat} {d : State} {bits : List Bool} (h : SourceOk d) (hk : k + n ≤ 16)
    (hv : d.value.toNat = window bits k) (hi : inputBits d = bits.drop k) :
    ∃ t, pullBits n d = .ok t ∧ SourceOk t ∧ inputBits t = bits.drop (k + n) ∧ t.low = d.low ∧ t.high = d.high ∧
      t.value.toNat = window bits (k + n) := by
  induction n generalizing k d with
  | zero => exact ⟨d, rfl, h, hi, rfl, rfl, hv⟩
  | succ n ih =>
    have hlt : window bits k < 2 ^ 15 := lt_of_lt_of_le (window_lt bits k) (Nat.pow_le_pow_right (by omega) (by omega))
    obtain ⟨p, p1, p2, p3, p4, p5, p6⟩ := pullBit_drop h (by omega) hi
    obtain ⟨t, t1, t2, t3, t4, t5, t6⟩ := ih (k := k + 1) p2 (by omega) (by rw [p6, hv]; rfl) p3
    refine ⟨t, Eff.bind_ok.2 ⟨p, p1, t1⟩, t2, ?_, t4.trans p4, t5.trans p5, ?_⟩
    · rw [t3]; congr 1; omega
    · rw [t6]; congr 1; omega

/-! ### Renormalization -/

/-- The encoder's renormalization, read backwards, and the decoder's, read forwards (R186, R223): where the bits to come
after it lie in the interval after it, the bits to come before it lie in the interval before it, and a decoder that
tracks the encoder before it renormalizes into one that tracks it after. -/
theorem encRenorm_lockstep {n : Nat} {s t : State} (h : SinkOk s) (hle : s.low ≤ s.high)
    (hp : encRenorm n s = .ok t) (bits : List Bool) (hb : Ahead t bits) :
    ∃ before, outputBits t ++ bits = outputBits s ++ before ∧ Ahead s before ∧
      ∀ d, Tracks d s before → ∃ u, decRenorm n d = .ok u ∧ Tracks u t bits := by
  induction n generalizing s with
  | zero => cases hp
  | succ n ih =>
    unfold encRenorm at hp
    split at hp
    · -- LOWER
      rename_i hc
      obtain ⟨v, hv, hp⟩ := Eff.bind_ok.1 hp
      obtain ⟨k1, k2, -⟩ := bitPlusFollow_spec h hv
      have hfr := bitPlusFollow_frame hv
      have e1 : v.low = s.low := by rw [hfr]
      have e2 : v.high = s.high := by rw [hfr]
      have hc' : classify v.low v.high = .lower := by rw [e1, e2]; exact hc
      have hle' : v.low ≤ v.high := by rw [e1, e2]; exact hle
      obtain ⟨f1, f2⟩ := lower_fire hc' hle'
      have hhi := classify_lower hc
      have hfo : (shift v).follow.toNat = 0 := by rw [shift_follow, bitPlusFollow_follow hv]; rfl
      obtain ⟨rest, r1, ⟨r2, r3⟩, r4⟩ :=
        ih (s := shift v) (k1.congr rfl rfl rfl rfl rfl) ((fire_width hle').1 hc').1 hp
      have ho : outputBits (shift v) = outputBits v := outputBits_congr rfl rfl rfl rfl rfl
      rw [hfo, aheadValue_zero] at r2 r3
      have hz := aheadValue_emitted false s.follow.toNat rest
      have hbit := (rest.getD 15 false).toNat_lt
      simp only [Bool.toNat_false, Nat.cast_zero, mul_zero, zero_add] at hz
      rw [f1, e1] at r2
      rw [f2, e2] at r3
      refine ⟨false :: List.replicate s.follow.toNat (!false) ++ rest, ?_, ⟨?_, ?_⟩, ?_⟩
      · rw [r1, ho, k2, List.append_assoc]
      · rw [hz]; omega
      · rw [hz]; omega
      · rintro d ⟨d1, d2, d3, d4, d5⟩
        rw [hz] at d4
        have hcd : classify d.low d.high = .lower := by rw [d2, d3]; exact hc
        have hd15 : inputBits (shift d) = rest.drop 15 := by
          have : inputBits (shift d) = inputBits d := inputBits_congr rfl rfl rfl rfl rfl rfl
          rw [this, d5, show 16 + s.follow.toNat = (false :: List.replicate s.follow.toNat (!false)).length + 15 by
            simp; omega, List.drop_length_add_append]
        obtain ⟨g1, g2⟩ := lower_fire hcd (by rw [d2, d3]; exact hle)
        have hdv : (shift d).value.toNat < 0x8000 := by
          rw [shift_value]
          have := window_lt rest 15
          omega
        obtain ⟨p, p1, p2, p3, p4, p5, p6⟩ := pullBit_drop (d := shift d) (d1.congr rfl rfl rfl rfl) hdv hd15
        obtain ⟨u, u1, u2⟩ := r4 p ⟨p2, by
            rw [p4]; apply BitVec.eq_of_toNat_eq; rw [g1, f1, d2, e1], by
            rw [p5]; apply BitVec.eq_of_toNat_eq; rw [g2, f2, d3, e2], by
            rw [p6, hfo, aheadValue_zero, shift_value]; push_cast; omega, by
            rw [p3, hfo]⟩
        refine ⟨u, ?_, u2⟩
        unfold decRenorm
        rw [hcd]
        simp only
        rw [p1]
        exact u1
    · -- UPPER
      rename_i hc
      obtain ⟨v, hv, hp⟩ := Eff.bind_ok.1 hp
      obtain ⟨k1, k2, -⟩ := bitPlusFollow_spec h hv
      have hfr := bitPlusFollow_frame hv
      have e1 : v.low = s.low := by rw [hfr]
      have e2 : v.high = s.high := by rw [hfr]
      have hc' : classify v.low v.high = .upper := by rw [e1, e2]; exact hc
      have hle' : v.low ≤ v.high := by rw [e1, e2]; exact hle
      obtain ⟨f1, f2⟩ := upper_fire hc'
      have hhi := classify_upper hc
      have hfo : (shift (moveInterval half v)).follow.toNat = 0 := by
        rw [shift_follow, moveInterval_follow, bitPlusFollow_follow hv]; rfl
      obtain ⟨rest, r1, ⟨r2, r3⟩, r4⟩ :=
        ih (s := shift (moveInterval half v)) (k1.congr rfl rfl rfl rfl rfl) ((fire_width hle').2.1 hc').1 hp
      have ho : outputBits (shift (moveInterval half v)) = outputBits v := outputBits_congr rfl rfl rfl rfl rfl
      rw [hfo, aheadValue_zero] at r2 r3
      have hz := aheadValue_emitted true s.follow.toNat rest
      have hbit := (rest.getD 15 false).toNat_lt
      simp only [Bool.toNat_true, Nat.cast_one, mul_one] at hz
      rw [f1, e1] at r2
      rw [f2, e2] at r3
      refine ⟨true :: List.replicate s.follow.toNat (!true) ++ rest, ?_, ⟨?_, ?_⟩, ?_⟩
      · rw [r1, ho, k2, List.append_assoc]
      · rw [hz]; omega
      · rw [hz]; omega
      · rintro d ⟨d1, d2, d3, d4, d5⟩
        rw [hz] at d4
        have hcd : classify d.low d.high = .upper := by rw [d2, d3]; exact hc
        have hd15 : inputBits (shift (moveAll half d)) = rest.drop 15 := by
          have : inputBits (shift (moveAll half d)) = inputBits d := inputBits_congr rfl rfl rfl rfl rfl rfl
          rw [this, d5, show 16 + s.follow.toNat = (true :: List.replicate s.follow.toNat (!true)).length + 15 by
            simp; omega, List.drop_length_add_append]
        obtain ⟨g1, g2⟩ := upper_fire hcd
        have hmv : (d.value - half).toNat = d.value.toNat - 0x8000 :=
          movedValue (d := half) (by rw [half_toNat]; omega)
        have hdv : (shift (moveAll half d)).value.toNat = d.value.toNat - 0x8000 := by
          rw [shift_value, moveAll_value, hmv]
        have hw := window_lt rest 15
        obtain ⟨p, p1, p2, p3, p4, p5, p6⟩ :=
          pullBit_drop (d := shift (moveAll half d)) (d1.congr rfl rfl rfl rfl) (by rw [hdv]; omega) hd15
        obtain ⟨u, u1, u2⟩ := r4 p ⟨p2, by
            rw [p4]; apply BitVec.eq_of_toNat_eq
            change (shift (moveInterval half d)).low.toNat = _
            rw [g1, f1, d2, e1], by
            rw [p5]; apply BitVec.eq_of_toNat_eq
            change (shift (moveInterval half d)).high.toNat = _
            rw [g2, f2, d3, e2], by
            rw [p6, hfo, aheadValue_zero, hdv]; push_cast; omega, by
            rw [p3, hfo]⟩
        refine ⟨u, ?_, u2⟩
        unfold decRenorm
        rw [hcd]
        simp only
        rw [p1]
        exact u1
    · -- MIDDLE
      rename_i hc
      obtain ⟨w, hw, hp⟩ := Eff.bind_ok.1 hp
      obtain ⟨-, hw⟩ := fit_ok.1 hw
      obtain ⟨f1, f2⟩ := middle_fire hc
      have hhi := classify_middle hc
      have hfo : (shift (moveInterval quarter { s with follow := w })).follow.toNat = s.follow.toNat + 1 := by
        rw [shift_follow, moveInterval_follow]; exact hw
      obtain ⟨rest, r1, ⟨r2, r3⟩, r4⟩ :=
        ih (s := shift (moveInterval quarter { s with follow := w })) (h.congr rfl rfl rfl rfl rfl)
          ((fire_width hle).2.2 hc).1 hp
      have ho : outputBits (shift (moveInterval quarter { s with follow := w })) = outputBits s :=
        outputBits_congr rfl rfl rfl rfl rfl
      have hbit := (rest.getD (16 + s.follow.toNat) false).toNat_lt
      have g1 : (shift (moveInterval quarter { s with follow := w })).low.toNat = 2 * (s.low.toNat - 0x4000) := f1
      have g2 : (shift (moveInterval quarter { s with follow := w })).high.toNat =
        2 * (s.high.toNat - 0x4000) + 1 := f2
      rw [hfo, aheadValue_succ, g1] at r2
      rw [hfo, aheadValue_succ, g2] at r3
      refine ⟨rest, by rw [r1, ho], ⟨by omega, by omega⟩, ?_⟩
      rintro d ⟨d1, d2, d3, d4, d5⟩
      have hcd : classify d.low d.high = .middle := by rw [d2, d3]; exact hc
      have hdi : inputBits (shift (moveAll quarter d)) = rest.drop (16 + s.follow.toNat) := by
        have : inputBits (shift (moveAll quarter d)) = inputBits d := inputBits_congr rfl rfl rfl rfl rfl rfl
        rw [this, d5]
      obtain ⟨h1, h2⟩ := middle_fire hcd
      have hmv : (d.value - quarter).toNat = d.value.toNat - 0x4000 :=
        movedValue (d := quarter) (by rw [quarter_toNat]; omega)
      have hdv : (shift (moveAll quarter d)).value.toNat = d.value.toNat - 0x4000 := by
        rw [shift_value, moveAll_value, hmv]
      obtain ⟨p, p1, p2, p3, p4, p5, p6⟩ :=
        pullBit_drop (d := shift (moveAll quarter d)) (d1.congr rfl rfl rfl rfl) (by rw [hdv]; omega) hdi
      obtain ⟨u, u1, u2⟩ := r4 p ⟨p2, by
          rw [p4]; apply BitVec.eq_of_toNat_eq
          change (shift (moveInterval quarter d)).low.toNat = _
          rw [h1, g1, d2], by
          rw [p5]; apply BitVec.eq_of_toNat_eq
          change (shift (moveInterval quarter d)).high.toNat = _
          rw [h2, g2, d3], by
          rw [p6, hfo, aheadValue_succ, hdv]; push_cast; omega, by
          rw [p3, hfo]; rfl⟩
      refine ⟨u, ?_, u2⟩
      unfold decRenorm
      rw [hcd]
      simp only
      rw [p1]
      exact u1
    · -- STOP
      rename_i hc
      cases hp
      refine ⟨bits, rfl, hb, fun d hd => ⟨d, ?_, hd⟩⟩
      unfold decRenorm
      rw [hd.2.1, hd.2.2.1, hc]

/-- The bits ENC_FINISH emits lie in the interval it finishes, whatever zeros follow them (R189). -/
theorem finalBits_ahead {s : State} (h : Renormalized s.low s.high) (pad : Nat) :
    Ahead s (finalBits s ++ List.replicate pad false) := by
  have hz : ∀ k n : Nat, window (List.replicate k false) n = 0 := by
    intro k n
    induction n with
    | zero => rfl
    | succ n ih =>
      rw [window, ih]
      have : (List.replicate k false).getD n false = false := by
        rw [List.getD_eq_getElem?_getD, List.getElem?_replicate]
        split <;> rfl
      rw [this]
      rfl
  obtain ⟨h1, h2, -⟩ := h
  rw [BitVec.lt_def, half_toNat] at h1
  rw [BitVec.le_def, half_toNat] at h2
  have key : ∀ b : Bool, aheadValue s.follow.toNat (b :: List.replicate (s.follow.toNat + 1) (!b)
      ++ List.replicate pad false) =
      2 ^ 15 * b.toNat + 2 ^ 14 * (!b).toNat := by
    intro b
    rw [List.replicate_succ', List.cons_append, List.append_assoc, List.singleton_append, ← List.cons_append,
      aheadValue_emitted, show (15 : Nat) = 14 + 1 by rfl, window_cons, hz]
    push_cast
    ring
  have hkey := key (decide (quarter ≤ s.low))
  have hbits : finalBits s = decide (quarter ≤ s.low) :: List.replicate (s.follow.toNat + 1) (!decide
      (quarter ≤ s.low)) := by
    unfold finalBits
    congr 2
    rw [← decide_not, decide_eq_decide, BitVec.not_le]
  unfold Ahead
  rw [hbits, hkey]
  by_cases hq : quarter ≤ s.low
  · rw [decide_eq_true hq]
    simp only [Bool.toNat_true, Bool.not_true, Bool.toNat_false]
    omega
  · rw [decide_eq_false hq]
    rw [BitVec.le_def, quarter_toNat] at hq
    simp only [Bool.toNat_false, Bool.not_false, Bool.toNat_true]
    omega

/-! ### Commands -/

/-- One symbol (R188, R225): the decoder that tracks the encoder before it decodes that symbol and tracks it after. -/
theorem encSymbolBody_lockstep {s t : State} {sym : Byte} {bits : List Bool} (h : Inv s) (hs : s.session = .enc)
    (hp : encSymbolBody sym s = .ok t) (hb : Ahead t bits) :
    ∃ before, outputBits t ++ bits = outputBits s ++ before ∧ Ahead s before ∧
      ∀ d, Inv d → d.session = .dec → d.cum = s.cum → Tracks d s before → d.obufLen.toNat < d.cfg.obufCap →
        ∃ u, decSymbolBody d = .ok u ∧ Tracks u t bits ∧ obufByte u d.obufLen.toNat = sym := by
  have htab := h.tableOk (h.sessionBuilt (.inl hs))
  obtain ⟨hne, u, hu, v, hv, n, hn, rfl⟩ := encSymbolBody_ok hp
  obtain ⟨hz, n1, n2, n3, hfr⟩ := narrow_ok hu
  have hk : SinkOk u := h.toSinkOk.congr (by rw [hfr]) (by rw [hfr]) (by rw [hfr]) (by rw [hfr]) (by rw [hfr])
  have g1 : u.follow = s.follow := by rw [hfr]
  have htp : 0 < s.total.toNat := by
    rcases Nat.eq_zero_or_pos s.total.toNat with h0 | h0
    · exact absurd (BitVec.eq_of_toNat_eq h0) hz
    · exact h0
  obtain ⟨before, b1, ⟨b2, b3⟩, b4⟩ := encRenorm_lockstep hk (narrow_le hu) hv bits hb
  obtain ⟨c1, c2⟩ := narrow_bounds (sym := sym) htab htp h.interval.width_ge.1
  have ho : outputBits u = outputBits s := outputBits_congr (by rw [hfr]) (by rw [hfr]) (by rw [hfr]) (by rw [hfr])
      (by rw [hfr])
  rw [g1] at b2 b3
  refine ⟨before, by rw [← ho, ← b1]; congr 1, ⟨by omega, by omega⟩, ?_⟩
  rintro d hd hds hcum ⟨t1, t2, t3, t4, t5⟩ hroom
  have hdtab := hd.tableOk (hd.sessionBuilt (.inr hds))
  obtain ⟨u', sym', k1, k2, k3, k4, k5, k6, k7, k8, k9, k10⟩ := decSymbolBody_spec hd hds hroom
  have eq1 : ∀ x, narrowedLow x d = narrowedLow x s := by
    intro x
    unfold narrowedLow width cumLow State.total
    rw [t2, t3, hcum]
  have eq2 : ∀ x, narrowedHigh x d = narrowedHigh x s := by
    intro x
    unfold narrowedHigh width cumHigh State.total
    rw [t2, t3, hcum]
  have hdt : 0 < d.total.toNat := by unfold State.total; rw [hcum]; exact htp
  have hdle : d.low ≤ d.high := hd.interval.width_ge.1
  obtain ⟨i1, i2⟩ := scaled_iff sym hdt hdle
  obtain ⟨j1, j2⟩ := scaled_iff sym' hdt hdle
  have q1 := i1.2 (by rw [eq1]; omega)
  have q2 := i2.2 (by rw [eq2]; omega)
  have q3 := j1.2 k2
  have q4 := j2.2 k3
  have hsym : sym = sym' := BitVec.eq_of_toNat_eq (hdtab.unique (v := (scaledQuotient d).toNat) sym.isLt sym'.isLt
    (by unfold cumLow at q1; omega) (by unfold cumHigh at q2; omega) (by unfold cumLow at q3; omega)
        (by unfold cumHigh at q4; omega))
  subst hsym
  refine ⟨u', k1, ?_, k6⟩
  obtain ⟨vv, -, sy, hsy, p, hp, q, hq, r, hr, ht⟩ := decSymbolBody_ok k1
  have hf := decSymbolBody_frame k1
  obtain ⟨-, -, rfl⟩ := obufAppend_ok.1 hp
  obtain ⟨hrem, rfl⟩ := countDown_ok ht
  have hsy : sym = sy := by
    obtain ⟨-, hdr⟩ := decRenorm_ok hr
    obtain ⟨-, -, -, -, hqf⟩ := narrow_ok hq
    unfold DecOnly at hdr
    have : r.result = sy.setWidth 64 := by rw [hdr, hqf]
    have k5' : r.result = sym.setWidth 64 := k5
    rw [this] at k5'
    apply BitVec.eq_of_toNat_eq
    have := congrArg BitVec.toNat k5'
    simp at this; omega
  subst hsy
  obtain ⟨-, -, m1, m2, hqf⟩ := narrow_ok hq
  have hTq : Tracks q u before := by
    refine ⟨?_, ?_, ?_, ?_, ?_⟩
    · exact t1.congr (by rw [hqf]) (by rw [hqf]) (by rw [hqf]) (by rw [hqf])
    · apply BitVec.eq_of_toNat_eq
      have e : narrowedLow sym { d with
          obuf := Memory.write d.obuf d.obufLen.toNat sym, obufLen := d.obufLen + 1
          result := sym.setWidth 64 } = narrowedLow sym d := rfl
      have m1' := m1.trans (e.trans (eq1 sym)); omega
    · apply BitVec.eq_of_toNat_eq
      have e : narrowedHigh sym { d with
          obuf := Memory.write d.obuf d.obufLen.toNat sym, obufLen := d.obufLen + 1
          result := sym.setWidth 64 } = narrowedHigh sym d := rfl
      have m2' := m2.trans (e.trans (eq2 sym)); omega
    · have : q.value = d.value := by rw [hqf]
      rw [this, g1]; exact t4
    · have : inputBits q = inputBits d := inputBits_congr (by rw [hqf]) (by rw [hqf]) (by rw [hqf]) (by rw [hqf])
        (by rw [hqf]) (by rw [hqf])
      rw [this, g1]; exact t5
  obtain ⟨r', hr', hT⟩ := b4 q hTq
  rw [show renormFuel = renormFuel from rfl, hr] at hr'
  cases hr'
  obtain ⟨w1, w2, w3, w4, w5⟩ := hT
  exact ⟨w1.congr rfl rfl rfl rfl, w2, w3, w4, by rw [← w5]; exact inputBits_congr rfl rfl rfl rfl rfl rfl⟩

/-- In FAULTED no command but RESET acts (R265). -/
theorem runCommands_faulted {is : List Instr} {s t : State} (hi : ∀ i ∈ is, i ≠ .reset) (hs : s.session = .faulted)
    (h : runCommands is s = .next t) : t = s := by
  induction is generalizing s with
  | nil => cases h; rfl
  | cons i is ih =>
    unfold runCommands at h
    rw [exec_ignored (hi i (by simp)) hs] at h
    exact ih (fun j hj => hi j (by simp [hj])) hs h

/-- The symbols that are left and ENC_FINISH, and the DEC_SYMBOLs that read them back (R227). -/
theorem encodeRun_lockstep {xs : List Byte} {s e₁ : State} (h : Inv s) (hs : s.session = .enc) (ht : s.total ≠ 0)
   (hr : runCommands (xs.map .encSymbol ++ [.encFinish]) s = .next e₁) (he : e₁.session = .idle) :
   ∃ before, outputBits e₁ = outputBits s ++ before ∧ Ahead s before ∧
       s.encCount.toNat + xs.length = s.total.toNat ∧ e₁.fill = 0 ∧
     ∀ d, Inv d → d.session = (if xs = [] then .idle else .dec) → d.cum = s.cum → Tracks d s before →
         d.remaining.toNat = xs.length →
       d.obufLen.toNat + xs.length ≤ d.cfg.obufCap →
        ∃ d₁, runCommands (List.replicate xs.length .decSymbol) d = .next d₁ ∧ d₁.session = .idle ∧
            d₁.obufLen.toNat = d.obufLen.toNat + xs.length ∧
          (∀ k, k < d.obufLen.toNat → obufByte d₁ k = obufByte d k) ∧ ∀ k (h : k < xs.length), obufByte d₁
              (d.obufLen.toNat + k) = xs[k] := by
  induction xs generalizing s with
  | nil =>
    simp only [List.map_nil, List.nil_append, runCommands] at hr
    rw [exec_legal (by simp) (by simp [hs]) (by simp [legal, hs])] at hr
    cases hb : bodyOf .encFinish s with
    | error e =>
      rw [hb] at hr
      cases e with
      | raise c => simp only [commit_raise] at hr; cases hr; simp at he
      | noMeaning f => cases hr
    | ok t =>
      rw [hb] at hr
      simp only [commit_ok] at hr
      cases hr
      obtain ⟨hc, ⟨h0, -⟩ | ⟨-, u, hu, rfl⟩⟩ := encFinishBody_ok hb
      · exact absurd h0 ht
      · obtain ⟨n, hn, v, hv, hu⟩ := finishBits_ok hu
        obtain ⟨-, hn⟩ := fit_ok.1 hn
        have hk : SinkOk { s with follow := n } := h.toSinkOk.congr rfl rfl rfl rfl rfl
        obtain ⟨k1, k2, k3⟩ := bitPlusFollow_spec hk hv
        obtain ⟨l1, l2, l3, pad, l4, l5, -⟩ := flush_spec k1 hu
        refine ⟨finalBits s ++ List.replicate pad false, ?_, finalBits_ahead h.interval pad, by rw [hc]; rfl, l2, ?_⟩
        · have a : outputBits { u with session := .idle } = outputBits u := outputBits_congr rfl rfl rfl rfl rfl
          have b : outputBits { s with follow := n } = outputBits s := outputBits_congr rfl rfl rfl rfl rfl
          rw [a, l5, k2, b, List.append_assoc]
          congr 2
          unfold finalBits
          rw [hn]
          congr 2
          rw [← decide_not, decide_eq_decide, BitVec.not_le]
        · intro d hd hds _ _ _ _
          exact ⟨d, rfl, by simpa using hds, rfl, fun _ _ => rfl, fun k hk => absurd hk (by simp)⟩
  | cons x xs ih =>
    simp only [List.map_cons, List.cons_append, runCommands] at hr
    have hex : exec (.encSymbol x) s = commit (encode (.encSymbol x)) s (encSymbolBody x s) := exec_legal (by simp)
        (by simp [hs]) (by simp [legal, hs])
    cases hb : encSymbolBody x s with
    | error e =>
      rw [hb] at hex
      cases e with
      | raise c =>
        rw [hex] at hr
        have := runCommands_faulted (by simp; rintro i (⟨a, -, rfl⟩ | rfl) <;> simp) (by simp) hr
        rw [this] at he; simp at he
      | noMeaning f => rw [hex] at hr; cases hr
    | ok t =>
      rw [hb] at hex
      rw [hex] at hr
      have ht' : Inv t := exec_inv h hex
      have hf := encSymbolBody_frame hb
      have f1 : t.session = s.session := by rw [hf]
      have f2 : t.total = s.total := by rw [hf]
      have f3 : t.cum = s.cum := by rw [hf]
      obtain ⟨rest, r1, r2, r3, r4, r5⟩ := ih ht' (by rw [f1, hs]) (by rw [f2]; exact ht) hr
      obtain ⟨before, b1, b2, b3⟩ := encSymbolBody_lockstep h hs hb r2
      have hcnt : t.encCount.toNat = s.encCount.toNat + 1 := by
        obtain ⟨-, u, hu, v, hv, n, hn, ht2⟩ := encSymbolBody_ok hb
        obtain ⟨-, -, -, -, hfr⟩ := narrow_ok hu
        obtain ⟨-, hve⟩ := encRenorm_ok hv
        unfold EncOnly at hve
        have e6 : v.encCount = s.encCount := by rw [hve, hfr]
        have e7 : t.encCount = n := by rw [ht2]
        rw [e7, (fit_ok.1 hn).2, e6]
      refine ⟨before, by rw [r1, b1], b2, by rw [f2, hcnt] at r3; simp; omega, r4, ?_⟩
      intro d hd hds hcum hT hrem hroom
      simp at hds
      simp only [List.length_cons] at hrem hroom
      obtain ⟨u, u1, u2, u3⟩ := b3 d hd hds hcum hT (by omega)
      have hexd : exec .decSymbol d = .next u := by
        rw [exec_legal (by simp) (by simp [hds]) (by simp [legal, hds])]
        show commit _ d (decSymbolBody d) = _
        rw [u1]; rfl
      have hud : Inv u := exec_inv hd hexd
      obtain ⟨sy, hfd⟩ := decSymbolBody_frame u1
      have g1 : u.session = if d.remaining = 1 then .idle else d.session := by rw [hfd]
      have g2 : u.cum = d.cum := by rw [hfd]
      have g3 : u.remaining = d.remaining - 1 := by rw [hfd]
      have g4 : u.obufLen = d.obufLen + 1 := by rw [hfd]
      have g5 : u.cfg = d.cfg := by rw [hfd]
      have hcap := hd.cfgOk.2.2
      have g6 : u.obufLen.toNat = d.obufLen.toNat + 1 := by
        rw [g4, obufLen_succ (by have := hd.obufLenOk; omega)]
      have g7 : u.remaining.toNat = xs.length := by rw [g3, BitVec.toNat_sub]; simp; omega
      have hap := decSymbolBody_appended u1
      obtain ⟨d₁, v1, v2, v3, v4, v5⟩ := r5 u hud (by
          rw [g1, hds]
          have : d.remaining = 1 ↔ xs = [] := by
            rw [← List.length_eq_zero_iff]
            constructor
            · intro hh; rw [hh, show (1 : BitVec 64).toNat = 1 from rfl] at hrem; omega
            · intro hh; apply BitVec.eq_of_toNat_eq; rw [hrem, hh]; rfl
          simp only [this]) (by rw [g2, hcum, f3]) u2 g7 (by rw [g5]; omega)
      refine ⟨d₁, ?_, v2, by simp; omega, ?_, ?_⟩
      · rw [List.length_cons, List.replicate_succ]
        unfold runCommands
        rw [hexd]; exact v1
      · intro k hk
        rw [v4 k (by omega), hap.2 k (by omega)]
      · intro k hk
        cases k with
        | zero => rw [Nat.add_zero, v4 _ (by omega), u3]; rfl
        | succ k =>
          simp at hk
          have := v5 k hk
          rw [g6] at this
          rw [show d.obufLen.toNat + (k + 1) = d.obufLen.toNat + 1 + k by omega, this]; rfl

end Sys2Proof.Machine
end

