-- ==== Sys2Proof/Laws/PerInstr.lean ====
section
/-! SUPPORT. One lemma per command: its word carries an assigned opcode, and 0 in every field the opcode table marks
unused (30_encoding R93, R95). -/

namespace Sys2Proof.Laws.ReservedFields

/-- The command's word stands in a row of the opcode table and keeps that row's unused fields 0 (R93, R95). -/
def Statement (i : Instr) : Prop :=
  ∃ r ∈ opTable, opcField (encode i) = r.opc ∧
    (r.usesB = false → bField (encode i) = 0) ∧ (r.usesImm = false → immField (encode i) = 0)

theorem nop : Statement .nop := by simp [Statement, encode, opTable]
theorem reset : Statement .reset := by simp [Statement, encode, opTable]
theorem modelClear : Statement .modelClear := by simp [Statement, encode, opTable]
theorem modelCount (sym : Byte) : Statement (.modelCount sym) := by simp [Statement, encode, opTable]
theorem modelSetCount (sym : Byte) (n : Imm) : Statement (.modelSetCount sym n) := by
  simp [Statement, encode, opTable]
theorem modelBuild : Statement .modelBuild := by simp [Statement, encode, opTable]
theorem modelReadCount (sym : Byte) : Statement (.modelReadCount sym) := by simp [Statement, encode, opTable]
theorem modelReadCum (i : Imm) : Statement (.modelReadCum i) := by simp [Statement, encode, opTable]
theorem modelFind (v : Imm) : Statement (.modelFind v) := by simp [Statement, encode, opTable]
theorem bitReset : Statement .bitReset := by simp [Statement, encode, opTable]
theorem bitPut (b : Byte) : Statement (.bitPut b) := by simp [Statement, encode, opTable]
theorem bitPutn (b : Byte) (n : Imm) : Statement (.bitPutn b n) := by simp [Statement, encode, opTable]
theorem bitFlush : Statement .bitFlush := by simp [Statement, encode, opTable]
theorem bitGet : Statement .bitGet := by simp [Statement, encode, opTable]
theorem encStart : Statement .encStart := by simp [Statement, encode, opTable]
theorem encSymbol (sym : Byte) : Statement (.encSymbol sym) := by simp [Statement, encode, opTable]
theorem encFinish : Statement .encFinish := by simp [Statement, encode, opTable]
theorem decStart (n : Imm) : Statement (.decStart n) := by simp [Statement, encode, opTable]
theorem decSymbol : Statement .decSymbol := by simp [Statement, encode, opTable]

end Sys2Proof.Laws.ReservedFields
end

