-- ==== Sys2Proof/Laws/Renorm.lean ====
section
/-! SUPPORT. The renormalization loops of the machine are the loop on integers (42_range_encoder R183-R186,
43_range_decoder R223): what it leaves, and that EncRenorm and DecRenorm leave just that. -/

namespace Sys2Proof.Machine

/-! ### The loop on integers -/

/-- The loop ends at STOP (R183, R320): with `n` fires allowed, from an interval whose width `n` doublings bring over
HALF. -/
theorem renorm_stop {n lo hi : Nat} (f : Nat) (hle : lo ≤ hi) (htop : hi < 2 ^ 16)
    (hw : 2 ^ 15 < (hi + 1 - lo) * 2 ^ n) :
    (renorm n lo hi f).low < 0x8000 ∧ 0x8000 ≤ (renorm n lo hi f).high ∧ (renorm n lo hi f).high < 2 ^ 16 ∧
      ¬ (0x4000 ≤ (renorm n lo hi f).low ∧ (renorm n lo hi f).high < 0xC000) := by
  induction n generalizing lo hi f with
  | zero => simp only [renorm]; omega
  | succ n ih =>
    have hw2 : (hi + 1 - lo) * 2 ^ (n + 1) = 2 * (hi + 1 - lo) * 2 ^ n := by rw [pow_succ]; ring
    unfold renorm
    split
    · exact ih 0 (by omega) (by omega) (by rw [show 2 * hi + 1 + 1 - 2 * lo = 2 * (hi + 1 - lo) by omega, ← hw2]; exact hw)
    · split
      · exact ih 0 (by omega) (by omega) (by
          rw [show 2 * (hi - 0x8000) + 1 + 1 - 2 * (lo - 0x8000) = 2 * (hi + 1 - lo) by omega, ← hw2]; exact hw)
      · split
        · exact ih (f + 1) (by omega) (by omega) (by
            rw [show 2 * (hi - 0x4000) + 1 + 1 - 2 * (lo - 0x4000) = 2 * (hi + 1 - lo) by omega, ← hw2]; exact hw)
        · simp only; omega

/-- The bits emitted and the bits left pending are the ones pending before and one for each fire (R320, R321). -/
theorem renorm_bits (n lo hi f : Nat) :
    (renorm n lo hi f).bits.length + (renorm n lo hi f).follow = f + (renorm n lo hi f).fires ∧
      (renorm n lo hi f).fires ≤ n := by
  induction n generalizing lo hi f with
  | zero => simp [renorm]
  | succ n ih =>
    unfold renorm
    split
    · have := ih (2 * lo) (2 * hi + 1) 0
      simp [Renorm.afterFire]; omega
    · split
      · have := ih (2 * (lo - 0x8000)) (2 * (hi - 0x8000) + 1) 0
        simp [Renorm.afterFire]; omega
      · split
        · have := ih (2 * (lo - 0x4000)) (2 * (hi - 0x4000) + 1) (f + 1)
          simp [Renorm.afterFire]; omega
        · simp

/-- The bits pending change neither the interval nor the number of fires. -/
theorem renorm_follow (n lo hi f g : Nat) :
    (renorm n lo hi f).low = (renorm n lo hi g).low ∧ (renorm n lo hi f).high = (renorm n lo hi g).high ∧
      (renorm n lo hi f).fires = (renorm n lo hi g).fires := by
  induction n generalizing lo hi f g with
  | zero => simp [renorm]
  | succ n ih =>
    unfold renorm
    split
    · simp [Renorm.afterFire]
    · split
      · simp [Renorm.afterFire]
      · split
        · have := ih (2 * (lo - 0x4000)) (2 * (hi - 0x4000) + 1) (f + 1) (g + 1)
          simp [Renorm.afterFire]; exact this
        · simp

/-- One turn of the loop, by what Classify says (R183). -/
theorem renorm_succ (n f : Nat) (s : State) :
    renorm (n + 1) s.low.toNat s.high.toNat f =
      match classify s.low s.high with
      | .lower => (renorm n (2 * s.low.toNat) (2 * s.high.toNat + 1) 0).afterFire (false :: List.replicate f true)
      | .upper => (renorm n (2 * (s.low.toNat - 0x8000)) (2 * (s.high.toNat - 0x8000) + 1) 0).afterFire
          (true :: List.replicate f false)
      | .middle => (renorm n (2 * (s.low.toNat - 0x4000)) (2 * (s.high.toNat - 0x4000) + 1) (f + 1)).afterFire []
      | .stop => ⟨s.low.toNat, s.high.toNat, f, [], 0⟩ := by
  rw [renorm]
  cases hc : classify s.low s.high with
  | lower => have := classify_lower hc; rw [if_pos (by omega)]
  | upper => have := classify_upper hc; rw [if_neg (by omega), if_pos (by omega)]
  | middle => have := classify_middle hc; rw [if_neg (by omega), if_neg (by omega), if_pos (by omega)]
  | stop =>
    obtain ⟨h1, h2, h3⟩ := classify_stop.1 hc
    simp only [BitVec.lt_def, BitVec.le_def, half_toNat, quarter_toNat, threeq_toNat] at h1 h2 h3
    rw [if_neg (by omega), if_neg (by omega), if_neg (by omega)]

/-! ### The encoder's loop -/

/-- What EncRenorm leaves where the loop on integers leaves `r` (R186). -/
def EncLeaves (r : Renorm) (s t : State) : Prop :=
  SinkOk t ∧ t.low.toNat = r.low ∧ t.high.toNat = r.high ∧ t.follow.toNat = r.follow ∧
    outputBits t = outputBits s ++ r.bits ∧
    8 * t.obufLen.toNat + t.fill.toNat = 8 * s.obufLen.toNat + s.fill.toNat + r.bits.length

/-- A fire in front of a run of the loop. -/
theorem EncLeaves.afterFire {r : Renorm} {bits : List Bool} {s u t : State} (h : EncLeaves r u t)
    (ho : outputBits u = outputBits s ++ bits)
    (hl : 8 * u.obufLen.toNat + u.fill.toNat = 8 * s.obufLen.toNat + s.fill.toNat + bits.length) :
    EncLeaves (r.afterFire bits) s t := by
  obtain ⟨h1, h2, h3, h4, h5, h6⟩ := h
  refine ⟨h1, h2, h3, h4, ?_, ?_⟩
  · rw [h5, ho, List.append_assoc]; rfl
  · simp only [Renorm.afterFire, List.length_append]; omega

/-- Whether the bytes that `r` completes fit, and what `n` turns of EncRenorm then answer (R186, R188). -/
def EncAnswers (r : Renorm) (n : Nat) (s u : State) : Prop :=
  (s.obufLen.toNat + (s.fill.toNat + r.bits.length) / 8 ≤ s.cfg.obufCap ∧
    ∃ t, encRenorm n u = .ok t ∧ EncLeaves r s t) ∨
  (s.cfg.obufCap < s.obufLen.toNat + (s.fill.toNat + r.bits.length) / 8 ∧
    encRenorm n u = raiseFault .outputOverflow)

/-- The turns from `u` on, after a fire that emitted `bits`. -/
theorem EncAnswers.afterFire {r : Renorm} {n : Nat} {bits : List Bool} {s u : State} (h : EncAnswers r n u u)
    (hc : u.cfg = s.cfg) (ho : outputBits u = outputBits s ++ bits)
    (hl : 8 * u.obufLen.toNat + u.fill.toNat = 8 * s.obufLen.toNat + s.fill.toNat + bits.length) :
    EncAnswers (r.afterFire bits) n s u := by
  have h1 : s.fill.toNat < 2 ^ 3 := s.fill.isLt
  have h2 : u.fill.toNat < 2 ^ 3 := u.fill.isLt
  have h3 : (r.afterFire bits).bits.length = bits.length + r.bits.length := by simp [Renorm.afterFire]
  rcases h with ⟨l, t, ht, k⟩ | ⟨l, ht⟩
  · exact .inl ⟨by rw [← hc, h3]; omega, t, ht, k.afterFire ho hl⟩
  · exact .inr ⟨by rw [← hc, h3]; omega, ht⟩

/-- At STOP the loop does nothing (R186). -/
theorem EncAnswers.stop (n : Nat) {s : State} (h : SinkOk s) (hst : classify s.low s.high = .stop) :
    EncAnswers ⟨s.low.toNat, s.high.toNat, s.follow.toNat, [], 0⟩ (n + 1) s s := by
  have h1 := h.obufLenOk
  have h2 : s.fill.toNat < 2 ^ 3 := s.fill.isLt
  refine .inl ⟨by simp only [List.length_nil]; omega, s, ?_, h, rfl, rfl, rfl, by simp, by simp⟩
  unfold encRenorm; rw [hst]

/-- EncRenorm from a sound sink (R186, R188): it leaves what the loop on integers leaves where OBUF has room for the bytes
completed, and overflows where it has not. -/
theorem encRenorm_renorm {n : Nat} {s : State} (h : SinkOk s) (hle : s.low ≤ s.high)
    (hw : 2 ^ 15 < width s * 2 ^ n) (hf : s.follow.toNat + n < 2 ^ 64) :
    EncAnswers (renorm n s.low.toNat s.high.toNat s.follow.toNat) (n + 1) s s := by
  induction n generalizing s with
  | zero =>
    by_cases hst : classify s.low s.high = .stop
    · exact .stop 0 h hst
    · have := width_of_fire hst
      omega
  | succ n ih =>
    have hw2 : width s * 2 ^ (n + 1) = 2 * width s * 2 ^ n := by rw [pow_succ]; ring
    have hcap := h.obufLenOk
    have hfill : s.fill.toNat < 2 ^ 3 := s.fill.isLt
    -- the turns after a fire
    have rest : ∀ u : State, SinkOk u → u.low ≤ u.high → width u = 2 * width s → u.follow.toNat + n < 2 ^ 64 →
        EncAnswers (renorm n u.low.toNat u.high.toNat u.follow.toNat) (n + 1) u u :=
      fun u k1 k2 k3 k4 => ih k1 k2 (by rw [k3, ← hw2]; exact hw) k4
    have hr := renorm_succ n s.follow.toNat s
    cases hc : classify s.low s.high with
    | stop => rw [hr, hc]; exact .stop (n + 1) h hc
    | lower =>
      rw [hr, hc]
      simp only
      unfold EncAnswers encRenorm
      rw [hc]
      simp only
      rcases bitPlusFollow_total false h with ⟨u, hu⟩ | ⟨hov, hroom⟩
      · obtain ⟨k1, k2, k3⟩ := bitPlusFollow_spec h hu
        have hfr := bitPlusFollow_frame hu
        have h1 : u.low = s.low := by rw [hfr]
        have h2 : u.high = s.high := by rw [hfr]
        have h3 : u.cfg = s.cfg := by rw [hfr]
        have h4 : u.follow.toNat = 0 := by rw [hfr]; rfl
        have hule : u.low ≤ u.high := by rw [h1, h2]; exact hle
        have hcu : classify u.low u.high = .lower := by rw [h1, h2]; exact hc
        obtain ⟨w1, w2⟩ := (fire_width hule).1 hcu
        obtain ⟨a1, a2⟩ := lower_fire hcu hule
        rw [hu, Eff.ok_bind]
        have := (rest (shift u) (k1.congr rfl rfl rfl rfl rfl) w1 (by rw [w2, width_congr h1 h2])
          (by rw [shift_follow]; omega)).afterFire (s := s) (bits := false :: List.replicate s.follow.toNat true) h3
          ((outputBits_congr rfl rfl rfl rfl rfl).trans k2)
          (by simp only [shift_obufLen, shift_fill, List.length_cons, List.length_replicate]; omega)
        rw [a1, a2, shift_follow, h1, h2, h4] at this
        exact this
      · refine .inr ⟨?_, by rw [hov]; rfl⟩
        simp [Renorm.afterFire]; omega
    | upper =>
      rw [hr, hc]
      simp only
      unfold EncAnswers encRenorm
      rw [hc]
      simp only
      rcases bitPlusFollow_total true h with ⟨u, hu⟩ | ⟨hov, hroom⟩
      · obtain ⟨k1, k2, k3⟩ := bitPlusFollow_spec h hu
        have hfr := bitPlusFollow_frame hu
        have h1 : u.low = s.low := by rw [hfr]
        have h2 : u.high = s.high := by rw [hfr]
        have h3 : u.cfg = s.cfg := by rw [hfr]
        have h4 : u.follow.toNat = 0 := by rw [hfr]; rfl
        have hule : u.low ≤ u.high := by rw [h1, h2]; exact hle
        have hcu : classify u.low u.high = .upper := by rw [h1, h2]; exact hc
        obtain ⟨w1, w2⟩ := (fire_width hule).2.1 hcu
        obtain ⟨a1, a2⟩ := upper_fire hcu
        rw [hu, Eff.ok_bind]
        have := (rest (shift (moveInterval half u)) (k1.congr rfl rfl rfl rfl rfl) w1 (by rw [w2, width_congr h1 h2])
          (by rw [shift_follow, moveInterval_follow]; omega)).afterFire (s := s)
          (bits := true :: List.replicate s.follow.toNat false) h3
          ((outputBits_congr rfl rfl rfl rfl rfl).trans k2)
          (by simp only [shift_obufLen, shift_fill, moveInterval_obufLen, moveInterval_fill, List.length_cons,
                List.length_replicate]; omega)
        rw [a1, a2, shift_follow, moveInterval_follow, h1, h2, h4] at this
        exact this
      · refine .inr ⟨?_, by rw [hov]; rfl⟩
        simp [Renorm.afterFire]; omega
    | middle =>
      rw [hr, hc]
      simp only
      unfold EncAnswers encRenorm
      rw [hc]
      simp only
      rw [fit_of_lt (by omega), Eff.ok_bind]
      have hv : (BitVec.ofNat 64 (s.follow.toNat + 1)).toNat = s.follow.toNat + 1 := by
        rw [BitVec.toNat_ofNat]; omega
      generalize BitVec.ofNat 64 (s.follow.toNat + 1) = v at hv
      obtain ⟨w1, w2⟩ := (fire_width (s := { s with follow := v }) hle).2.2 hc
      obtain ⟨a1, a2⟩ := middle_fire (s := { s with follow := v }) hc
      have := (rest (shift (moveInterval quarter { s with follow := v })) (h.congr rfl rfl rfl rfl rfl) w1 w2
        (by rw [shift_follow, moveInterval_follow]; show v.toNat + n < _; omega)).afterFire (s := s) (bits := []) rfl
        ((outputBits_congr rfl rfl rfl rfl rfl).trans (List.append_nil _).symm) rfl
      rw [a1, a2, shift_follow, moveInterval_follow, hv] at this
      exact this

/-! ### The decoder's loop -/

/-- The first bits of an input padded with zeros, one by one. -/
theorem take_padded_succ (bits : List Bool) (k : Nat) :
    (bits ++ List.replicate (k + 1) false).take (k + 1) =
      bits.head?.getD false :: (bits.tail ++ List.replicate k false).take k := by
  cases bits with
  | nil => simp [List.replicate_succ]
  | cons b bs =>
    simp only [List.head?_cons, Option.getD_some, List.tail_cons, List.cons_append, List.take_succ_cons]
    congr 1
    rw [List.take_append, List.take_append, List.take_replicate, List.take_replicate]
    congr 2
    omega

/-- What DecRenorm leaves where the loop on integers leaves `r` (R223, R226): its interval, one bit of the input read for
each fire, and VALUE at the same place in the interval, scaled, with the bits read below. -/
def DecLeaves (r : Renorm) (s t : State) : Prop :=
  SourceOk t ∧ t.low.toNat = r.low ∧ t.high.toNat = r.high ∧ inputBits t = (inputBits s).drop r.fires ∧
    t.value.toNat = r.low + ((inputBits s ++ List.replicate r.fires false).take r.fires).foldl
      (fun v b => 2 * v + b.toNat) (s.value.toNat - s.low.toNat) ∧
    (t.eoi = true ↔ s.eoi = true ∨ (inputBits s).length < r.fires)

/-- DecRenorm from a sound source with LOW <= VALUE <= HIGH leaves what the loop on integers leaves (R223). -/
theorem decRenorm_renorm {n : Nat} {s : State} (h : SourceOk s) (h1 : s.low ≤ s.value) (h2 : s.value ≤ s.high)
    (hw : 2 ^ 15 < width s * 2 ^ n) :
    ∃ t, decRenorm (n + 1) s = .ok t ∧ DecLeaves (renorm n s.low.toNat s.high.toNat 0) s t := by
  have stop : ∀ (m : Nat) (u : State), SourceOk u → u.low ≤ u.value → classify u.low u.high = .stop →
      ∃ t, decRenorm (m + 1) u = .ok t ∧ DecLeaves ⟨u.low.toNat, u.high.toNat, 0, [], 0⟩ u t := by
    intro m u hu hle hst
    refine ⟨u, ?_, hu, rfl, rfl, by simp, ?_, by simp⟩
    · unfold decRenorm; rw [hst]
    · rw [BitVec.le_def] at hle
      simp
      omega
  induction n generalizing s with
  | zero =>
    by_cases hst : classify s.low s.high = .stop
    · exact stop 0 s h h1 hst
    · have := width_of_fire hst
      omega
  | succ n ih =>
    have hle := BitVec.le_trans h1 h2
    have hw2 : width s * 2 ^ (n + 1) = 2 * width s * 2 ^ n := by rw [pow_succ]; ring
    have hv1 := h1
    have hv2 := h2
    rw [BitVec.le_def] at hv1 hv2
    -- the turns after a fire that subtracts `d`
    have key : ∀ (u : State) (d : Nat) (bits : List Bool), SourceOk u → inputBits u = inputBits s → u.eoi = s.eoi →
        width u = 2 * width s → d ≤ s.low.toNat → u.low.toNat = 2 * (s.low.toNat - d) →
        u.high.toNat = 2 * (s.high.toNat - d) + 1 → u.value.toNat = s.value.toNat - d → u.value.toNat < 0x8000 →
        ∀ f, ∃ t, (pullBit u >>= fun t => decRenorm (n + 1) t) = .ok t ∧
          DecLeaves ((renorm n u.low.toNat u.high.toNat f).afterFire bits) s t := by
      intro u d bits hu hui hue hwu hd hlo hhi hval hv f
      obtain ⟨p, hp⟩ := pullBit_total hu
      obtain ⟨k1, k2, k3, k4⟩ := pullBit_spec hu hp
      have hfr := pullBit_valueOnly hp
      unfold ValueOnly at hfr
      have e1 : p.low = u.low := by rw [hfr]
      have e2 : p.high = u.high := by rw [hfr]
      have e3 := shiftedValue (b := ((inputBits u).head?.getD false)) hv
      rw [← k3] at e3
      have := ((inputBits u).head?.getD false).toNat_lt
      obtain ⟨t, ht, l1, l2, l3, l4, l5, l6⟩ := ih (s := p) k1 (by rw [BitVec.le_def, e1]; omega)
        (by rw [BitVec.le_def, e2]; omega)
        (by rw [width_congr e1 e2, hwu, ← hw2]; exact hw)
      obtain ⟨r1, r2, r3⟩ := renorm_follow n u.low.toNat u.high.toNat f 0
      rw [e1, e2] at l2 l3 l4 l5 l6
      refine ⟨t, by rw [hp]; exact ht, l1, ?_, ?_, ?_, ?_, ?_⟩
      · rw [l2]; exact r1.symm
      · rw [l3]; exact r2.symm
      · rw [l4, k2, hui, List.drop_tail]; show _ = (inputBits s).drop (_ + 1); rw [r3]
      · show _ = (renorm n u.low.toNat u.high.toNat f).low + List.foldl _ _ (List.take (_ + 1) (_ ++ List.replicate (_ + 1) false))
        rw [l5, r1, r3, take_padded_succ, List.foldl_cons, k2, hui,
          show p.value.toNat - u.low.toNat = 2 * (s.value.toNat - s.low.toNat) + ((inputBits s).head?.getD false).toNat by
            rw [← hui]; omega]
      · rw [l6, k4, k2, hui, hue]
        show _ ↔ _ ∨ (inputBits s).length < _ + 1
        rw [r3]
        cases inputBits s <;> simp
    have hr := renorm_succ n 0 s
    unfold decRenorm
    cases hc : classify s.low s.high with
    | stop =>
      rw [hr, hc]
      have := stop (n + 1) s h h1 hc
      unfold decRenorm at this
      rw [hc] at this
      exact this
    | lower =>
      obtain ⟨a1, a2⟩ := lower_fire hc hle
      have hcl := classify_lower hc
      rw [hr, hc]
      simp only
      have := key (shift s) 0 (false :: List.replicate 0 true) (h.congr rfl rfl rfl rfl)
        (inputBits_congr rfl rfl rfl rfl rfl rfl) rfl ((fire_width hle).1 hc).2 (by omega) (by omega) (by omega)
        (by rw [shift_value]; omega) (by rw [shift_value]; omega) 0
      rw [a1, a2] at this
      exact this
    | upper =>
      obtain ⟨a1, a2⟩ := upper_fire hc
      have hcl := classify_upper hc
      have hval : (s.value - half).toNat = s.value.toNat - 0x8000 :=
        movedValue (d := half) (by rw [half_toNat]; omega)
      have hhi := s.high.isLt
      rw [hr, hc]
      simp only
      have := key (shift (moveAll half s)) 0x8000 (true :: List.replicate 0 false) (h.congr rfl rfl rfl rfl)
        (inputBits_congr rfl rfl rfl rfl rfl rfl) rfl ((fire_width hle).2.1 hc).2 (by omega) a1 a2
        (by rw [shift_value, moveAll_value, hval]) (by rw [shift_value, moveAll_value, hval]; omega) 0
      rw [show (shift (moveAll half s)).low.toNat = _ from a1, show (shift (moveAll half s)).high.toNat = _ from a2]
        at this
      exact this
    | middle =>
      obtain ⟨a1, a2⟩ := middle_fire hc
      have hcl := classify_middle hc
      have hval : (s.value - quarter).toNat = s.value.toNat - 0x4000 :=
        movedValue (d := quarter) (by rw [quarter_toNat]; omega)
      rw [hr, hc]
      simp only
      have := key (shift (moveAll quarter s)) 0x4000 [] (h.congr rfl rfl rfl rfl)
        (inputBits_congr rfl rfl rfl rfl rfl rfl) rfl ((fire_width hle).2.2 hc).2 (by omega) a1 a2
        (by rw [shift_value, moveAll_value, hval]) (by rw [shift_value, moveAll_value, hval]; omega) (0 + 1)
      rw [show (shift (moveAll quarter s)).low.toNat = _ from a1,
        show (shift (moveAll quarter s)).high.toNat = _ from a2] at this
      exact this

/-! ### The bodies -/

/-- Sixteen fires are enough from every LOW <= HIGH (R320). -/
theorem renorm_enough {s : State} (h : s.low ≤ s.high) : (2 : Int) ^ 15 < width s * 2 ^ 16 := by
  have := width_pos h
  omega

/-- FOLLOW's bound in an encode session (R321). -/
theorem Inv.follow_lt {s : State} (h : Inv s) (hs : s.session = .enc) : s.follow.toNat < 2 ^ 45 := by
  obtain ⟨h1, h2⟩ := h.encoding hs
  have := (h.tableOk (h.sessionBuilt (.inl hs))).bound
  simp only [State.total] at h1
  omega

/-- ENC_SYMBOL's body with a symbol left and a non-empty interval (R188): it leaves what the renormalization on integers
leaves and counts the symbol, or overflows where the bytes completed do not fit. -/
theorem encSymbolBody_renorm {s : State} {sym : Byte} (h : Inv s) (hs : s.session = .enc)
    (hc : s.encCount.toNat < s.total.toNat) (hn : narrowedLow sym s ≤ narrowedHigh sym s) :
    let r := renormAfter sym s.follow.toNat s
    (s.obufLen.toNat + (s.fill.toNat + r.bits.length) / 8 ≤ s.cfg.obufCap ∧
      ∃ t, encSymbolBody sym s = .ok t ∧ EncLeaves r s t ∧ t.encCount.toNat = s.encCount.toNat + 1 ∧
        Renormalized t.low t.high) ∨
    (s.cfg.obufCap < s.obufLen.toNat + (s.fill.toNat + r.bits.length) / 8 ∧
      encSymbolBody sym s = raiseFault .outputOverflow) := by
  intro r
  have hb := h.sessionBuilt (.inl hs)
  have hf := h.follow_lt hs
  have htot := (h.tableOk hb).bound
  have hne : s.encCount ≠ s.total := by intro hh; rw [hh] at hc; omega
  have hle := h.interval.width_ge.1
  obtain ⟨b1, b2⟩ := narrow_bounds (sym := sym) (h.tableOk hb) (by omega) hle
  rcases narrow_total sym (h.tableOk hb) (by omega) hle with ⟨-, u, hu⟩ | ⟨h1, -⟩
  · have hule := narrow_le hu
    obtain ⟨-, -, n1, n2, hfr⟩ := narrow_ok hu
    have hk : SinkOk u := h.toSinkOk.congr (by rw [hfr]) (by rw [hfr]) (by rw [hfr]) (by rw [hfr]) (by rw [hfr])
    have g1 : u.follow = s.follow := by rw [hfr]
    have g2 : u.cfg = s.cfg := by rw [hfr]
    have g3 : u.obufLen = s.obufLen := by rw [hfr]
    have g4 : u.fill = s.fill := by rw [hfr]
    have g5 : outputBits u = outputBits s :=
      outputBits_congr g3 (by rw [hfr]) (by rw [hfr]) (by rw [hfr]) g4
    have hr : renorm 16 u.low.toNat u.high.toNat u.follow.toNat = r := by
      show _ = renorm 16 _ _ _
      rw [g1, ← n1, ← n2, Int.toNat_natCast, Int.toNat_natCast]
    have henc := encRenorm_renorm hk hule (renorm_enough hule) (by rw [g1]; omega)
    unfold EncAnswers at henc
    rw [hr, g2, g3, g4] at henc
    have hbody : encSymbolBody sym s = (encRenorm renormFuel u >>= fun v =>
        fit 64 (v.encCount.toNat + 1) >>= fun n => .ok { v with encCount := n }) := by
      unfold encSymbolBody
      rw [if_neg hne, hu, Eff.ok_bind]
      rfl
    rcases henc with ⟨l1, v, hv, k⟩ | ⟨l1, hv⟩
    · obtain ⟨hst, hve⟩ := encRenorm_ok hv
      have g6 : v.encCount = s.encCount := by
        unfold EncOnly at hve; rw [hve, hfr]
      have hlt : v.encCount.toNat + 1 < 2 ^ 64 := by rw [g6]; simp only [State.total] at hc; omega
      refine .inl ⟨l1, { v with encCount := BitVec.ofNat 64 (v.encCount.toNat + 1) }, ?_, ?_, ?_, classify_stop.1 hst⟩
      · rw [hbody, show renormFuel = 16 + 1 from rfl, hv, Eff.ok_bind, fit_of_lt hlt, Eff.ok_bind]
      · obtain ⟨k1, k2, k3, k4, k5, k6⟩ := k
        refine ⟨k1.congr rfl rfl rfl rfl rfl, k2, k3, k4, ?_, ?_⟩
        · rw [← g5, ← k5]; exact outputBits_congr rfl rfl rfl rfl rfl
        · rw [← g3, ← g4]; exact k6
      · show (BitVec.ofNat 64 (v.encCount.toNat + 1)).toNat = _
        rw [BitVec.toNat_ofNat, Nat.mod_eq_of_lt hlt, g6]
    · exact .inr ⟨l1, by rw [hbody, show renormFuel = 16 + 1 from rfl, hv]; rfl⟩
  · omega

/-- What a completed DEC_SYMBOL has read and where VALUE then stands (R223, R225). -/
theorem decSymbolBody_renorm {s t : State} {sym : Byte} (h : Inv s) (ht : decSymbolBody s = .ok t)
    (hsym : t.result = sym.setWidth 64)
    (hlo : narrowedLow sym s ≤ s.value.toNat) (hhi : (s.value.toNat : Int) ≤ narrowedHigh sym s) :
    let r := renormAfter sym 0 s
    t.low.toNat = r.low ∧ t.high.toNat = r.high ∧ inputBits t = (inputBits s).drop r.fires ∧
      t.value.toNat = r.low + ((inputBits s ++ List.replicate r.fires false).take r.fires).foldl
        (fun v b => 2 * v + b.toNat) (s.value.toNat - (narrowedLow sym s).toNat) ∧
      (t.eoi = true ↔ s.eoi = true ∨ (inputBits s).length < r.fires) := by
  intro r
  obtain ⟨v, -, x, -, p, hp, q, hq, w, hw, hcd⟩ := decSymbolBody_ok ht
  obtain ⟨-, -, hp⟩ := obufAppend_ok.1 hp
  obtain ⟨-, -, n1, n2, hqf⟩ := narrow_ok hq
  obtain ⟨-, hcd⟩ := countDown_ok hcd
  have hx : x = sym := by
    obtain ⟨-, hw⟩ := decRenorm_ok hw
    unfold DecOnly at hw
    have : t.result = x.setWidth 64 := by rw [hcd, hw, hqf]
    rw [this] at hsym
    have := congrArg BitVec.toNat hsym
    have h1 := x.isLt
    have h2 := sym.isLt
    simp only [BitVec.toNat_setWidth] at this
    exact BitVec.eq_of_toNat_eq (by omega)
  subst hx
  generalize hp2 : ({ p with result := x.setWidth 64 } : State) = p2 at hq n1 n2 hqf
  have e1 : narrowedLow x p2 = narrowedLow x s := by
    subst hp2; subst hp; rfl
  have e2 : narrowedHigh x p2 = narrowedHigh x s := by
    subst hp2; subst hp; rfl
  rw [e1] at n1
  rw [e2] at n2
  have e3 : q.value = s.value := by rw [hqf]; subst hp2; subst hp; rfl
  have e4 : inputBits q = inputBits s := by
    rw [hqf]; subst hp2; subst hp; exact inputBits_congr rfl rfl rfl rfl rfl rfl
  have e5 : q.eoi = s.eoi := by rw [hqf]; subst hp2; subst hp; rfl
  have hk : SourceOk q := by
    apply h.toSourceOk.congr <;> rw [hqf] <;> subst hp2 <;> subst hp <;> rfl
  have hle := narrow_le hq
  obtain ⟨w', hw', -, l2, l3, l4, l5, l6⟩ := decRenorm_renorm (n := 16) hk (by rw [BitVec.le_def, e3]; omega)
    (by rw [BitVec.le_def, e3]; omega) (renorm_enough hle)
  obtain rfl : w = w' := by
    have := hw.symm.trans hw'
    cases this
    rfl
  have hr : renorm 16 q.low.toNat q.high.toNat 0 = r := by
    show _ = renorm 16 _ _ _
    rw [← n1, ← n2, Int.toNat_natCast, Int.toNat_natCast]
  rw [hr] at l2 l3 l4 l5 l6
  rw [e4] at l4 l5 l6
  rw [e5] at l6
  rw [e3, show q.low.toNat = (narrowedLow x s).toNat by omega] at l5
  subst hcd
  exact ⟨l2, l3, (inputBits_congr rfl rfl rfl rfl rfl rfl).trans l4, l5, l6⟩

end Sys2Proof.Machine
end

