-- ==== Sys2Proof/Tests/Slice0.lean ====
section
/-! SUPPORT. The model's own tests: ill-formed commands, decoding words written out from the spec, single commands against
95_test_vectors.md, and a witness for the hypotheses of every statement. -/

namespace Sys2Proof.Tests

open Sys2Proof.Machine

set_option Elab.async false

/-! ### Helpers -/

/-- What a field of the next state is, if there is a next state. -/
def result {α : Type} (o : Host.Outcome State Fault Refusal) (f : State → α) : Option α :=
  match o with
  | .next t => some (f t)
  | _ => none

/-- The next state, where there is one. -/
def after (o : Host.Outcome State Fault Refusal) : State := (result o id).getD State.reset

def isNext (o : Host.Outcome State Fault Refusal) : Bool := (result o id).isSome

theorem next_after {o : Host.Outcome State Fault Refusal} (h : isNext o = true) : o = .next (after o) := by
  cases o <;> first | rfl | cases h

/-- A COUNT table: the listed symbols' counts, 0 elsewhere. -/
def tally (cs : List (Nat × Nat)) : Vector (BitVec 32) 256 :=
  cs.foldl (fun v c => v.setIfInBounds c.1 (BitVec.ofNat 32 c.2)) (Vector.replicate 256 0)

/-- IDLE, with the model of these counts built. -/
def built (cs : List (Nat × Nat)) : State :=
  { State.reset with count := tally cs, cum := cumTable (tally cs), built := true }

/-- 95_test_vectors 1.3: 'A' and 'B' once each, built. -/
def ab : State := built [(0x41, 1), (0x42, 1)]

/-- `ab` after ENC_START. -/
def abEnc : State := { ab with session := .enc }

/-- `abEnc` after both symbols: the bits 0, 1 in the sink. -/
def abCoded : State := { abEnc with encCount := 2, acc := 1, fill := 2 }

/-- `ab` with its stream in IBUF, after DEC_START 2 (95_test_vectors 1.3). -/
def abDec : State :=
  { ab with
    session := .dec, value := 0x5000, remaining := 2, ibuf := [(0, 0x50)], ibufLen := 1, ipos := 1, eoi := true }

/-- Capacities of one byte, OBUF full, seven bits in the sink (95_test_vectors B6). -/
def full : State :=
  { State.reset with cfg := ⟨1, 1⟩, obuf := [(0, 0xFF)], obufLen := 1, acc := 0x3F, fill := 7 }

/-- `abEnc` with OBUF of one byte, full, and seven bits in the sink. -/
def fullEnc : State := { abEnc with cfg := ⟨1, 1⟩, obuf := [(0, 0xFF)], obufLen := 1, acc := 0x3F, fill := 7 }

/-- `abDec` with OBUF of one byte, full. -/
def fullDec : State := { abDec with cfg := ⟨1, 1⟩, obuf := [(0, 0x41)], obufLen := 1 }

/-- BAD_STATE by ENC_SYMBOL after reset. -/
def faulted : State := faultEntry .badState 0x3141000000000000 State.reset

/-! ### Ill-formed commands are refused by WellFormed, and decode and run all the same (R93) -/

theorem test_illformed :
    (Instr.bitPut 2).wellFormed = false ∧ (Instr.bitPutn 2 0).wellFormed = false ∧
      (Instr.modelSetCount 0 0x100000000).wellFormed = false ∧ (Instr.modelReadCum 257).wellFormed = false := by
  decide

theorem test_wellformed_bounds :
    (Instr.bitPut 1).wellFormed = true ∧ (Instr.bitPutn 1 0xFFFFFFFFFFFF).wellFormed = true ∧
      (Instr.modelSetCount 0 0xFFFFFFFF).wellFormed = true ∧ (Instr.modelReadCum 256).wellFormed = true := by
  decide

/-! ### Decoding: words written out from R91 and R95 -/

/-- OPC 00010010, B 01000001, IMM 4: MODEL_SET_COUNT 'A', 4. -/
theorem test_bits_model :
    decodeTableWord 64 0b0001001001000001000000000000000000000000000000000000000000000100 =
      some (.modelSetCount 0x41 4) := by decide

/-- OPC 00000001, all else 0: RESET. -/
theorem test_bits_system :
    decodeTableWord 64 0b0000000100000000000000000000000000000000000000000000000000000000 = some .reset := by decide

/-- OPC 00100010, B 00000001, IMM 10: BIT_PUTN 1, 10. -/
theorem test_bits_buffers :
    decodeTableWord 64 0b0010001000000001000000000000000000000000000000000000000000001010 =
      some (.bitPutn 1 10) := by decide

/-- OPC 00110001, B 01000010, IMM 0: ENC_SYMBOL 'B'. -/
theorem test_bits_encoder :
    decodeTableWord 64 0b0011000101000010000000000000000000000000000000000000000000000000 =
      some (.encSymbol 0x42) := by decide

/-- OPC 01000000, B 0, IMM with its highest and lowest bits set: DEC_START 2^47 + 1. -/
theorem test_bits_decoder :
    decodeTableWord 64 0b0100000000000000100000000000000000000000000000000000000000000001 =
      some (.decStart 0x800000000001) := by decide

theorem test_decode_system :
    decodeTableWord 64 0x0000000000000000 = some .nop ∧ decodeTableWord 64 0x0100000000000000 = some .reset := by
  decide

theorem test_decode_model :
    decodeTableWord 64 0x1000000000000000 = some .modelClear ∧
      decodeTableWord 64 0x11FF000000000000 = some (.modelCount 0xFF) ∧
      decodeTableWord 64 0x12410000FFFFFFFF = some (.modelSetCount 0x41 0xFFFFFFFF) ∧
      decodeTableWord 64 0x1300000000000000 = some .modelBuild ∧
      decodeTableWord 64 0x1441000000000000 = some (.modelReadCount 0x41) ∧
      decodeTableWord 64 0x1500000000000101 = some (.modelReadCum 257) ∧
      decodeTableWord 64 0x1600FFFFFFFFFFFF = some (.modelFind 0xFFFFFFFFFFFF) := by decide

theorem test_decode_buffers :
    decodeTableWord 64 0x2000000000000000 = some .bitReset ∧
      decodeTableWord 64 0x2102000000000000 = some (.bitPut 2) ∧
      decodeTableWord 64 0x2201000000000008 = some (.bitPutn 1 8) ∧
      decodeTableWord 64 0x2300000000000000 = some .bitFlush ∧
      decodeTableWord 64 0x2400000000000000 = some .bitGet := by decide

theorem test_decode_encoder :
    decodeTableWord 64 0x3000000000000000 = some .encStart ∧
      decodeTableWord 64 0x3143000000000000 = some (.encSymbol 0x43) ∧
      decodeTableWord 64 0x3200000000000000 = some .encFinish := by decide

theorem test_decode_decoder :
    decodeTableWord 64 0x4000000000002710 = some (.decStart 10000) ∧
      decodeTableWord 64 0x4100000000000000 = some .decSymbol := by decide

/-- 95_test_vectors S2-S5: reserved fields and unassigned opcodes. -/
theorem test_decode_rejected :
    decode 0x0001000000000000 = .error .reservedField ∧ decode 0x0200000000000000 = .error .illegalCommand ∧
      decode 0x1700000000000000 = .error .illegalCommand ∧ decode 0x4200000000000000 = .error .illegalCommand ∧
      decode 0xFF00000000000000 = .error .illegalCommand ∧ decode 0x4001000000000002 = .error .reservedField := by
  decide

/-- The word placed for the next step is the one that step runs. -/
theorem test_fetch_word :
    result (step (State.reset.withFetchWord 64 0x1241000000000004)) (fun t => (t.count[0x41], t.pending)) =
      some (4, []) := by decide +kernel

/-! ### Single commands, with the values of 95_test_vectors -/

/-- S6: in FAULTED a RESET word with a nonzero field is ignored. -/
theorem test_faulted_inexact_reset :
    result (issueWord 0x0100000000000001 faulted) (fun t => (t.session, t.faultCode, t.faultCmd)) =
      some (.faulted, .badState, 0x3141000000000000) := by decide +kernel

/-- S7. -/
theorem test_faulted_reset :
    result (issueWord 0x0100000000000000 faulted) (fun t => (t.session, t.faultCode, t.faultCmd, t.high)) =
      some (.idle, .none, 0, 0xFFFF) := by decide +kernel

/-- S1 and S2. -/
theorem test_nop :
    result (issueWord 0x0000000000000000 ab) (fun t => (t.session, t.built)) = some (.idle, true) ∧
      result (issueWord 0x0001000000000000 ab) (fun t => (t.session, t.faultCode, t.faultCmd)) =
        some (.faulted, .reservedField, 0x0001000000000000) := by decide +kernel

/-- S8: RESET is legal in ENC. -/
theorem test_reset_in_session :
    result (exec .reset abEnc) (fun t => (t.session, t.built, t.count[0x41])) = some (.idle, false, 0) := by
  decide +kernel

/-- M1.15. -/
theorem test_model_clear :
    result (exec .modelClear ab) (fun t => (t.count[0x41], t.cum[256], t.built)) = some (0, 0, false) := by
  decide +kernel

/-- M8. -/
theorem test_model_clear_in_session :
    result (exec .modelClear abEnc) (fun t => (t.session, t.faultCode, t.built)) =
      some (.faulted, .badState, true) := by decide +kernel

/-- M3. -/
theorem test_model_count_overflow :
    result (exec (.modelCount 0x41) { State.reset with count := tally [(0x41, 0xFFFFFFFF)] })
      (fun t => (t.faultCode, t.count[0x41])) = some (.countOverflow, 0xFFFFFFFF) := by decide +kernel

/-- M1.14. -/
theorem test_model_count_built :
    result (exec (.modelCount 0x41) ab) (fun t => (t.faultCode, t.count[0x41])) = some (.badState, 1) := by
  decide +kernel

/-- M3, M4. -/
theorem test_model_set_count :
    result (exec (.modelSetCount 0x41 0xFFFFFFFF) State.reset) (fun t => t.count[0x41]) = some 0xFFFFFFFF ∧
      result (exec (.modelSetCount 0 0x100000000) State.reset) (fun t => t.faultCode) = some .badOperand := by
  decide +kernel

/-- M2: 5 of symbol 0 and 7 of symbol 0xFF. -/
theorem test_model_build :
    result (exec .modelBuild { State.reset with count := tally [(0, 5), (0xFF, 7)] })
      (fun t => (t.cum[0], t.cum[1], t.cum[255], t.cum[256])) = some (0, 5, 5, 12) := by decide +kernel

/-- M1.1, M9. -/
theorem test_model_read_count :
    result (exec (.modelReadCount 0x41) (built [(0x41, 2), (0x43, 1)])) (fun t => t.result) = some 2 ∧
      result (exec (.modelReadCount 0x41) abEnc) (fun t => (t.result, t.session)) = some (1, .enc) := by
  decide +kernel

/-- M1.8, M1.13. -/
theorem test_model_read_cum :
    result (exec (.modelReadCum 256) (built [(0x41, 2), (0x43, 1)])) (fun t => t.result) = some 3 ∧
      result (exec (.modelReadCum 257) (built [(0x41, 2), (0x43, 1)])) (fun t => t.faultCode) =
        some .badOperand := by decide +kernel

/-- M1.11: the zero-count 'B' is skipped. M1.12. -/
theorem test_model_find :
    result (exec (.modelFind 2) (built [(0x41, 2), (0x43, 1)])) (fun t => t.result) = some 0x43 ∧
      result (exec (.modelFind 3) (built [(0x41, 2), (0x43, 1)])) (fun t => t.faultCode) = some .badOperand := by
  decide +kernel

/-- B4: BIT_RESET rewinds the source and keeps RESULT. -/
theorem test_bit_reset :
    result (exec .bitReset { State.reset with srcByte := 0xFF, srcRem := 7, ipos := 1, result := 1, acc := 1, fill := 1 })
      (fun t => (t.srcRem, t.ipos, t.result, t.fill)) = some (0, 0, 1, 0) := by decide +kernel

/-- B1 row 4: the third bit. -/
theorem test_bit_put :
    result (exec (.bitPut 1) { State.reset with acc := 2, fill := 2 }) (fun t => (t.acc, t.fill, t.obufLen)) =
      some (5, 3, 0) := by decide +kernel

/-- B6: the seventh `bit.put 1` finds OBUF full. -/
theorem test_bit_put_overflow :
    result (exec (.bitPut 1) full) (fun t => (t.faultCode, t.acc, t.fill, t.obufLen)) =
      some (.outputOverflow, 0x3F, 7, 1) := by decide +kernel

/-- B1 row 6. -/
theorem test_bit_putn :
    result (exec (.bitPutn 1 10) State.reset) (fun t => (t.acc, t.fill, t.obuf, t.obufLen)) =
      some (3, 2, [(0, 0xFF)], 1) := by decide +kernel

/-- B5: a second byte does not fit, and the first one's bits leave no trace. -/
theorem test_bit_putn_overflow :
    result (exec (.bitPutn 1 15) { full with acc := 0, fill := 0 }) (fun t => (t.faultCode, t.acc, t.fill, t.obufLen)) =
      some (.outputOverflow, 0, 0, 1) := by decide +kernel

/-- B1 row 5: 0b101 and five zeros. -/
theorem test_bit_flush :
    result (exec .bitFlush { State.reset with acc := 5, fill := 3 }) (fun t => (t.acc, t.fill, t.obuf, t.obufLen)) =
      some (0, 0, [(0, 0xA0)], 1) := by decide +kernel

/-- B1: the first bit of 0xA0, then B7: padding. -/
theorem test_bit_get :
    result (exec .bitGet { State.reset with ibuf := [(0, 0xA0), (1, 0x5C)], ibufLen := 2 })
      (fun t => (t.result, t.srcByte, t.srcRem, t.ipos)) = some (1, 0xA0, 7, 1) ∧
      result (exec .bitGet State.reset) (fun t => (t.result, t.eoi, t.ipos)) = some (2, true, 0) := by decide +kernel

/-- 1.1 row 7. -/
theorem test_enc_start :
    result (exec .encStart { ab with low := 0x1234, high := 0x9234, follow := 3, acc := 1, fill := 1, obufLen := 1 })
      (fun t => (t.session, t.low, t.high, t.follow, t.fill, t.obufLen)) = some (.enc, 0, 0xFFFF, 0, 0, 0) := by
  decide +kernel

/-- E1 row 3: two pending bits come out behind the first LOWER. -/
theorem test_enc_symbol_follow :
    result (exec (.encSymbol 0x41)
      { built [(0x41, 1), (0x42, 2), (0x43, 1)] with session := .enc, follow := 2, encCount := 2 })
      (fun t => (t.low, t.high, t.follow, t.acc, t.fill, t.encCount)) = some (0, 0xFFFF, 0, 6, 4, 3) := by
  decide +kernel

/-- E2 row 3: UPPER, then MIDDLE, from an interval with odd ends. -/
theorem test_enc_symbol_narrow :
    result (exec (.encSymbol 0x43)
      { built [(0x41, 1), (0x42, 1), (0x43, 1)] with
        session := .enc, low := 0x5554, high := 0xC719, acc := 1, fill := 2, encCount := 2 })
      (fun t => (t.low, t.high, t.follow, t.acc, t.fill)) = some (0x04B4, 0x9C67, 1, 3, 3) := by decide +kernel

/-- 1.3: bits 0 1 from the finish behind the bits 0 1, padded. -/
theorem test_enc_finish :
    result (exec .encFinish abCoded) (fun t => (t.session, t.obuf, t.obufLen, t.fill, t.follow)) =
      some (.idle, [(0, 0x50)], 1, 0, 0) := by decide +kernel

/-- E2 row 4: FOLLOW becomes 2, so 0 1 1 follow 0 1 1. -/
theorem test_enc_finish_follow :
    result (exec .encFinish
      { built [(0x41, 1), (0x42, 1), (0x43, 1)] with
        session := .enc, low := 0x04B4, high := 0x9C67, follow := 1, acc := 3, fill := 3, encCount := 3 })
      (fun t => (t.session, t.obuf)) = some (.idle, [(0, 0x6C)]) := by decide +kernel

/-- 1.3: the first 16 bits of [50], padded. -/
theorem test_dec_start :
    result (exec (.decStart 2) { ab with ibuf := [(0, 0x50)], ibufLen := 1 })
      (fun t => (t.value, t.ipos, t.eoi, t.remaining, t.session)) = some (0x5000, 1, true, 2, .dec) := by
  decide +kernel

/-- R224: a declared count other than TOTAL. -/
theorem test_dec_start_format :
    result (exec (.decStart 3) ab) (fun t => (t.session, t.faultCode)) = some (.faulted, .format) := by decide +kernel

/-- 1.3: 'A' by LOWER. -/
theorem test_dec_symbol_lower :
    result (exec .decSymbol abDec) (fun t => (t.result, t.obuf, t.value, t.remaining, t.session)) =
      some (0x41, [(0, 0x41)], 0xA000, 1, .dec) := by decide +kernel

/-- 1.3: 'B' by UPPER, the last symbol. -/
theorem test_dec_symbol_upper :
    result (exec .decSymbol { abDec with value := 0xA000, remaining := 1, obuf := [(0, 0x41)], obufLen := 1 })
      (fun t => (t.result, t.obuf, t.value, t.session)) = some (0x42, [(0, 0x41), (1, 0x42)], 0x4000, .idle) := by
  decide +kernel

/-- R38: FAULTED, BUILT, EOI and OUTPUT_OVERFLOW in STATUS. -/
theorem test_status :
    statusWord { ab with session := .faulted, eoi := true, faultCode := .outputOverflow } = 0x90F := by decide +kernel

/-- R67: OBUF reads as 0 from OBUF_LEN on. -/
theorem test_window_reads :
    busRead 0x200000000 8 full = 0xFF ∧ busRead 0x200000000 8 { full with obufLen := 0 } = 0 ∧
      busRead 0x200000000 64 full = 0 ∧ busRead 0x010 32 { full with result := 7 } = 0 := by decide +kernel

/-! ### States that meet the invariant -/

theorem test_inv_ab : Machine.Inv ab := by
  constructor
  case builtTable => exact fun _ => rfl
  all_goals decide +kernel

theorem test_inv_empty : Machine.Inv (built []) := by
  constructor
  case builtTable => exact fun _ => rfl
  all_goals decide +kernel

theorem test_inv_abEnc : Machine.Inv abEnc := by
  constructor
  case builtTable => exact fun _ => rfl
  all_goals decide +kernel

theorem test_inv_abCoded : Machine.Inv abCoded := by
  constructor
  case builtTable => exact fun _ => rfl
  all_goals decide +kernel

theorem test_inv_abDec : Machine.Inv abDec := by
  constructor
  case builtTable => exact fun _ => rfl
  all_goals decide +kernel

theorem test_inv_full : Machine.Inv full := by
  constructor
  case builtTable => exact fun h => Bool.noConfusion h
  case clearTable => exact fun _ => rfl
  all_goals decide +kernel

theorem test_inv_fullEnc : Machine.Inv fullEnc := by
  constructor
  case builtTable => exact fun _ => rfl
  all_goals decide +kernel

theorem test_inv_fullDec : Machine.Inv fullDec := by
  constructor
  case builtTable => exact fun _ => rfl
  all_goals decide +kernel

theorem test_inv_faulted : Machine.Inv faulted := by
  constructor
  case builtTable => exact fun h => Bool.noConfusion h
  case clearTable => exact fun _ => rfl
  all_goals decide +kernel

theorem test_inv_reset : Machine.Inv State.reset := by
  constructor
  case builtTable => exact fun h => Bool.noConfusion h
  case clearTable => exact fun _ => rfl
  all_goals decide +kernel

/-! ### Witnesses: states and operands that meet the statements' hypotheses, clause by clause -/

/-- EncodeDecodeAgree. -/
theorem test_witness_decode : decode 0x12410000FFFFFFFF = .ok (.modelSetCount 0x41 0xFFFFFFFF) := by decide

/-- StepRunsDecodedCommand: a command word pending. -/
theorem test_witness_step :
    (pushCommand 0x3000000000000000 ab).pending = .write cmdAddr 64 0x3000000000000000 :: ab.pending ∧
      decode 0x3000000000000000 = .ok .encStart := by
  exact ⟨rfl, by decide⟩

/-- AccessesServedInOrder: nothing pending, and two accesses pending. -/
theorem test_witness_accesses :
    State.reset.pending = [] ∧
      ({ State.reset with pending := [.resetInput, .read 0x008 64] } : State).pending =
        .resetInput :: [.read 0x008 64] := by decide

/-- LegalityTable: a cell that is not legal. BadStateOnlyWhereIllegal, FaultCausesByCommand: the fault it raises. -/
theorem test_witness_illegal :
    State.reset.session ≠ .faulted ∧ legal (.encSymbol 0x41) State.reset.session State.reset.built = false ∧
      exec (.encSymbol 0x41) State.reset = .next faulted ∧ faulted.session = .faulted ∧
      faulted.faultCode = .badState := by
  exact ⟨by decide, by decide, rfl, rfl, rfl⟩

/-- BadStateOnlyWhereIllegal, FaultCausesByCommand: a legal command that faults in its body. -/
theorem test_witness_body_fault :
    ∃ t, exec (.bitPut 1) full = .next t ∧ t.session = .faulted ∧ t.faultCode = .outputOverflow :=
  ⟨after (exec (.bitPut 1) full), next_after (by decide +kernel), by decide +kernel, by decide +kernel⟩

/-- FaultsLeaveNoTrace: a word that no command has, and a command's word. -/
theorem test_witness_word_fault :
    (∃ t, issueWord 0x5000000000000000 ab = .next t ∧ t.session = .faulted) ∧
      ∃ t, issueWord 0x2101000000000000 full = .next t ∧ t.session = .faulted :=
  ⟨⟨after (issueWord 0x5000000000000000 ab), next_after (by decide +kernel), by decide +kernel⟩,
    ⟨after (issueWord 0x2101000000000000 full), next_after (by decide +kernel), by decide +kernel⟩⟩

/-- FaultedIgnoresAllButReset: FAULTED, a word that is not the RESET word, and a write that is no command. -/
theorem test_witness_faulted :
    faulted.session = .faulted ∧ (0x0100000000000001 : Word) ≠ 0x0100000000000000 ∧ isCommand 0x070 64 = false := by
  decide

/-- RegistersWrittenOnlyByTheirCommands: NOP, whose opcode none of its lists holds, outside FAULTED and in it (the fault
itself: test_witness_illegal). BuffersWrittenOnlyByAppend and EmittedBytesAreFinal: a command other than RESET that completes, with a byte of OBUF on either side of OBUF_LEN. -/
theorem test_witness_frame :
    (∃ t, exec .nop ab = .next t ∧ t.session ≠ .faulted ∧ opcField (encode .nop) = 0x00) ∧
      (exec .nop faulted = .next faulted ∧ faulted.session = .faulted) ∧
      ∃ t, exec (.encSymbol 0x42) fullEnc = .next t ∧ fullEnc.session = .enc ∧ 0 < fullEnc.obufLen.toNat :=
  ⟨⟨after (exec .nop ab), next_after (by decide +kernel), by decide +kernel, by decide⟩, ⟨rfl, rfl⟩,
    ⟨after (exec (.encSymbol 0x42) fullEnc), next_after (by decide +kernel), by decide, by decide⟩⟩

/-- BuffersWrittenOnlyByAppend: a command that appends. -/
theorem test_witness_append :
    ∃ t, exec (.bitPutn 1 10) State.reset = .next t ∧ State.reset.obufLen.toNat < t.obufLen.toNat :=
  ⟨after (exec (.bitPutn 1 10) State.reset), next_after (by decide +kernel), by decide +kernel⟩

/-- SessionTransitions: into ENC, out of it, into DEC, out of it, into FAULTED and out of it. -/
theorem test_witness_sessions :
    result (exec .encStart ab) State.session = some .enc ∧
      result (exec .encFinish abCoded) State.session = some .idle ∧
      result (exec (.decStart 2) ab) State.session = some .dec ∧
      result (exec .decSymbol { abDec with value := 0xA000, remaining := 1 }) State.session = some .idle ∧
      result (exec .bitReset abEnc) State.session = some .faulted ∧
      result (exec .reset faulted) State.session = some .idle := by decide +kernel

/-- ModelClearResult, ModelCountResult, ModelSetCountResult, ModelBuildResult: IDLE and not built, with a count one below
its highest value and at it, and operands on either side of 2^32 - 1. -/
theorem test_witness_model :
    State.reset.session = .idle ∧ State.reset.built = false ∧
      (tally [(0x41, 2 ^ 32 - 2)])[0x41].toNat < 2 ^ 32 - 1 ∧
      (tally [(0x41, 2 ^ 32 - 1)])[0x41].toNat = 2 ^ 32 - 1 ∧
      (0xFFFFFFFF : Imm).toNat ≤ 2 ^ 32 - 1 ∧ 2 ^ 32 - 1 < (0x100000000 : Imm).toNat := by decide +kernel

/-- ModelReadCountResult, ModelReadCumResult, ModelFindResult, FindSymbolFindsTheOneSymbol, BuiltModelIsMonotoneAndSearchable:
a built model outside FAULTED, the last index and one past it, the last value below TOTAL and TOTAL itself. -/
theorem test_witness_query :
    Machine.Inv ab ∧ ab.session ≠ .faulted ∧ ab.built = true ∧ (256 : Imm).toNat < 257 ∧ 256 < (257 : Imm).toNat ∧
      (1 : Imm).toNat < ab.total.toNat ∧ ab.total.toNat ≤ (2 : Imm).toNat ∧ cumLow 0x42 ab ≤ 1 ∧
      1 < cumHigh 0x42 ab :=
  ⟨test_inv_ab, by decide, rfl, by decide, by decide, by decide +kernel, by decide +kernel, by decide +kernel,
    by decide +kernel⟩

/-- BuiltModelIsImmutable: a built model, a command that leaves it, MODEL_COUNT on it, MODEL_CLEAR and RESET. -/
theorem test_witness_immutable :
    ab.built = true ∧ (∃ t, exec .nop ab = .next t) ∧ opcField (encode (.modelCount 0x41)) = 0x11 ∧
      (∃ t, exec .modelClear ab = .next t) ∧ ∃ t, exec .reset ab = .next t :=
  ⟨rfl, ⟨_, next_after (by decide +kernel)⟩, by decide, ⟨_, next_after (by decide +kernel)⟩, ⟨_, rfl⟩⟩

/-- BitPutResult, BitPutnResult: operands 2 and 1; seven bits waiting with OBUF full and with room; bits that just fit OBUF
and bits that just do not. BitResetResult: IDLE. -/
theorem test_witness_bits :
    Machine.Inv full ∧ full.session = .idle ∧ 1 < (2 : Byte).toNat ∧ (1 : Byte).toNat ≤ 1 ∧ full.fill = 7 ∧
      full.obufLen.toNat = full.cfg.obufCap ∧ Machine.Inv State.reset ∧
      State.reset.obufLen.toNat < State.reset.cfg.obufCap ∧
      full.cfg.obufCap < full.obufLen.toNat + (full.fill.toNat + (1 : Imm).toNat) / 8 ∧
      full.obufLen.toNat + (full.fill.toNat + (0 : Imm).toNat) / 8 ≤ full.cfg.obufCap :=
  ⟨test_inv_full, rfl, by decide, by decide, rfl, by decide, test_inv_reset, by decide, by decide, by decide⟩

/-- BitFlushResult: nothing to flush; OBUF full; room. -/
theorem test_witness_flush :
    State.reset.fill = 0 ∧ (full.fill ≠ 0 ∧ full.obufLen.toNat = full.cfg.obufCap) ∧ Machine.Inv abCoded ∧
      abCoded.fill ≠ 0 ∧ abCoded.obufLen.toNat < abCoded.cfg.obufCap :=
  ⟨rfl, by decide, test_inv_abCoded, by decide, by decide⟩

/-- BitGetResult: IDLE, with one bit left and with none. -/
theorem test_witness_get :
    inputBits { State.reset with srcByte := 1, srcRem := 1 } = [true] ∧ inputBits State.reset = [] ∧
      Machine.Inv { State.reset with srcByte := 1, srcRem := 1 } := by
  refine ⟨by decide +kernel, by decide +kernel, ?_⟩
  constructor
  case builtTable => exact fun h => Bool.noConfusion h
  case clearTable => exact fun _ => rfl
  all_goals decide +kernel

/-- EncStartResult, DecStartResult: IDLE and built; a declared count that is not TOTAL, one that is, and TOTAL = 0. -/
theorem test_witness_start :
    Machine.Inv ab ∧ ab.session = .idle ∧ ab.built = true ∧ (3 : Imm).toNat ≠ ab.total.toNat ∧
      (2 : Imm).toNat = ab.total.toNat ∧ (2 : Imm) ≠ 0 ∧ Machine.Inv (built []) ∧
      (0 : Imm).toNat = (built []).total.toNat :=
  ⟨test_inv_ab, rfl, rfl, by decide +kernel, by decide +kernel, by decide, test_inv_empty, by decide +kernel⟩

/-- FiredBranchDoublesWidth, RenormalizationIsBounded: an interval for each firing branch, at the branch's edge, and both
loops where they complete. -/
theorem test_witness_branches :
    classify 0x0000 0x7FFF = .lower ∧ classify 0x8000 0xFFFF = .upper ∧ classify 0x4000 0xBFFF = .middle ∧
      (0x4000 : BitVec 16) ≤ 0xBFFF ∧ encRenorm renormFuel State.reset = .ok State.reset ∧
      decRenorm renormFuel State.reset = .ok State.reset :=
  ⟨by decide, by decide, by decide, by decide, rfl, rfl⟩

/-- The renormalization on integers, by R183-R186: a LOWER fire (R188's example), an UPPER one with two bits pending, and a
MIDDLE one. -/
theorem test_renorm :
    renorm 16 0x0000 0x7FFF 0 = ⟨0x0000, 0xFFFF, 0, [false], 1⟩ ∧
      renorm 16 0x8000 0xFFFF 2 = ⟨0x0000, 0xFFFF, 0, [true, false, false], 1⟩ ∧
      renorm 16 0x4000 0x9FFF 0 = ⟨0x0000, 0xBFFF, 1, [], 1⟩ := by decide +kernel

/-- `abEnc` with OBUF of one byte, empty, and seven bits in the sink. -/
def tightEnc : State := { abEnc with cfg := ⟨1, 1⟩, acc := 0x3F, fill := 7 }

/-- NarrowStaysInside, EncSymbolCompletes, SmallTotalNeverEmptiesTheInterval: an encode session with a symbol left, a symbol
of nonzero count, a non-empty interval, and exactly the room that is asked for. -/
theorem test_witness_enc_symbol :
    Machine.Inv tightEnc ∧ tightEnc.session = .enc ∧ tightEnc.encCount.toNat < tightEnc.total.toNat ∧
      narrowedLow 0x42 tightEnc ≤ narrowedHigh 0x42 tightEnc ∧ tightEnc.count[0x42] ≠ 0 ∧
      tightEnc.total.toNat ≤ 16386 ∧ 0 < tightEnc.total.toNat ∧
      renormAfter 0x42 tightEnc.follow.toNat tightEnc = ⟨0x0000, 0xFFFF, 0, [true], 1⟩ ∧
      tightEnc.obufLen.toNat + (tightEnc.fill.toNat + [true].length) / 8 = tightEnc.cfg.obufCap := by
  refine ⟨?_, rfl, by decide +kernel, by decide +kernel, by decide +kernel, by decide +kernel, by decide +kernel,
    by decide +kernel, by decide⟩
  constructor
  case builtTable => exact fun _ => rfl
  all_goals decide +kernel

/-- EncSymbolFaultsInOrder: all symbols encoded; a symbol of count 0 and its empty interval; a byte that does not fit. -/
theorem test_witness_enc_faults :
    (Machine.Inv abCoded ∧ abCoded.session = .enc ∧ abCoded.encCount = abCoded.total) ∧
      (Machine.Inv abEnc ∧ abEnc.encCount ≠ abEnc.total ∧ abEnc.count[0x43] = 0 ∧
        narrowedHigh 0x43 abEnc < narrowedLow 0x43 abEnc) ∧
      Machine.Inv fullEnc ∧ fullEnc.encCount ≠ fullEnc.total ∧ narrowedLow 0x42 fullEnc ≤ narrowedHigh 0x42 fullEnc ∧
      fullEnc.cfg.obufCap <
        fullEnc.obufLen.toNat + (fullEnc.fill.toNat + (renormAfter 0x42 fullEnc.follow.toNat fullEnc).bits.length) / 8 := by
  refine ⟨⟨test_inv_abCoded, rfl, by decide +kernel⟩, ⟨test_inv_abEnc, by decide +kernel, by decide +kernel,
    by decide +kernel⟩, ?_, by decide +kernel, by decide +kernel, by decide +kernel⟩
  constructor
  case builtTable => exact fun _ => rfl
  all_goals decide +kernel

/-- EncFinishResult: symbols left; TOTAL = 0; bytes that fit; bytes that do not. -/
theorem test_witness_finish :
    abEnc.encCount ≠ abEnc.total ∧
      (Machine.Inv { built [] with session := .enc } ∧ (built []).encCount = (built []).total ∧ (built []).total = 0) ∧
      (abCoded.encCount = abCoded.total ∧ abCoded.total ≠ 0 ∧
        abCoded.obufLen.toNat + (abCoded.fill.toNat + abCoded.follow.toNat + 9) / 8 ≤ abCoded.cfg.obufCap) ∧
      (Machine.Inv { fullEnc with encCount := 2 } ∧ 2 = fullEnc.total ∧
        fullEnc.cfg.obufCap < fullEnc.obufLen.toNat + (fullEnc.fill.toNat + fullEnc.follow.toNat + 9) / 8) := by
  refine ⟨by decide +kernel, ⟨?_, by decide +kernel, by decide +kernel⟩, by decide +kernel,
    ⟨?_, by decide +kernel, by decide⟩⟩
  all_goals
    constructor
    case builtTable => exact fun _ => rfl
    all_goals decide +kernel

/-- StreamDependsOnlyOnModelAndSymbols: two states that differ, and one sequence both encode. -/
theorem test_witness_stream :
    Machine.Inv ab ∧ Machine.Inv { ab with value := 7 } ∧
      isNext (runCommands (encBytes [0x41, 0x42]) ab) = true ∧
      isNext (runCommands (encBytes [0x41, 0x42]) { ab with value := 7 }) = true := by
  refine ⟨test_inv_ab, ?_, by decide +kernel, by decide +kernel⟩
  constructor
  case builtTable => exact fun _ => rfl
  all_goals decide +kernel

/-- DecSymbolResult, ClampIsNeverActive: a decode session with OBUF full, and with room for one byte. -/
theorem test_witness_dec_symbol :
    (Machine.Inv fullDec ∧ fullDec.session = .dec ∧ fullDec.obufLen.toNat = fullDec.cfg.obufCap) ∧
      Machine.Inv abDec ∧ abDec.session = .dec ∧ abDec.obufLen.toNat < abDec.cfg.obufCap :=
  ⟨⟨test_inv_fullDec, rfl, by decide⟩, test_inv_abDec, rfl, by decide⟩

/-- DecoderMirrorsEncoderInterval: both narrow [0, 0xFFFF] to 'A'. -/
theorem test_witness_mirror :
    abEnc.low = abDec.low ∧ abEnc.high = abDec.high ∧ abEnc.cum = abDec.cum ∧
      result (exec (.encSymbol 0x41) abEnc) State.session = some .enc ∧
      result (exec .decSymbol abDec) (fun u => (u.session, u.result)) =
        some (.dec, BitVec.setWidth 64 (0x41 : Byte)) :=
  ⟨rfl, rfl, rfl, by decide +kernel, by decide +kernel⟩

/-- RoundTrip: "AB" encoded, and its one byte in the IBUF of a core with the same counts (95_test_vectors 1.3). -/
theorem test_witness_round_trip :
    result (runCommands (encBytes [0x41, 0x42]) ab) (fun t => (t.session, t.obufLen, obufByte t 0)) =
      some (.idle, 1, 0x50) ∧
      Machine.Inv { ab with ibuf := [(0, 0x50)], ibufLen := 1 } ∧
      ibufByte { ab with ibuf := [(0, 0x50)], ibufLen := 1 } 0 = 0x50 := by
  refine ⟨by decide +kernel, ?_, by decide +kernel⟩
  constructor
  case builtTable => exact fun _ => rfl
  all_goals decide +kernel

/-- BadAccessesDoNothing: an access of each kind, at an edge of each range. -/
theorem test_witness_bad_accesses :
    Config.ofVectors.wf ∧
      ((0x000 : Addr).toNat < 0x1000 ∧ (32 : Nat) ≠ 64) ∧ (0x004 : Addr).toNat % 8 ≠ 0 ∧
      (0x080 : Addr).toNat = 0x080 ∧ (0xFF8 : Addr).toNat < 0x1000 ∧ (0x1000 : Addr).toNat = 0x1000 ∧
      (0xFFFFFFFF : Addr).toNat < 0x100000000 ∧
      0x100000000 + Config.ofVectors.ibufCap ≤ (0x100100000 : Addr).toNat ∧
      0x200000000 + Config.ofVectors.obufCap ≤ (0x200100000 : Addr).toNat ∧
      0x100000000 ≤ (0x100000000 : Addr).toNat ∧ (16 : Nat) ≠ 8 := by decide +kernel

/-- OnlyThreeWritesHaveEffects: writes to RESULT, to the first OBUF byte and, 64 bits wide, to the first IBUF byte. -/
theorem test_witness_other_writes :
    (0x010 : Addr).toNat ≠ 0x000 ∧ (0x010 : Addr).toNat ≠ 0x070 ∧ (0x010 : Addr).toNat < 0x100000000 ∧
      0x100000000 + State.reset.cfg.ibufCap ≤ (0x200000000 : Addr).toNat ∧ (64 : Nat) ≠ 8 := by decide +kernel

/-- InputWindow, InputLengthWrite, OutputWindow: the last byte of each window, in IDLE and outside it; lengths at IBUF_CAP and
past it; a byte below OBUF_LEN and one at it. -/
theorem test_witness_windows :
    ((2 ^ 20 - 1 < State.reset.cfg.ibufCap ∧ (0x1000FFFFF : Addr).toNat = 0x100000000 + (2 ^ 20 - 1)) ∧
      State.reset.session = .idle ∧ abEnc.session ≠ .idle) ∧
      ((2 ^ 20 : Word).toNat ≤ State.reset.cfg.ibufCap ∧ State.reset.cfg.ibufCap < (2 ^ 20 + 1 : Word).toNat) ∧
      ((0 : Nat) < full.cfg.obufCap ∧ (0x200000000 : Addr).toNat = 0x200000000 + 0 ∧ full.cfg.wf ∧
        0 < full.obufLen.toNat) ∧
      2 ^ 20 - 1 < State.reset.cfg.obufCap ∧ (0x2000FFFFF : Addr).toNat = 0x200000000 + (2 ^ 20 - 1) ∧
      State.reset.obufLen.toNat ≤ 2 ^ 20 - 1 := by decide +kernel

/-- StepKeepsTheInvariant, StepAlwaysAnswers, StepKeepsBuffersCanonical: a state in each session, with an access pending. -/
theorem test_witness_invariant :
    Machine.Inv ab ∧ Machine.Inv abEnc ∧ Machine.Inv abDec ∧ Machine.Inv faulted ∧
      (∃ t, step (pushCommand 0x3141000000000000 abEnc) = .next t) ∧
      Memory.wf full.ibuf ∧ Memory.wf full.obuf ∧ ∃ t, step (pushCommand 0x2301000000000000 full) = .next t :=
  ⟨test_inv_ab, test_inv_abEnc, test_inv_abDec, test_inv_faulted, ⟨_, next_after (by decide +kernel)⟩, by decide,
    by decide, ⟨_, next_after (by decide +kernel)⟩⟩

end Sys2Proof.Tests
end

/-! SUPPORT. The statements about the state (10_state). -/

namespace Sys2Proof

/-- Decoding a command's word gives the command back (30_encoding R95-R97). -/
theorem decode_encode (i : Instr) : decode (encode i) = .ok i := by
  cases i <;> simp [decode, encode, decodeFields, opRow?, opTable]

/-- The upper part of a concatenation counts in units of the lower part's size. -/
theorem toNat_append_eq_add {m n : Nat} (x : BitVec m) (y : BitVec n) :
    (x ++ y).toNat = x.toNat * 2 ^ n + y.toNat := by
  rw [BitVec.toNat_append, ← Nat.shiftLeft_add_eq_or_of_lt y.isLt, Nat.shiftLeft_eq]

end Sys2Proof

namespace Sys2Proof.Machine

/-! ### Reset -/

/-- Settles O18: the reset state's registers one by one, the two tables entry by entry. -/
theorem resetStateHoldsTheResetValues : Obligations.ResetStateHoldsTheResetValues := by
  unfold Obligations.ResetStateHoldsTheResetValues
  constructor
  case count => exact fun k hk => Vector.getElem_replicate hk
  case cum => exact fun k hk => Vector.getElem_replicate hk
  all_goals rfl

/-- A reset leaves every register as the reset state has it, whatever stood there before (R300). -/
theorem performReset_resetValues (s : State) : ResetValues (performReset s) := by
  have h : ResetValues State.reset := resetStateHoldsTheResetValues
  constructor
  case count => exact h.count
  case cum => exact h.cum
  all_goals rfl

/-- Settles O17: both sources are `performReset`. -/
theorem resetRestoresEveryRegister : Obligations.ResetRestoresEveryRegister := by
  unfold Obligations.ResetRestoresEveryRegister
  exact fun s => ⟨performReset s, exec_reset s, rfl, performReset_resetValues s, rfl, rfl, rfl⟩

/-- Settles O57: the reset state is a state after a reset, but for the number of its draw. -/
theorem resetMeetsTheInvariant : Obligations.ResetMeetsTheInvariant := by
  unfold Obligations.ResetMeetsTheInvariant
  have hcfg : State.reset.cfg.wf := by decide
  exact (Inv.reset hcfg).congr rfl

/-! ### The composite registers -/

/-- Settles O48: each word is a concatenation, read from the low end. -/
theorem compositeRegisters : Obligations.CompositeRegisters := by
  unfold Obligations.CompositeRegisters
  intro s
  refine ⟨?_, ?_, ?_⟩
  · simp only [statusWord, toNat_append_eq_add, BitVec.toNat_ofBool, BitVec.toNat_ofNat]
    omega
  · simp only [sinkWord, toNat_append_eq_add, BitVec.toNat_ofNat]
    omega
  · simp only [sourceWord, toNat_append_eq_add, BitVec.toNat_ofNat]
    omega

/-! ### Steps that issue a command -/

/-- Serving the host's write of a command's word runs the command (R97). -/
theorem serve_command {w : Word} {i : Instr} (hw : decode w = .ok i) (s : State) :
    serve (.write cmdAddr 64 w) s = exec i s := by
  have hc : isCommand cmdAddr 64 = true := by decide
  simp [serve, hc, issueWord, hw]

/-- A step serves the oldest pending access on the state without it (R75). -/
theorem step_pending {s : State} {a : Access} {rest : List Access} (hp : s.pending = a :: rest) :
    step s = serve a { s with pending := rest } := by
  simp [step, serveNext, hp]

/-- A command's word, put in a 64-bit fetch, is the word pushed before the pending accesses. -/
theorem withFetchWord_toNat (s : State) (w : Word) : s.withFetchWord 64 w.toNat = pushCommand w s := by
  rw [State.withFetchWord, Nat.mod_eq_of_lt w.isLt, BitVec.ofNat_toNat, BitVec.setWidth_eq]

/-- Settles O5: the access served is the write of the command's word. -/
theorem stepRunsDecodedCommand : Obligations.StepRunsDecodedCommand := by
  unfold Obligations.StepRunsDecodedCommand
  constructor
  · intro s w rest i hp hw
    rw [step_pending hp, serve_command hw]
  · intro s i
    rw [withFetchWord_toNat, step_pending (pushCommand_pending _ s), serve_command (decode_encode i)]
    rfl

/-! ### What a command can do -/

/-- NONE is no command's fault. -/
theorem none_notMem_bodyFaults (i : Instr) : FaultCode.none ∉ bodyFaults i := by
  cases i <;> simp [bodyFaults]

/-- What a command can do, with BAD_STATE and the body's own faults as one: reset, be ignored in FAULTED, record a fault,
or complete. -/
theorem exec_outcome {i : Instr} {s t : State} (h : exec i s = .next t) :
    (i = .reset ∧ t = performReset s) ∨
    (s.session = .faulted ∧ t = s) ∨
    (s.session ≠ .faulted ∧ ∃ c, c ≠ .none ∧ t = faultEntry c (encode i) s) ∨
    (i ≠ .reset ∧ s.session ≠ .faulted ∧ legal i s.session s.built = true ∧ bodyOf i s = .ok t) := by
  rcases exec_next h with ⟨hi, ht⟩ | ⟨-, hs, ht⟩ | ⟨-, hs, -, ht⟩ | ⟨hi, hs, hl, hb⟩ | ⟨hi, hs, -, c, hb, ht⟩
  · exact .inl ⟨hi, ht⟩
  · exact .inr (.inl ⟨hs, ht⟩)
  · exact .inr (.inr (.inl ⟨hs, .badState, by decide, ht⟩))
  · exact .inr (.inr (.inr ⟨hi, hs, hl, hb⟩))
  · have hc : c ≠ .none := fun hc => none_notMem_bodyFaults i (hc ▸ bodyOf_raise hi hb)
    exact .inr (.inr (.inl ⟨hs, c, hc, ht⟩))

/-! ### Which registers a body writes -/

/-- `s` with the registers that the command may write, as the table of R21 names them, and OBUF taken from `t`. -/
def withWritten : Instr → State → State → State
  | .nop, s, _ => s
  | .reset, _, t => t
  | .modelClear, s, t => { s with count := t.count, cum := t.cum, built := t.built }
  | .modelCount _, s, t => { s with count := t.count }
  | .modelSetCount _ _, s, t => { s with count := t.count }
  | .modelBuild, s, t => { s with cum := t.cum, built := t.built }
  | .modelReadCount _, s, t => { s with result := t.result }
  | .modelReadCum _, s, t => { s with result := t.result }
  | .modelFind _, s, t => { s with result := t.result }
  | .bitReset, s, t =>
    { s with
      acc := t.acc, fill := t.fill, obufLen := t.obufLen
      srcByte := t.srcByte, srcRem := t.srcRem, eoi := t.eoi, ipos := t.ipos }
  | .bitPut _, s, t => { s with acc := t.acc, fill := t.fill, obuf := t.obuf, obufLen := t.obufLen }
  | .bitPutn _ _, s, t => { s with acc := t.acc, fill := t.fill, obuf := t.obuf, obufLen := t.obufLen }
  | .bitFlush, s, t => { s with acc := t.acc, fill := t.fill, obuf := t.obuf, obufLen := t.obufLen }
  | .bitGet, s, t =>
    { s with result := t.result, srcByte := t.srcByte, srcRem := t.srcRem, eoi := t.eoi, ipos := t.ipos }
  | .encStart, s, t =>
    { s with
      session := t.session, low := t.low, high := t.high, follow := t.follow, encCount := t.encCount
      acc := t.acc, fill := t.fill, obufLen := t.obufLen }
  | .encSymbol _, s, t =>
    { s with
      low := t.low, high := t.high, follow := t.follow, encCount := t.encCount
      acc := t.acc, fill := t.fill, obuf := t.obuf, obufLen := t.obufLen }
  | .encFinish, s, t =>
    { s with
      session := t.session, follow := t.follow
      acc := t.acc, fill := t.fill, obuf := t.obuf, obufLen := t.obufLen }
  | .decStart _, s, t =>
    { s with
      session := t.session, low := t.low, high := t.high, value := t.value, remaining := t.remaining
      srcByte := t.srcByte, srcRem := t.srcRem, eoi := t.eoi, ipos := t.ipos, obufLen := t.obufLen }
  | .decSymbol, s, t =>
    { s with
      session := t.session, low := t.low, high := t.high, value := t.value, remaining := t.remaining
      srcByte := t.srcByte, srcRem := t.srcRem, eoi := t.eoi, ipos := t.ipos
      obuf := t.obuf, obufLen := t.obufLen, result := t.result }

/-- A body that completes writes the registers of its command only (R21). -/
theorem bodyOf_withWritten {i : Instr} {s t : State} (h : bodyOf i s = .ok t) : t = withWritten i s t := by
  cases i with
  | nop => cases h; rfl
  | reset => rfl
  | modelClear => cases h; rfl
  | modelCount sym => exact modelCountBody_frame h
  | modelSetCount sym n => exact modelSetCountBody_frame h
  | modelBuild => cases h; rfl
  | modelReadCount sym => cases h; rfl
  | modelReadCum k => exact modelReadCumBody_frame h
  | modelFind v => exact modelFindBody_frame h
  | bitReset => cases h; rfl
  | bitPut b => exact bitPutBody_frame h
  | bitPutn b n => exact bitPutnBody_frame h
  | bitFlush => exact flush_sinkOnly h
  | bitGet => exact bitGetBody_frame h
  | encStart => cases h; rfl
  | encSymbol sym => exact encSymbolBody_frame h
  | encFinish =>
    rw [encFinishBody_frame h]
    rfl
  | decStart n =>
    rw [decStartBody_frame h]
    rfl
  | decSymbol =>
    obtain ⟨sym, hf⟩ := decSymbolBody_frame h
    rw [hf]
    rfl

/-- What a legal body that completes makes of SESSION: the transitions of R22 other than faults and reset. -/
theorem bodyOf_session {i : Instr} {s t : State} (hi : i ≠ .reset) (hl : legal i s.session s.built = true)
    (h : bodyOf i s = .ok t) :
    t.session = s.session ∨
    (s.session = .idle ∧ i = .encStart ∧ t.session = .enc) ∨
    (s.session = .enc ∧ i = .encFinish ∧ t.session = .idle) ∨
    (s.session = .idle ∧ (∃ n, i = .decStart n ∧ n ≠ 0) ∧ t.session = .dec) ∨
    (s.session = .dec ∧ i = .decSymbol ∧ t.remaining = 0 ∧ t.session = .idle) := by
  cases i with
  | reset => exact absurd rfl hi
  | encStart =>
    cases h
    simp only [legal, Bool.and_eq_true, beq_iff_eq] at hl
    exact .inr (.inl ⟨hl.1, rfl, rfl⟩)
  | encFinish =>
    have hf := encFinishBody_frame h
    simp only [legal, beq_iff_eq] at hl
    exact .inr (.inr (.inl ⟨hl, rfl, by rw [hf]⟩))
  | decStart n =>
    simp only [legal, Bool.and_eq_true, beq_iff_eq] at hl
    obtain ⟨-, ⟨-, rfl⟩ | ⟨hn, u, -, rfl⟩⟩ := decStartBody_ok h
    · exact .inl rfl
    · exact .inr (.inr (.inr (.inl ⟨hl.1, ⟨n, rfl, hn⟩, rfl⟩)))
  | decSymbol =>
    simp only [legal, beq_iff_eq] at hl
    obtain ⟨sym, hf⟩ := decSymbolBody_frame h
    by_cases hr : s.remaining = 1
    · exact .inr (.inr (.inr (.inr ⟨hl, rfl, by rw [hf, hr]; rfl, by rw [hf, if_pos hr]⟩)))
    · exact .inl (by rw [hf, if_neg hr])
  | _ => exact .inl (by rw [bodyOf_withWritten h]; rfl)

/-- A body that completes does not enter FAULTED (R264). -/
theorem bodyOf_session_ne_faulted {i : Instr} {s t : State} (hi : i ≠ .reset) (hs : s.session ≠ .faulted)
    (hl : legal i s.session s.built = true) (h : bodyOf i s = .ok t) : t.session ≠ .faulted := by
  rcases bodyOf_session hi hl h with ht | ⟨-, -, ht⟩ | ⟨-, -, ht⟩ | ⟨-, -, ht⟩ | ⟨-, -, -, ht⟩
  · rw [ht]; exact hs
  all_goals simp [ht]

/-- Settles O15, by what the command did: a reset, a recorded fault, or a body that moved SESSION. -/
theorem sessionTransitions : Obligations.SessionTransitions := by
  unfold Obligations.SessionTransitions
  intro i s t h hne
  rcases exec_outcome h with ⟨hi, rfl⟩ | ⟨-, rfl⟩ | ⟨hs, c, hc, rfl⟩ | ⟨hi, -, hl, hb⟩
  · exact .inr (.inr (.inr (.inr (.inr ⟨hi, rfl⟩))))
  · exact absurd rfl hne
  · exact .inr (.inr (.inr (.inr (.inl ⟨hs, rfl, hc⟩))))
  · rcases bodyOf_session hi hl hb with ht | ht | ht | ht | ht
    · exact absurd ht hne
    · exact .inl ht
    · exact .inr (.inl ht)
    · exact .inr (.inr (.inl ht))
    · exact .inr (.inr (.inr (.inl ht)))

/-- Settles O13: a reset may write every register, an ignored command none, a fault its three, and a body that completes
those of its command. -/
theorem registersWrittenOnlyByTheirCommands : Obligations.RegistersWrittenOnlyByTheirCommands := by
  unfold Obligations.RegistersWrittenOnlyByTheirCommands
  rintro i s t _ h rfl
  rcases exec_outcome h with ⟨rfl, rfl⟩ | ⟨hs, rfl⟩ | ⟨hs, c, hc, rfl⟩ | ⟨hi, hs, hl, hb⟩
  · have hidle : State.reset.session = .idle := rfl
    simp [encode, hidle]
  · simp [hs]
  · simp [hs, hc, faultEntry]
  · have ht := bodyOf_session_ne_faulted hi hs hl hb
    have hw := bodyOf_withWritten hb
    simp only [ht, false_implies, and_true]
    rw [hw]
    cases i with
    | reset => exact absurd rfl hi
    | _ => simp [encode, withWritten]

/-! ### The invariant -/

/-- A write of the host that is no command keeps the invariant (R69, R71). -/
theorem busWrite_inv {s : State} (h : Inv s) (a : Addr) (width : Nat) (data : Word) :
    Inv (busWrite a width data s) := by
  rcases busWrite_cases a width data s with hw | ⟨-, hlen, hw⟩ | ⟨-, i, hi, hw⟩ <;> rw [hw]
  · exact h
  · exact { h with ibufLenOk := hlen }
  · have hin : ∀ c ∈ Memory.write s.ibuf i (data.setWidth 8), c.1 < s.cfg.ibufCap := by
      intro c hc
      rcases Memory.mem_write hc with rfl | hc
      · exact hi
      · exact h.ibufIn c hc
    exact { h with ibufForm := Memory.wf_write i _ h.ibufForm, ibufIn := hin }

/-- A rejected word's fault is a fault (R96). -/
theorem rejection_ne_none (e : DecodeError) : rejection e ≠ .none := by
  cases e <;> decide

/-- Settles O56, by the access the step serves; each kind has its own preservation lemma. -/
theorem stepKeepsTheInvariant : Obligations.StepKeepsTheInvariant := by
  unfold Obligations.StepKeepsTheInvariant
  intro s t h hstep
  obtain ⟨-, rfl⟩ | ⟨a, rest, u, -, hu, hserve⟩ := step_next hstep
  · exact h
  · have hinv : Inv u := h.congr (by rw [hu])
    rcases hserve with ⟨-, rfl⟩ | ⟨addr, width, -, rfl⟩ | ⟨addr, width, data, -, -, rfl⟩ |
      ⟨addr, width, w, i, -, -, -, hexec⟩ | ⟨addr, width, w, e, -, -, -, ⟨-, rfl⟩ | ⟨-, rfl⟩⟩
    · exact .reset hinv.cfgOk
    · exact hinv.congr rfl
    · exact busWrite_inv hinv addr width data
    · exact exec_inv hinv hexec
    · exact hinv
    · exact hinv.fault (rejection_ne_none e)

end Sys2Proof.Machine

/-! SUPPORT. The statements about the memory and the host's side (20_memory). -/

namespace Sys2Proof.Machine

/-! ### Where an address lies -/

theorem region_eq_register {c : Config} {a : Addr} {o : Nat} :
    region c a = .register o ↔ a.toNat < 0x1000 ∧ a.toNat = o := by
  unfold region
  split
  · simp [*]
  · split
    · simp [*]
    · split <;> simp [*]

theorem region_eq_ibuf {c : Config} {a : Addr} {i : Nat} :
    region c a = .ibuf i ↔ i < c.ibufCap ∧ a.toNat = ibufBase + i := by
  unfold region ibufBase obufBase
  split
  · simp only [reduceCtorEq, false_iff]
    omega
  · split
    · simp only [Region.ibuf.injEq]
      omega
    · split <;> simp only [reduceCtorEq, false_iff] <;> omega

/-- The IBUF window ends below the OBUF window, since IBUF_CAP <= 2^32 (R8, R61). -/
theorem region_eq_obuf {c : Config} (hc : c.wf) {a : Addr} {i : Nat} :
    region c a = .obuf i ↔ i < c.obufCap ∧ a.toNat = obufBase + i := by
  obtain ⟨⟨-, hcap⟩, -⟩ := hc
  unfold region ibufBase obufBase
  split
  · simp only [reduceCtorEq, false_iff]
    omega
  · split
    · simp only [reduceCtorEq, false_iff]
      omega
    · split
      · simp only [Region.obuf.injEq]
        omega
      · simp only [reduceCtorEq, false_iff]
        omega

/-! ### Reads and writes by region -/

theorem busRead_register {a : Addr} (ha : a.toNat < 0x1000) (s : State) :
    busRead a 64 s = registerRead a.toNat s := by
  simp [busRead, region_eq_register.2 ⟨ha, rfl⟩]

/-- Only the 16 offsets of the map, 8 bytes apart, name a register (R61-R63). -/
theorem registerRead_eq_zero {o : Nat} (h : o % 8 ≠ 0 ∨ 0x080 ≤ o) (s : State) : registerRead o s = 0 := by
  unfold registerRead
  split
  case h_16 => rfl
  all_goals omega

theorem isCommand_iff {a : Addr} {width : Nat} : isCommand a width = true ↔ a.toNat = 0x000 ∧ width = 64 := by
  simp [isCommand, cmdAddr, BitVec.toNat_eq]

/-- A write that is a command issues its word (R70). -/
theorem serve_write_command {a : Addr} {width : Nat} (h : a.toNat = 0x000 ∧ width = 64) (w : Word) (s : State) :
    serve (.write a width w) s = issueWord w s := by
  simp [serve, isCommand_iff.2 h]

/-- A write that is no command is a write of the bus (R70). -/
theorem serve_write {a : Addr} {width : Nat} (h : ¬ (a.toNat = 0x000 ∧ width = 64)) (data : Word) (s : State) :
    serve (.write a width data) s = .next (busWrite a width data s) := by
  simp [serve, mt isCommand_iff.1 h]

/-- Writes of the bus to neither IBUF_LEN nor a byte of IBUF are ignored (R64, R68). -/
theorem busWrite_ignored {s : State} {a : Addr} {width : Nat} (hl : ¬ (a.toNat = 0x070 ∧ width = 64))
    (hb : ¬ (0x100000000 ≤ a.toNat ∧ a.toNat < 0x100000000 + s.cfg.ibufCap ∧ width = 8)) (data : Word) :
    busWrite a width data s = s := by
  cases hr : region s.cfg a with
  | register o =>
    obtain ⟨-, rfl⟩ := region_eq_register.1 hr
    simp [busWrite, hr, hl]
  | ibuf i =>
    obtain ⟨hi, ha⟩ := region_eq_ibuf.1 hr
    have hw : width ≠ 8 := by
      unfold ibufBase at ha
      omega
    simp [busWrite, hr, hw]
  | obuf i => simp [busWrite, hr]
  | nothing => simp [busWrite, hr]

theorem serve_write_ibufLen {a : Addr} (ha : a.toNat = 0x070) (v : Word) (s : State) :
    serve (.write a 64 v) s = .next (writeIbufLen v s) := by
  have hr : region s.cfg a = .register 0x070 := region_eq_register.2 ⟨by omega, ha⟩
  rw [serve_write (by omega)]
  simp [busWrite, hr]

theorem serve_write_ibuf {s : State} {a : Addr} {i : Nat} (hr : region s.cfg a = .ibuf i) (data : Word) :
    serve (.write a 8 data) s = .next (writeIbuf i (data.setWidth 8) s) := by
  rw [serve_write (by simp)]
  simp [busWrite, hr]

/-! ### The host's accesses -/

/-- Settles O6: a step is the service of the queue's head, and CMD's offset makes a write a command. -/
theorem accessesServedInOrder : Obligations.AccessesServedInOrder := by
  unfold Obligations.AccessesServedInOrder
  refine ⟨fun s hp => ?_, fun s a rest hp => step_pending hp, fun s w => serve_write_command (by decide) w s⟩
  simp [step, serveNext, hp]

/-- Settles O49: every offset of the map lies in register space, where a 64-bit read is `registerRead`. -/
theorem registerMapReads : Obligations.RegisterMapReads := by
  unfold Obligations.RegisterMapReads
  intro s
  and_intros <;> exact busRead_register (by decide) s

/-- Settles O52: serving a read only records its answer. -/
theorem readsHaveNoSideEffect : Obligations.ReadsHaveNoSideEffect := by
  unfold Obligations.ReadsHaveNoSideEffect
  exact fun s a width => rfl

/-- Settles O51: a write that is no command goes to the bus, which ignores it. -/
theorem onlyThreeWritesHaveEffects : Obligations.OnlyThreeWritesHaveEffects := by
  unfold Obligations.OnlyThreeWritesHaveEffects
  intro s a width data hc hl hb
  rw [serve_write hc, busWrite_ignored hl hb]

/-- Settles O50: the read by the region the address lies in; the write is none of the three that have an effect. -/
theorem badAccessesDoNothing : Obligations.BadAccessesDoNothing := by
  unfold Obligations.BadAccessesDoNothing
  intro s a width data hwf hbad
  constructor
  · cases hr : region s.cfg a with
    | register o =>
      obtain ⟨ha, rfl⟩ := region_eq_register.1 hr
      by_cases hw : width = 64
      · simp [busRead, hr, hw, registerRead_eq_zero (o := a.toNat) (by omega)]
      · simp [busRead, hr, hw]
    | ibuf i =>
      obtain ⟨hi, ha⟩ := region_eq_ibuf.1 hr
      have hw : width ≠ 8 := by
        unfold ibufBase at ha
        omega
      simp [busRead, hr, hw]
    | obuf i =>
      obtain ⟨hi, ha⟩ := (region_eq_obuf hwf).1 hr
      have hw : width ≠ 8 := by
        unfold obufBase at ha
        omega
      simp [busRead, hr, hw]
    | nothing => simp [busRead, hr]
  · exact onlyThreeWritesHaveEffects s a width data (by omega) (by omega) (by omega)

/-- Settles O53: the byte written is looked up again, every other one as before. -/
theorem inputWindow : Obligations.InputWindow := by
  unfold Obligations.InputWindow
  intro s i a data hi ha
  have hr : region s.cfg a = .ibuf i := region_eq_ibuf.2 ⟨hi, ha⟩
  rw [serve_write_ibuf hr]
  refine ⟨by simp [busRead, hr], fun hs => by simp [writeIbuf, hs], fun hs => ?_⟩
  refine ⟨_, rfl, ?_, fun k hk => ?_, by simp [writeIbuf, hs]⟩
  · simp [writeIbuf, hs, ibufByte, Memory.lookup_write_self]
  · simp [writeIbuf, hs, ibufByte, Memory.lookup_write_of_ne _ _ hk]

/-- Settles O54: the write is `writeIbufLen`, whose condition is the claim's. -/
theorem inputLengthWrite : Obligations.InputLengthWrite := by
  unfold Obligations.InputLengthWrite
  intro s v
  rw [serve_write_ibufLen (by decide)]
  constructor
  · intro hs hv
    rw [writeIbufLen, if_pos ⟨hs, hv⟩]
  · intro h
    rw [writeIbufLen, if_neg]
    rintro ⟨hs, hv⟩
    rcases h with h | h
    · exact h hs
    · exact Nat.not_lt.2 hv h

/-- Settles O55: the window's reads compare with OBUF_LEN, and the bus ignores its writes. -/
theorem outputWindow : Obligations.OutputWindow := by
  unfold Obligations.OutputWindow
  intro s i a data hi ha hwf
  have hr : region s.cfg a = .obuf i := (region_eq_obuf hwf).2 ⟨hi, ha⟩
  refine ⟨fun hl => by simp [busRead, hr, hl], fun hl => by simp [busRead, hr, Nat.not_lt.2 hl], ?_⟩
  rw [serve_write (by simp)]
  simp [busWrite, hr]

/-! ### What commands leave of the buffers -/

/-- A command's body keeps IBUF, the configuration, the host's side and the buffers' draw (R43, R66). -/
theorem bodyOf_hostFrame {i : Instr} {s t : State} (hi : i ≠ .reset) (h : bodyOf i s = .ok t) :
    t.ibuf = s.ibuf ∧ t.cfg = s.cfg ∧ t.pending = s.pending ∧ t.readData = s.readData ∧ t.draw = s.draw := by
  rw [bodyOf_withWritten h]
  cases i with
  | reset => exact absurd rfl hi
  | _ => exact ⟨rfl, rfl, rfl, rfl, rfl⟩

/-- A command but RESET keeps IBUF, the configuration, the host's side and the buffers' draw (R43, R66). -/
theorem exec_hostFrame {i : Instr} {s t : State} (hi : i ≠ .reset) (h : exec i s = .next t) :
    t.ibuf = s.ibuf ∧ t.cfg = s.cfg ∧ t.pending = s.pending ∧ t.readData = s.readData ∧ t.draw = s.draw := by
  rcases exec_outcome h with ⟨hr, -⟩ | ⟨-, rfl⟩ | ⟨-, c, -, rfl⟩ | ⟨-, -, -, hb⟩
  · exact absurd hr hi
  · exact ⟨rfl, rfl, rfl, rfl, rfl⟩
  · exact ⟨rfl, rfl, rfl, rfl, rfl⟩
  · exact bodyOf_hostFrame hi hb

/-- A body but RESET's leaves OBUF as it is or appends to it (R67, R151). -/
theorem bodyOf_obuf {i : Instr} {s t : State} (hi : i ≠ .reset) (h : bodyOf i s = .ok t) :
    t.obuf = s.obuf ∨ Appended s t := by
  cases i with
  | reset => exact absurd rfl hi
  | bitPut b =>
    obtain ⟨bit, -, h⟩ := Eff.bind_ok.1 h
    exact .inr (putBit_appended h)
  | bitPutn b n =>
    obtain ⟨bit, -, h⟩ := Eff.bind_ok.1 h
    exact .inr (putFollowed_appended h)
  | bitFlush => exact .inr (flush_appended h)
  | encSymbol sym => exact .inr (encSymbolBody_appended h)
  | encFinish => exact .inr (encFinishBody_appended h)
  | decSymbol => exact .inr (decSymbolBody_appended h)
  | _ => exact .inl (by rw [bodyOf_withWritten h]; rfl)

/-- A command but RESET leaves OBUF as it is or appends to it (R67, R151). -/
theorem exec_obuf {i : Instr} {s t : State} (hi : i ≠ .reset) (h : exec i s = .next t) :
    t.obuf = s.obuf ∨ Appended s t := by
  rcases exec_outcome h with ⟨hr, -⟩ | ⟨-, rfl⟩ | ⟨-, c, -, rfl⟩ | ⟨-, -, -, hb⟩
  · exact absurd hr hi
  · exact .inl rfl
  · exact .inl rfl
  · exact bodyOf_obuf hi hb

/-- Settles O14: IBUF's list and the draw stay, and OBUF's list stays or is appended to. -/
theorem buffersWrittenOnlyByAppend : Obligations.BuffersWrittenOnlyByAppend := by
  unfold Obligations.BuffersWrittenOnlyByAppend
  intro i s t hi h
  obtain ⟨hib, hcfg, hpend, hread, hdraw⟩ := exec_hostFrame hi h
  refine ⟨fun k => by rw [ibufByte, ibufByte, hib, hdraw], fun k hk => ?_, hcfg, hpend, hread, hdraw⟩
  rcases exec_obuf hi h with hob | ⟨-, hbytes⟩
  · rw [obufByte, obufByte, hob, hdraw]
  · exact hbytes k hk

/-! ### The canonical form of OBUF's list -/

/-- Where the first state's OBUF list is canonical, the second's is. -/
def KeepsObufForm (s t : State) : Prop := Memory.wf s.obuf → Memory.wf t.obuf

theorem KeepsObufForm.of_eq {s t : State} (h : t.obuf = s.obuf) : KeepsObufForm s t := by
  unfold KeepsObufForm
  rw [h]
  exact id

theorem KeepsObufForm.of_write {s t : State} {a : Nat} {b : Byte} (h : t.obuf = Memory.write s.obuf a b) :
    KeepsObufForm s t := by
  unfold KeepsObufForm
  rw [h]
  exact Memory.wf_write a b

theorem KeepsObufForm.trans {s t u : State} (h : KeepsObufForm s t) (k : KeepsObufForm t u) : KeepsObufForm s u :=
  fun hs => k (h hs)

theorem putBit_keepsObufForm {b : Bool} {s t : State} (h : putBit b s = .ok t) : KeepsObufForm s t := by
  obtain ⟨-, ⟨-, -, -, rfl⟩ | ⟨-, rfl⟩⟩ := putBit_ok.1 h
  · exact .of_write rfl
  · exact .of_eq rfl

theorem putFollowed_keepsObufForm {b : Bool} {n : Nat} {s t : State} (h : putFollowed b n s = .ok t) :
    KeepsObufForm s t := by
  induction n generalizing s with
  | zero => cases h; exact .of_eq rfl
  | succ n ih =>
    obtain ⟨u, hu, h⟩ := Eff.bind_ok.1 h
    exact (putBit_keepsObufForm hu).trans (ih h)

theorem flush_keepsObufForm {s t : State} (h : flush s = .ok t) : KeepsObufForm s t := by
  obtain ⟨-, rfl⟩ | ⟨-, -, -, -, rfl⟩ := flush_ok.1 h
  · exact .of_eq rfl
  · exact .of_write rfl

theorem bitPlusFollow_keepsObufForm {b : Bool} {s t : State} (h : bitPlusFollow b s = .ok t) :
    KeepsObufForm s t := by
  obtain ⟨u, hu, v, hv, rfl⟩ := bitPlusFollow_ok h
  exact (putBit_keepsObufForm hu).trans ((putFollowed_keepsObufForm hv).trans (.of_eq rfl))

theorem encRenorm_keepsObufForm {n : Nat} {s t : State} (h : encRenorm n s = .ok t) : KeepsObufForm s t := by
  induction n generalizing s with
  | zero => cases h
  | succ n ih =>
    unfold encRenorm at h
    split at h
    · obtain ⟨u, hu, h⟩ := Eff.bind_ok.1 h
      exact (bitPlusFollow_keepsObufForm hu).trans (ih (s := shift u) h)
    · obtain ⟨u, hu, h⟩ := Eff.bind_ok.1 h
      exact (bitPlusFollow_keepsObufForm hu).trans (ih (s := shift (moveInterval half u)) h)
    · obtain ⟨v, -, h⟩ := Eff.bind_ok.1 h
      exact ih (s := shift (moveInterval quarter { s with follow := v })) h
    · cases h
      exact .of_eq rfl

theorem encSymbolBody_keepsObufForm {sym : Byte} {s t : State} (h : encSymbolBody sym s = .ok t) :
    KeepsObufForm s t := by
  obtain ⟨-, u, hu, v, hv, n, -, rfl⟩ := encSymbolBody_ok h
  obtain ⟨-, -, -, -, hf⟩ := narrow_ok hu
  exact (KeepsObufForm.of_eq (s := s) (t := u) (by rw [hf])).trans
    ((encRenorm_keepsObufForm hv).trans (.of_eq rfl))

theorem encFinishBody_keepsObufForm {s t : State} (h : encFinishBody s = .ok t) : KeepsObufForm s t := by
  obtain ⟨-, ⟨-, rfl⟩ | ⟨-, u, hu, rfl⟩⟩ := encFinishBody_ok h
  · exact .of_eq rfl
  · obtain ⟨n, -, v, hv, hu⟩ := finishBits_ok hu
    exact (bitPlusFollow_keepsObufForm hv).trans ((flush_keepsObufForm hu).trans (.of_eq rfl))

theorem decSymbolBody_keepsObufForm {s t : State} (h : decSymbolBody s = .ok t) : KeepsObufForm s t := by
  obtain ⟨sym, hf⟩ := decSymbolBody_frame h
  exact .of_write (a := s.obufLen.toNat) (b := sym) (by rw [hf])

/-- Every body but RESET's keeps OBUF's list canonical. -/
theorem bodyOf_keepsObufForm {i : Instr} {s t : State} (hi : i ≠ .reset) (h : bodyOf i s = .ok t) :
    KeepsObufForm s t := by
  cases i with
  | reset => exact absurd rfl hi
  | bitPut b =>
    obtain ⟨bit, -, h⟩ := Eff.bind_ok.1 h
    exact putBit_keepsObufForm h
  | bitPutn b n =>
    obtain ⟨bit, -, h⟩ := Eff.bind_ok.1 h
    exact putFollowed_keepsObufForm h
  | bitFlush => exact flush_keepsObufForm h
  | encSymbol sym => exact encSymbolBody_keepsObufForm h
  | encFinish => exact encFinishBody_keepsObufForm h
  | decSymbol => exact decSymbolBody_keepsObufForm h
  | _ => exact .of_eq (by rw [bodyOf_withWritten h]; rfl)

/-- Every command keeps both lists canonical; a reset empties them. -/
theorem exec_keepsBuffersCanonical {i : Instr} {s t : State} (hin : Memory.wf s.ibuf) (hout : Memory.wf s.obuf)
    (h : exec i s = .next t) : Memory.wf t.ibuf ∧ Memory.wf t.obuf := by
  rcases exec_outcome h with ⟨-, rfl⟩ | ⟨-, rfl⟩ | ⟨-, c, -, rfl⟩ | ⟨hi, -, -, hb⟩
  · exact Memory.wf_reset
  · exact ⟨hin, hout⟩
  · exact ⟨hin, hout⟩
  · exact ⟨(bodyOf_hostFrame hi hb).1 ▸ hin, bodyOf_keepsObufForm hi hb hout⟩

/-- A write of the host that is no command keeps both lists canonical. -/
theorem busWrite_keepsBuffersCanonical {s : State} (hin : Memory.wf s.ibuf) (hout : Memory.wf s.obuf)
    (a : Addr) (width : Nat) (data : Word) :
    Memory.wf (busWrite a width data s).ibuf ∧ Memory.wf (busWrite a width data s).obuf := by
  rcases busWrite_cases a width data s with hw | ⟨-, -, hw⟩ | ⟨-, i, -, hw⟩ <;> rw [hw]
  · exact ⟨hin, hout⟩
  · exact ⟨hin, hout⟩
  · exact ⟨Memory.wf_write i _ hin, hout⟩

/-- Settles O59, by the access the step serves. -/
theorem stepKeepsBuffersCanonical : Obligations.StepKeepsBuffersCanonical := by
  unfold Obligations.StepKeepsBuffersCanonical
  intro s t hin hout hstep
  obtain ⟨-, rfl⟩ | ⟨a, rest, u, -, hu, hserve⟩ := step_next hstep
  · exact ⟨hin, hout⟩
  · replace hin : Memory.wf u.ibuf := by rw [hu]; exact hin
    replace hout : Memory.wf u.obuf := by rw [hu]; exact hout
    rcases hserve with ⟨-, rfl⟩ | ⟨addr, width, -, rfl⟩ | ⟨addr, width, data, -, -, rfl⟩ |
      ⟨addr, width, w, i, -, -, -, hexec⟩ | ⟨addr, width, w, e, -, -, -, ⟨-, rfl⟩ | ⟨-, rfl⟩⟩
    · exact Memory.wf_reset
    · exact ⟨hin, hout⟩
    · exact busWrite_keepsBuffersCanonical hin hout addr width data
    · exact exec_keepsBuffersCanonical hin hout hexec
    · exact ⟨hin, hout⟩
    · exact ⟨hin, hout⟩

end Sys2Proof.Machine

/-! SUPPORT. The statements about the encoding, the checks of a CMD write and the legality table (30_encoding). -/

namespace Sys2Proof

/-! ### Words and their fields -/

/-- A word is its three fields, one above the other (R91). -/
theorem wordOf_fields (w : Word) : wordOf (opcField w) (bField w) (immField w) = w := by
  have hlow : bField w ++ immField w = w.extractLsb' 0 56 :=
    BitVec.extractLsb'_append_extractLsb'_eq_extractLsb' rfl
  have hall : opcField w ++ w.extractLsb' 0 56 = w.extractLsb' 0 64 :=
    BitVec.extractLsb'_append_extractLsb'_eq_extractLsb' rfl
  rw [wordOf, hlow, hall, BitVec.extractLsb'_eq_self]

/-- The encoder undoes a row's constructor where every field the row does not use is 0 (R93, R95). -/
theorem encode_make {r : OpRow} {b : Byte} {imm : Imm} (hr : r ∈ opTable)
    (hb : r.usesB = false → b = 0) (himm : r.usesImm = false → imm = 0) :
    encode (r.make b imm) = wordOf r.opc b imm := by
  fin_cases hr <;> simp_all [encode]

/-- The encoder's word of a decoded command is the word it was decoded from (R90, R91, R99). -/
theorem encode_of_decode {w : Word} {i : Instr} (h : decode w = .ok i) : encode i = w := by
  obtain ⟨r, hr, hopc, hb, himm, rfl⟩ := decode_ok h
  rw [encode_make hr hb himm, hopc, wordOf_fields]

/-! ### Words that are rejected -/

/-- An opcode is found in the table exactly when a row has it (R95). -/
theorem opRow?_eq_none {opc : Byte} : opRow? opc = none ↔ opc ∉ opTable.map OpRow.opc := by
  simp [opRow?]

/-- No two rows have one opcode (R95). -/
theorem opTable_opcodes_nodup : (opTable.map OpRow.opc).Nodup := by decide

/-- The row found for an opcode is the table's one row with that opcode (R95). -/
theorem opRow?_eq_some {opc : Byte} {r : OpRow} : opRow? opc = some r ↔ r ∈ opTable ∧ r.opc = opc := by
  have hfound {r' : OpRow} (h : opRow? opc = some r') : r' ∈ opTable ∧ r'.opc = opc :=
    ⟨List.mem_of_find?_eq_some h, by simpa using List.find?_some h⟩
  refine ⟨hfound, fun ⟨hr, hopc⟩ => ?_⟩
  have hsome : opRow? opc ≠ none := fun h => opRow?_eq_none.1 h (hopc ▸ List.mem_map_of_mem hr)
  obtain ⟨r', h⟩ := Option.ne_none_iff_exists'.1 hsome
  obtain ⟨hr', hopc'⟩ := hfound h
  rw [h, List.inj_on_of_nodup_map opTable_opcodes_nodup hr' hr (hopc'.trans hopc.symm)]

/-- A word is illegal exactly when its opcode has no row (R96). -/
theorem decode_illegalCommand {w : Word} :
    decode w = .error .illegalCommand ↔ opcField w ∉ opTable.map OpRow.opc := by
  rw [← opRow?_eq_none, decode, decodeFields]
  split
  case h_1 hr => simp [hr]
  case h_2 r hr => split <;> simp [hr]

/-- A word is rejected for a reserved field exactly when its opcode's row leaves a nonzero field unused (R96). -/
theorem decode_reservedField {w : Word} :
    decode w = .error .reservedField ↔
      ∃ r, opRow? (opcField w) = some r ∧
        ((r.usesB = false ∧ bField w ≠ 0) ∨ (r.usesImm = false ∧ immField w ≠ 0)) := by
  rw [decode, decodeFields]
  split
  case h_1 hr => simp [hr]
  case h_2 r hr =>
    split
    case isTrue h => simpa [hr] using h
    case isFalse h => simpa [hr, imp_iff_not_or] using h

/-- The opcodes of the commands that use B and IMM as given (R93, R95). -/
def opcodesWith (usesB usesImm : Bool) : List Byte :=
  (opTable.filter fun r => r.usesB == usesB && r.usesImm == usesImm).map OpRow.opc

theorem mem_opcodesWith {opc : Byte} {usesB usesImm : Bool} :
    opc ∈ opcodesWith usesB usesImm ↔
      ∃ r, opRow? opc = some r ∧ r.usesB = usesB ∧ r.usesImm = usesImm := by
  simp only [opcodesWith, List.mem_map, List.mem_filter, Bool.and_eq_true, beq_iff_eq, opRow?_eq_some]
  exact exists_congr fun r => by tauto

/-- The rejected words by the fields their command uses: neither, B only, or IMM only (R93, R96). -/
theorem decode_reservedField_iff_byClass {w : Word} :
    decode w = .error .reservedField ↔
      (opcField w ∈ opcodesWith false false ∧ (bField w ≠ 0 ∨ immField w ≠ 0)) ∨
      (opcField w ∈ opcodesWith true false ∧ immField w ≠ 0) ∨
      (opcField w ∈ opcodesWith false true ∧ bField w ≠ 0) := by
  simp only [decode_reservedField, mem_opcodesWith]
  cases opRow? (opcField w) with
  | none => simp
  | some r =>
    simp only [Option.some.injEq, exists_eq_left']
    cases r.usesB <;> cases r.usesImm <;> simp

end Sys2Proof

namespace Sys2Proof.Machine

/-- Settles O1: each opcode has one row, and the fields of a word built from its fields are those. -/
theorem decodeEncodeAgree : Obligations.DecodeEncodeAgree := by
  unfold Obligations.DecodeEncodeAgree
  exact decode_encode

/-- Settles O2: the row the word decodes by gives its opcode, and the word's fields give the word back. -/
theorem encodeDecodeAgree : Obligations.EncodeDecodeAgree := by
  unfold Obligations.EncodeDecodeAgree
  exact fun w i => encode_of_decode

/-- Settles O3: the lists of opcodes are the table's own, whole and by the fields their rows use. -/
theorem wordClasses : Obligations.WordClasses := by
  unfold Obligations.WordClasses
  exact fun w => ⟨decode_illegalCommand, decode_reservedField_iff_byClass⟩

/-! ### The legality table -/

/-- R98's columns: the opcodes that are legal in a session, by BUILT. No command is legal in FAULTED. -/
def legalOpcodes : Session → Bool → List Byte
  | .idle, false => [0x00, 0x01, 0x10, 0x11, 0x12, 0x13, 0x14, 0x20, 0x21, 0x22, 0x23, 0x24]
  | .idle, true => [0x00, 0x01, 0x10, 0x14, 0x15, 0x16, 0x20, 0x21, 0x22, 0x23, 0x24, 0x30, 0x40]
  | .enc, _ => [0x00, 0x01, 0x14, 0x15, 0x16, 0x31, 0x32]
  | .dec, _ => [0x00, 0x01, 0x14, 0x15, 0x16, 0x41]
  | .faulted, _ => []

/-- A command is legal exactly where its opcode stands in the column (R98). -/
theorem legal_iff_mem_legalOpcodes (i : Instr) (ses : Session) (built : Bool) :
    legal i ses built = true ↔ opcField (encode i) ∈ legalOpcodes ses built := by
  cases ses with
  | idle =>
    cases built
    · cases i <;> simp [legal, legalOpcodes, encode]
    · cases i <;> simp [legal, legalOpcodes, encode]
  | _ => cases i <;> simp [legal, legalOpcodes, encode]

/-- NOP, RESET and MODEL_READ_COUNT stand in every column but FAULTED's (R98). -/
theorem legal_of_inEveryColumn {i : Instr} {ses : Session} {built : Bool} (hs : ses ≠ .faulted)
    (hi : opcField (encode i) ∈ ([0x00, 0x01, 0x14] : List Byte)) : legal i ses built = true := by
  have hsub : ([0x00, 0x01, 0x14] : List Byte) ⊆ legalOpcodes ses built := by
    cases ses with
    | faulted => exact absurd rfl hs
    | _ => cases built <;> decide
  exact (legal_iff_mem_legalOpcodes i ses built).2 (hsub hi)

/-- A command that is not legal raises BAD_STATE (R97); RESET, which does not run in that shape, is always legal. -/
theorem exec_badState {i : Instr} {s : State} (hs : s.session ≠ .faulted)
    (hl : legal i s.session s.built = false) : exec i s = .next (faultEntry .badState (encode i) s) := by
  have hi : i ≠ .reset := by
    rintro rfl
    rw [legal_of_inEveryColumn hs (by decide)] at hl
    cases hl
  exact exec_illegal hi hs hl

/-- Settles O8: four columns of the table, and `exec` in the cells outside them. -/
theorem legalityTable : Obligations.LegalityTable := by
  unfold Obligations.LegalityTable
  intro i
  have hcol := legal_iff_mem_legalOpcodes i
  exact ⟨hcol .idle false, hcol .idle true, hcol .enc, hcol .dec, fun s => exec_badState⟩

/-- BAD_STATE is no body's fault (R97). -/
theorem badState_notMem_bodyFaults (i : Instr) : FaultCode.badState ∉ bodyFaults i := by
  cases i <;> simp [bodyFaults]

/-- A command that ends in FAULTED was not legal and has BAD_STATE, or was legal and has a fault of its body (R97). -/
theorem exec_faults {i : Instr} {s t : State} (hs : s.session ≠ .faulted) (h : exec i s = .next t)
    (ht : t.session = .faulted) :
    (legal i s.session s.built = false ∧ t.faultCode = .badState) ∨
    (legal i s.session s.built = true ∧ t.faultCode ∈ bodyFaults i) := by
  rcases exec_next h with
    ⟨-, rfl⟩ | ⟨-, hf, -⟩ | ⟨-, -, hl, rfl⟩ | ⟨hi, -, hl, hb⟩ | ⟨hi, -, hl, c, hb, rfl⟩
  · cases ht
  · exact absurd hf hs
  · exact .inl ⟨hl, rfl⟩
  · exact absurd ht (bodyOf_session_ne_faulted hi hs hl hb)
  · exact .inr ⟨hl, bodyOf_raise hi hb⟩

/-- Settles O9, by whether the command was legal: BAD_STATE is no body's fault, and the three commands are legal. -/
theorem badStateOnlyWhereIllegal : Obligations.BadStateOnlyWhereIllegal := by
  unfold Obligations.BadStateOnlyWhereIllegal
  intro i s t hs h ht
  have hiff : t.faultCode = .badState ↔ legal i s.session s.built = false := by
    rcases exec_faults hs h ht with ⟨hl, hc⟩ | ⟨hl, hc⟩
    · simp [hl, hc]
    · have hne : t.faultCode ≠ .badState := fun hb => badState_notMem_bodyFaults i (hb ▸ hc)
      simp [hl, hne]
  refine ⟨hiff, fun hc hi => ?_⟩
  have hl := legal_of_inEveryColumn (built := s.built) hs hi
  rw [hiff.1 hc] at hl
  cases hl

/-! ### The checks of a CMD write -/

theorem issueWord_ok {w : Word} {i : Instr} (hw : decode w = .ok i) (s : State) : issueWord w s = exec i s := by
  simp [issueWord, hw]

theorem issueWord_error {w : Word} {e : DecodeError} (hw : decode w = .error e) (s : State) :
    issueWord w s = if s.session = .faulted then .next s else .next (faultEntry (rejection e) w s) := by
  simp [issueWord, hw]

/-- The RESET word is the one word that decodes to RESET (R95). -/
theorem decode_eq_reset {w : Word} : decode w = .ok .reset ↔ w = 0x0100000000000000 := by
  constructor
  · intro hw
    rw [← encode_of_decode hw]
    rfl
  · rintro rfl
    exact decode_encode .reset

/-- In FAULTED only the RESET word acts (R97, R265). -/
theorem issueWord_faulted {s : State} (hs : s.session = .faulted) (w : Word) :
    issueWord w s = if w = 0x0100000000000000 then .next (performReset s) else .next s := by
  split
  case isTrue hreset => rw [issueWord_ok (decode_eq_reset.2 hreset), exec_reset]
  case isFalse hreset =>
    cases hw : decode w with
    | error e => rw [issueWord_error hw, if_pos hs]
    | ok i =>
      have hi : i ≠ .reset := by
        rintro rfl
        exact hreset (decode_eq_reset.1 hw)
      rw [issueWord_ok hw, exec_ignored hi hs]

/-- Settles O7: FAULTED first, then the word's rejection, then the decoded command's legality. -/
theorem decodeChecksInOrder : Obligations.DecodeChecksInOrder := by
  unfold Obligations.DecodeChecksInOrder
  intro s w
  split
  case isTrue hs => exact issueWord_faulted hs w
  case isFalse hs =>
    split
    case h_1 hw => rw [issueWord_error hw, if_neg hs, rejection]
    case h_2 hw => rw [issueWord_error hw, if_neg hs, rejection]
    case h_3 i hw =>
      rw [issueWord_ok hw]
      split
      case isTrue => rfl
      case isFalse hl => rw [exec_badState hs (by simpa using hl), encode_of_decode hw]

/-! ### The worked encodings -/

/-- A bit operand above 1 is BIT_PUT's BAD_OPERAND (R156). -/
theorem bitPutBody_badOperand {b : Byte} (hb : 1 < b.toNat) (s : State) :
    bitPutBody b s = raiseFault .badOperand := by
  rw [bitPutBody, bitOperand, if_pos hb]
  rfl

/-- Settles O4: the words are fixed, and BIT_PUT's body rejects B = 2 where the command is legal. -/
theorem workedEncodings : Obligations.WorkedEncodings := by
  unfold Obligations.WorkedEncodings
  refine ⟨by decide, by decide, by decide, by decide, by decide, by decide, by decide, by decide, ?_⟩
  have hw : decode 0x2102000000000000 = .ok (.bitPut 2) := by decide
  have hbody : bodyOf (.bitPut 2) State.reset = raiseFault .badOperand := bitPutBody_badOperand (by decide) _
  rw [issueWord_ok hw, exec_legal (by decide) (by decide) (by decide), hbody, commit_raise, encode_of_decode hw]

end Sys2Proof.Machine

/-! SUPPORT. The statements about the frequency model (40_frequency_model). -/

namespace Sys2Proof.Machine

/-! ### Commands where they are legal -/

/-- No command is legal in FAULTED (R98). -/
theorem session_ne_faulted_of_legal {i : Instr} {ses : Session} {built : Bool} (hl : legal i ses built = true) :
    ses ≠ .faulted := by
  rintro rfl
  simpa [legalOpcodes] using (legal_iff_mem_legalOpcodes i .faulted built).1 hl

/-- A legal command whose body completes answers what the body answers (R97). -/
theorem exec_completes {i : Instr} {s t : State} (hl : legal i s.session s.built = true)
    (hb : bodyOf i s = .ok t) : exec i s = .next t := by
  by_cases hi : i = .reset
  · subst hi
    cases hb
    exact exec_reset s
  · rw [exec_legal hi (session_ne_faulted_of_legal hl) hl, hb, commit_ok]

/-- A legal command whose body raises a fault enters it (R97, R264). -/
theorem exec_raises {i : Instr} {s : State} {c : FaultCode} (hl : legal i s.session s.built = true)
    (hb : bodyOf i s = raiseFault c) : exec i s = .next (faultEntry c (encode i) s) := by
  have hi : i ≠ .reset := by
    rintro rfl
    cases hb
  rw [exec_legal hi (session_ne_faulted_of_legal hl) hl, hb, commit_raise]

/-- MODEL_READ_CUM and MODEL_FIND stand in every column of a built model but FAULTED's (R98). -/
theorem legal_of_builtQuery {i : Instr} {s : State} (hs : s.session ≠ .faulted) (hb : s.built = true)
    (hi : opcField (encode i) ∈ ([0x15, 0x16] : List Byte)) : legal i s.session s.built = true := by
  have hsub : ∀ ses, ses ≠ Session.faulted → ([0x15, 0x16] : List Byte) ⊆ legalOpcodes ses true := by
    intro ses hses
    cases ses with
    | faulted => exact absurd rfl hses
    | _ => decide
  rw [hb]
  exact (legal_iff_mem_legalOpcodes i s.session true).2 (hsub s.session hs hi)

/-- MODEL_COUNT, MODEL_SET_COUNT and MODEL_BUILD stand in no column of a built model (R98). -/
theorem not_legal_of_built {i : Instr} {s : State} (hb : s.built = true)
    (hi : opcField (encode i) ∈ ([0x11, 0x12, 0x13] : List Byte)) : legal i s.session s.built = false := by
  have hout : ∀ o ∈ ([0x11, 0x12, 0x13] : List Byte), o ∉ legalOpcodes s.session true := by
    cases s.session <;> decide
  rw [hb, Bool.eq_false_iff, ne_eq, legal_iff_mem_legalOpcodes]
  exact hout _ hi

/-! ### Building the counts -/

/-- Below its highest value COUNT[s] goes up by one (R122). -/
theorem modelCountBody_of_lt {sym : Byte} {s : State} (h : s.count[sym.toNat].toNat < 2 ^ 32 - 1) :
    modelCountBody sym s = .ok { s with count := s.count.set sym.toNat (s.count[sym.toNat] + 1) } := by
  refine if_neg fun hc => ?_
  rw [hc] at h
  exact absurd h (by decide)

/-- COUNT[s] at its highest value is MODEL_COUNT's fault (R122). -/
theorem modelCountBody_of_eq {sym : Byte} {s : State} (h : s.count[sym.toNat].toNat = 2 ^ 32 - 1) :
    modelCountBody sym s = raiseFault .countOverflow :=
  if_pos (BitVec.eq_of_toNat_eq h)

/-- A count of 32 bits is written to COUNT[s] (R123). -/
theorem modelSetCountBody_of_le {n : Imm} (h : n.toNat ≤ 2 ^ 32 - 1) (sym : Byte) (s : State) :
    modelSetCountBody sym n s = .ok { s with count := s.count.set sym.toNat (n.setWidth 32) } := by
  rw [modelSetCountBody, countOperand, if_neg (Nat.not_lt.2 h)]
  rfl

/-- A count past 32 bits is MODEL_SET_COUNT's BAD_OPERAND (R123). -/
theorem modelSetCountBody_of_lt {n : Imm} (h : 2 ^ 32 - 1 < n.toNat) (sym : Byte) (s : State) :
    modelSetCountBody sym n s = raiseFault .badOperand := by
  rw [modelSetCountBody, countOperand, if_pos h]
  rfl

/-- Settles O19: the body replicates 0 in both tables. -/
theorem modelClearResult : Obligations.ModelClearResult := by
  unfold Obligations.ModelClearResult
  intro s hs
  have hl : legal .modelClear s.session s.built = true := by simp [legal, hs]
  exact ⟨_, exec_completes hl rfl, fun k hk => Vector.getElem_replicate hk,
    fun k hk => Vector.getElem_replicate hk, rfl, rfl⟩

/-- Settles O20: below the highest value the increment does not wrap. -/
theorem modelCountResult : Obligations.ModelCountResult := by
  unfold Obligations.ModelCountResult
  intro s sym hs hb
  have hl : legal (.modelCount sym) s.session s.built = true := by simp [legal, hs, hb]
  refine ⟨fun h => ⟨_, exec_completes hl (modelCountBody_of_lt h), ?_, fun k hk hne => ?_, rfl⟩,
    fun h => exec_raises hl (modelCountBody_of_eq h)⟩
  · rw [Vector.getElem_set_self]
    have hlt : s.count[sym.toNat].toNat + (1 : BitVec 32).toNat < 2 ^ 32 := Nat.add_lt_of_lt_sub h
    exact BitVec.toNat_add_of_lt hlt
  · exact Vector.getElem_set_ne sym.isLt hk hne.symm

/-- Settles O21: an operand that passes the check fits the 32 bits of COUNT[s]. -/
theorem modelSetCountResult : Obligations.ModelSetCountResult := by
  unfold Obligations.ModelSetCountResult
  intro s sym n hs hb
  have hl : legal (.modelSetCount sym n) s.session s.built = true := by simp [legal, hs, hb]
  refine ⟨fun h => ⟨_, exec_completes hl (modelSetCountBody_of_le h sym s), ?_, fun k hk hne => ?_, rfl⟩,
    fun h => exec_raises hl (modelSetCountBody_of_lt h sym s)⟩
  · rw [Vector.getElem_set_self, BitVec.toNat_setWidth]
    exact Nat.mod_eq_of_lt (by omega)
  · exact Vector.getElem_set_ne sym.isLt hk hne.symm

/-- Settles O22: the table built is `cumTable`, whose entries are unwrapped sums of the counts. -/
theorem modelBuildResult : Obligations.ModelBuildResult := by
  unfold Obligations.ModelBuildResult
  intro s hs hb
  have hl : legal .modelBuild s.session s.built = true := by simp [legal, hs, hb]
  have htab := cumTable_ok s.count
  refine ⟨_, exec_completes hl rfl, BitVec.eq_of_toNat_eq htab.zero, htab.succ, ?_, rfl, rfl⟩
  calc (cumTable s.count)[256].toNat ≤ 256 * (2 ^ 32 - 1) := htab.bound
    _ < 2 ^ 40 := by norm_num

/-! ### The search of a built table -/

/-- One iteration halves an even stretch of the table at its middle entry (R126). -/
theorem searchStep_halves (cum : Vector Word 257) (v lo d : Nat) (hmid : lo + d < 257) :
    searchStep cum v lo (lo + 2 * d) =
      if cum[lo + d].toNat ≤ v then (lo + d, lo + 2 * d) else (lo, lo + d) := by
  have hm : (lo + (lo + 2 * d)) / 2 = lo + d := by omega
  simp [searchStep, hm, Vector.getD, hmid]

namespace TableOk

variable {cum : Vector Word 257} {count : Vector (BitVec 32) 256}

/-- An entry is at most the value exactly up to the symbol whose span holds it (R126, R130). -/
theorem le_iff (h : TableOk cum count) {j k v : Nat} (hj : j < 256) (hk : k < 257) (h1 : cum[j].toNat ≤ v)
    (h2 : v < cum[j + 1].toNat) : cum[k].toNat ≤ v ↔ k ≤ j := by
  constructor
  · intro hle
    by_contra hjk
    have := h.mono (show j + 1 ≤ k by omega) hk
    omega
  · intro hkj
    exact (h.mono hkj (by omega)).trans h1

/-- The binary search keeps the symbol's index in its stretch, so `n` iterations over 2^n entries end with it (R126). -/
theorem searchLoop_eq (h : TableOk cum count) {j v : Nat} (hj : j < 256) (h1 : cum[j].toNat ≤ v)
    (h2 : v < cum[j + 1].toNat) (n lo : Nat) (hlo : lo ≤ j) (hhi : j < lo + 2 ^ n) (hend : lo + 2 ^ n ≤ 256) :
    searchLoop cum v n lo (lo + 2 ^ n) = j := by
  induction n generalizing lo with
  | zero =>
    rw [searchLoop]
    omega
  | succ n ih =>
    rw [Nat.pow_succ'] at hhi hend ⊢
    have hmid : lo + 2 ^ n < 257 := by omega
    rw [searchLoop, searchStep_halves cum v lo (2 ^ n) hmid]
    by_cases hle : lo + 2 ^ n ≤ j
    · rw [if_pos ((h.le_iff hj hmid h1 h2).2 hle)]
      have := ih (lo + 2 ^ n) hle (by omega) (by omega)
      rwa [Nat.add_assoc, ← Nat.two_mul] at this
    · rw [if_neg (mt (h.le_iff hj hmid h1 h2).1 hle)]
      exact ih lo hlo (by omega) (by omega)

end TableOk

/-- A symbol's span is its count wide (R125). -/
theorem cumHigh_eq_add {s : State} (h : TableOk s.cum s.count) (sym : Byte) :
    cumHigh sym s = cumLow sym s + s.count[sym.toNat].toNat :=
  h.succ sym.toNat sym.isLt

/-- Two symbols whose spans hold the same value are the same symbol (R126). -/
theorem symbol_unique {s : State} (h : TableOk s.cum s.count) {x y : Byte} {v : Nat} (hx1 : cumLow x s ≤ v)
    (hx2 : v < cumHigh x s) (hy1 : cumLow y s ≤ v) (hy2 : v < cumHigh y s) : x = y :=
  BitVec.eq_of_toNat_eq (h.unique x.isLt y.isLt hx1 hx2 hy1 hy2)

/-- FindSymbol answers the symbol whose span holds the value (R130). -/
theorem findSymbol_of_mem {s : State} (h : TableOk s.cum s.count) {sym : Byte} {v : Nat} (h1 : cumLow sym s ≤ v)
    (h2 : v < cumHigh sym s) : findSymbol v s = .ok sym := by
  obtain ⟨x, hx⟩ := findSymbol_total h.zero (h2.trans_le (cumHigh_le_total h sym))
  obtain ⟨hx1, hx2⟩ := findSymbol_ok hx
  rw [hx, symbol_unique h hx1 hx2 h1 h2]

/-- Settles O26: the invariant makes CUM the table of COUNT. -/
theorem builtModelIsMonotoneAndSearchable : Obligations.BuiltModelIsMonotoneAndSearchable := by
  unfold Obligations.BuiltModelIsMonotoneAndSearchable
  intro s hinv hb
  have htab := hinv.tableOk hb
  refine ⟨fun k hk => htab.mono (Nat.le_succ k) (Nat.succ_lt_succ hk), rfl, fun sym v => findSymbol_of_mem htab,
    fun sym => ?_⟩
  rw [cumHigh_eq_add htab, Nat.add_sub_cancel_left]

/-- Settles O27: a span that holds a value is not empty, and the binary search closes in on its index. -/
theorem findSymbolFindsTheOneSymbol : Obligations.FindSymbolFindsTheOneSymbol := by
  unfold Obligations.FindSymbolFindsTheOneSymbol
  intro s v hinv hb hv
  have htab := hinv.tableOk hb
  obtain ⟨sym, hsym⟩ := findSymbol_total htab.zero hv
  obtain ⟨h1, h2⟩ := findSymbol_ok hsym
  have hcount : s.count[sym.toNat] ≠ 0 := by
    intro h0
    rw [cumHigh_eq_add htab, h0] at h2
    exact absurd h2 (Nat.not_lt.2 h1)
  exact ⟨sym, hsym, ⟨h1, h2⟩, fun x hx1 hx2 => symbol_unique htab hx1 hx2 h1 h2, hcount,
    htab.searchLoop_eq sym.isLt h1 h2 8 0 (Nat.zero_le _) (by simpa using sym.isLt) le_rfl⟩

/-! ### Querying the model -/

/-- An index up to 256 answers its entry (R128). -/
theorem modelReadCumBody_of_lt {i : Imm} (h : i.toNat < 257) (s : State) :
    modelReadCumBody i s = .ok { s with result := s.cum[i.toNat] } := by
  rw [modelReadCumBody, indexOperand, dif_pos h]
  rfl

/-- An index past 256 is MODEL_READ_CUM's BAD_OPERAND (R128). -/
theorem modelReadCumBody_of_ge {i : Imm} (h : 257 ≤ i.toNat) (s : State) :
    modelReadCumBody i s = raiseFault .badOperand := by
  rw [modelReadCumBody, indexOperand, dif_neg (Nat.not_lt.2 h)]
  rfl

/-- Below TOTAL the answer is FindSymbol's (R129). -/
theorem modelFindBody_of_lt {v : Imm} {s : State} {sym : Byte} (h : v.toNat < s.total.toNat)
    (hsym : findSymbol v.toNat s = .ok sym) : modelFindBody v s = .ok { s with result := sym.setWidth 64 } := by
  rw [modelFindBody, findOperand, if_neg (Nat.not_le.2 h), Eff.ok_bind, hsym]
  rfl

/-- A value at or above TOTAL is MODEL_FIND's BAD_OPERAND (R129). -/
theorem modelFindBody_of_ge {v : Imm} {s : State} (h : s.total.toNat ≤ v.toNat) :
    modelFindBody v s = raiseFault .badOperand := by
  rw [modelFindBody, findOperand, if_pos h]
  rfl

/-- Settles O23: the command is in every column of the legality table but FAULTED's, and 32 bits fit RESULT. -/
theorem modelReadCountResult : Obligations.ModelReadCountResult := by
  unfold Obligations.ModelReadCountResult
  intro s sym hs
  have hl : legal (.modelReadCount sym) s.session s.built = true := legal_of_inEveryColumn hs (by simp [encode])
  exact ⟨_, exec_completes hl rfl, BitVec.toNat_setWidth_of_le (by decide), rfl⟩

/-- Settles O24: the index operand passes its check up to 256. -/
theorem modelReadCumResult : Obligations.ModelReadCumResult := by
  unfold Obligations.ModelReadCumResult
  intro s i hs hb
  have hl : legal (.modelReadCum i) s.session s.built = true := legal_of_builtQuery hs hb (by simp [encode])
  exact ⟨fun h => exec_completes hl (modelReadCumBody_of_lt h s),
    fun h => exec_raises hl (modelReadCumBody_of_ge h s)⟩

/-- Settles O25: below TOTAL the search of the built table finds a symbol. -/
theorem modelFindResult : Obligations.ModelFindResult := by
  unfold Obligations.ModelFindResult
  intro s v hinv hs hb
  have hl : legal (.modelFind v) s.session s.built = true := legal_of_builtQuery hs hb (by simp [encode])
  refine ⟨fun h => ?_, fun h => exec_raises hl (modelFindBody_of_ge h)⟩
  obtain ⟨sym, hsym⟩ := findSymbol_total (hinv.tableOk hb).zero h
  exact ⟨sym, exec_completes hl (modelFindBody_of_lt h hsym), findSymbol_ok hsym⟩

/-! ### A built model -/

/-- A legal body other than MODEL_CLEAR's and RESET's keeps a built model: those that write a table are not legal, and no
other one writes it (R131). -/
theorem bodyOf_keepsBuiltModel {i : Instr} {s t : State} (hc : i ≠ .modelClear) (hr : i ≠ .reset)
    (hb : s.built = true) (hl : legal i s.session s.built = true) (h : bodyOf i s = .ok t) :
    t.count = s.count ∧ t.cum = s.cum ∧ t.built = s.built := by
  have hw := bodyOf_withWritten h
  cases i with
  | modelClear => exact absurd rfl hc
  | reset => exact absurd rfl hr
  | modelCount sym => simp [legal, hb] at hl
  | modelSetCount sym n => simp [legal, hb] at hl
  | modelBuild => simp [legal, hb] at hl
  | _ =>
    rw [hw]
    exact ⟨rfl, rfl, rfl⟩

/-- A command other than MODEL_CLEAR and RESET keeps a built model, whether it completes or not (R131). -/
theorem exec_keepsBuiltModel {i : Instr} {s t : State} (hc : i ≠ .modelClear) (hr : i ≠ .reset)
    (hb : s.built = true) (h : exec i s = .next t) : t.count = s.count ∧ t.cum = s.cum ∧ t.built = s.built := by
  rcases exec_outcome h with ⟨hi, -⟩ | ⟨-, rfl⟩ | ⟨-, c, -, rfl⟩ | ⟨-, -, hl, hbody⟩
  · exact absurd hi hr
  · exact ⟨rfl, rfl, rfl⟩
  · exact ⟨rfl, rfl, rfl⟩
  · exact bodyOf_keepsBuiltModel hc hr hb hl hbody

/-- Settles O28: the legality table keeps the commands that build a model from running on a built one. -/
theorem builtModelIsImmutable : Obligations.BuiltModelIsImmutable := by
  unfold Obligations.BuiltModelIsImmutable
  intro i s hb
  refine ⟨fun t hc hr h => ?_, fun hs hi => exec_badState hs (not_legal_of_built hb hi), fun t hs h => ?_,
    fun t h => ?_⟩
  · rw [← hb]
    exact exec_keepsBuiltModel hc hr hb h
  · have hl : legal .modelClear s.session s.built = true := by simp [legal, hs]
    rw [exec_completes hl rfl] at h
    cases h
    rfl
  · rw [exec_reset] at h
    cases h
    rfl

end Sys2Proof.Machine

/-! SUPPORT. The statements about the bit sink and the bit source (41_bit_sink_source). -/

namespace Sys2Proof.Machine

/-! ### The operand of a bit -/

/-- A bit operand of 0 or 1 is the bit itself (R156, R157). -/
theorem bitOperand_of_le {b : Byte} (hb : b.toNat ≤ 1) : bitOperand b = .ok (b.toNat == 1) :=
  if_neg (Nat.not_lt.2 hb)

/-- With a bit for its operand BIT_PUT is PutBit (R156). -/
theorem bitPutBody_of_le {b : Byte} (hb : b.toNat ≤ 1) (s : State) : bitPutBody b s = putBit (b.toNat == 1) s := by
  rw [bitPutBody, bitOperand_of_le hb, Eff.ok_bind]

/-- With a bit for its operand BIT_PUTN is PutFollowed (R157). -/
theorem bitPutnBody_of_le {b : Byte} (hb : b.toNat ≤ 1) (n : Imm) (s : State) :
    bitPutnBody b n s = putFollowed (b.toNat == 1) n.toNat s := by
  rw [bitPutnBody, bitOperand_of_le hb, Eff.ok_bind]

/-- A bit operand above 1 is BIT_PUTN's BAD_OPERAND (R157). -/
theorem bitPutnBody_badOperand {b : Byte} (hb : 1 < b.toNat) (n : Imm) (s : State) :
    bitPutnBody b n s = raiseFault .badOperand := by
  rw [bitPutnBody, bitOperand, if_pos hb]
  rfl

/-! ### The sink with and without room -/

/-- FILL has 3 bits, so the number of bits in the sink fixes OBUF_LEN and FILL (R32, R153). -/
theorem obufLen_fill_of_bits {s : State} {m : Nat} (h : 8 * s.obufLen.toNat + s.fill.toNat = m) :
    s.obufLen.toNat = m / 8 ∧ s.fill.toNat = m % 8 := by
  have hf : s.fill.toNat < 2 ^ 3 := s.fill.isLt
  omega

/-- The eighth bit of a byte overflows where OBUF is full (R152). -/
theorem putBit_of_full (b : Bool) {s : State} (h : SinkOk s) (hf : s.fill = 7)
    (hl : s.obufLen.toNat = s.cfg.obufCap) : putBit b s = raiseFault .outputOverflow := by
  rcases putBit_total b h with ⟨t, ht⟩ | ⟨hr, -⟩
  · obtain ⟨-, ⟨-, hlt, -⟩ | ⟨hne, -⟩⟩ := putBit_ok.1 ht
    · exact absurd hl hlt.ne
    · exact absurd hf hne
  · exact hr

/-- A bit that completes no byte, or one that OBUF has room for, is taken (R152). -/
theorem putBit_of_room (b : Bool) {s : State} (h : SinkOk s) (hr : s.fill ≠ 7 ∨ s.obufLen.toNat < s.cfg.obufCap) :
    ∃ t, putBit b s = .ok t := by
  rcases putBit_total b h with ht | ⟨-, hf, hl⟩
  · exact ht
  · exact absurd hr (by simp [hf, hl])

/-- FILL after one bit is one higher, mod 8 (R152). -/
theorem putBit_fill {b : Bool} {s t : State} (h : putBit b s = .ok t) : t.fill = s.fill + 1 := by
  obtain ⟨-, ⟨hf, -, -, rfl⟩ | ⟨-, rfl⟩⟩ := putBit_ok.1 h
  · rw [hf]
    rfl
  · rfl

/-- Pending bits cannot be flushed where OBUF is full (R154, R158). -/
theorem flush_of_full {s : State} (h : SinkOk s) (hf : s.fill ≠ 0) (hl : s.obufLen.toNat = s.cfg.obufCap) :
    flush s = raiseFault .outputOverflow := by
  rcases flush_total h with ⟨t, ht⟩ | ⟨hr, -⟩
  · obtain ⟨h0, -⟩ | ⟨-, -, hlt, -⟩ := flush_ok.1 ht
    · exact absurd h0 hf
    · exact absurd hl hlt.ne
  · exact hr

/-- Flush completes where OBUF has room (R154). -/
theorem flush_of_room {s : State} (h : SinkOk s) (hl : s.obufLen.toNat < s.cfg.obufCap) : ∃ t, flush s = .ok t := by
  rcases flush_total h with ht | ⟨-, -, hfull⟩
  · exact ht
  · exact absurd hfull hl.ne

/-! ### The source with and without bits left -/

/-- Where bits are left GetBit answers the next one and leaves EOI (R160). -/
theorem getBit_of_cons {s : State} {b : Bool} {bs : List Bool} (h : SourceOk s) (hi : inputBits s = b :: bs) :
    ∃ u, getBit s = .ok ⟨b, false, u⟩ ∧ inputBits u = bs ∧ u.eoi = s.eoi := by
  obtain ⟨⟨bit, padded, u⟩, hg⟩ := getBit_total h.sourceOk h.ibufLenOk
  obtain ⟨-, ⟨hcons, rfl, heoi⟩ | ⟨hnil, -⟩⟩ := getBit_spec h hg
  · rw [hi] at hcons
    cases hcons
    exact ⟨u, hg, rfl, heoi⟩
  · rw [hi] at hnil
    cases hnil

/-- Where no bit is left GetBit answers padding and sets EOI (R160). -/
theorem getBit_of_nil {s : State} (h : SourceOk s) (hi : inputBits s = []) :
    getBit s = .ok ⟨false, true, { s with eoi := true }⟩ := by
  obtain ⟨g, hg⟩ := getBit_total h.sourceOk h.ibufLenOk
  obtain ⟨-, ⟨hcons, -⟩ | ⟨-, rfl⟩⟩ := getBit_spec h hg
  · rw [hi] at hcons
    cases hcons
  · exact hg

/-- BIT_GET's body after GetBit's answer (R162). -/
theorem bitGetBody_of_getBit {s : State} {g : Got} (hg : getBit s = .ok g) :
    bitGetBody s = .ok { g.after with result := BitVec.ofNat 64 (g.bit.toNat + 2 * g.padded.toNat) } := by
  rw [bitGetBody, hg]
  rfl

/-! ### The commands -/

/-- The commands of the sink and the source are legal in IDLE, whatever BUILT is (R98). -/
theorem legal_of_idle {i : Instr} {s : State} (hs : s.session = .idle)
    (hi : opcField (encode i) ∈ ([0x20, 0x21, 0x22, 0x23, 0x24] : List Byte)) :
    legal i s.session s.built = true := by
  have hsub : ([0x20, 0x21, 0x22, 0x23, 0x24] : List Byte) ⊆ legalOpcodes .idle s.built := by
    cases s.built <;> decide
  rw [hs]
  exact (legal_iff_mem_legalOpcodes i .idle s.built).2 (hsub hi)

/-- Settles O29: the body is SinkReset and SourceReset. -/
theorem bitResetResult : Obligations.BitResetResult := by
  unfold Obligations.BitResetResult
  intro s hs
  exact exec_completes (i := .bitReset) (legal_of_idle hs (by decide)) rfl

/-- Settles O30: past its operand's check the command is one PutBit. -/
theorem bitPutResult : Obligations.BitPutResult := by
  unfold Obligations.BitPutResult
  intro s b hinv hs
  have hsink := hinv.toSinkOk
  have hl : legal (.bitPut b) s.session s.built = true := legal_of_idle hs (by simp [encode])
  refine ⟨fun hb => exec_raises hl (bitPutBody_badOperand hb s), fun hb hf hfull => ?_, fun hb hroom => ?_⟩
  · exact exec_raises hl ((bitPutBody_of_le hb s).trans (putBit_of_full _ hsink hf hfull))
  · obtain ⟨t, ht⟩ := putBit_of_room (b.toNat == 1) hsink hroom
    obtain ⟨-, hout, -⟩ := putBit_spec hsink ht
    exact ⟨t, exec_completes hl ((bitPutBody_of_le hb s).trans ht), hout, putBit_fill ht, putBit_sinkOnly ht⟩

/-- Settles O31: past its operand's check the command is one PutFollowed, whose bits are counted as OBUF_LEN bytes and
FILL bits. -/
theorem bitPutnResult : Obligations.BitPutnResult := by
  unfold Obligations.BitPutnResult
  intro s b n hinv hs
  have hsink := hinv.toSinkOk
  have hl : legal (.bitPutn b n) s.session s.built = true := legal_of_idle hs (by simp [encode])
  have htotal := putFollowed_total (b.toNat == 1) n.toNat hsink
  refine ⟨fun hb => exec_raises hl (bitPutnBody_badOperand hb n s), fun hb hfull => ?_, fun hb hroom => ?_⟩
  · obtain ⟨hroom, -⟩ | ⟨-, hr⟩ := htotal
    · exact absurd hfull (Nat.not_lt.2 hroom)
    · exact exec_raises hl ((bitPutnBody_of_le hb n s).trans hr)
  · obtain ⟨-, t, ht⟩ | ⟨hfull, -⟩ := htotal
    · obtain ⟨-, hout, hbits⟩ := putFollowed_spec hsink ht
      obtain ⟨hlen, hfill⟩ := obufLen_fill_of_bits hbits
      exact ⟨t, exec_completes hl ((bitPutnBody_of_le hb n s).trans ht), hout, by omega, by omega,
        putFollowed_sinkOnly ht⟩
    · exact absurd hfull (Nat.not_lt.2 hroom)

/-- Settles O32: the body is Flush, whose padding is the zeros up to a whole byte. -/
theorem bitFlushResult : Obligations.BitFlushResult := by
  unfold Obligations.BitFlushResult
  intro s hinv hs
  have hsink := hinv.toSinkOk
  have hl : legal .bitFlush s.session s.built = true := legal_of_idle hs (by decide)
  refine ⟨fun h0 => exec_completes hl (flush_ok.2 (.inl ⟨h0, rfl⟩)),
    fun hf hfull => exec_raises hl (flush_of_full hsink hf hfull), fun hf hroom => ?_⟩
  obtain ⟨t, ht⟩ := flush_of_room hsink hroom
  obtain ⟨-, hfill, hacc, pad, -, hout, hpad⟩ := flush_spec hsink ht
  obtain ⟨rfl, hlen⟩ := hpad hf
  have hframe := flush_sinkOnly ht
  rw [SinkOnly, hacc, hfill] at hframe
  exact ⟨t, exec_completes hl ht, hout, hlen, hframe⟩

/-- Settles O33: GetBit answers the head of the bits left, and RESULT is its answer with the padding in bit 1. -/
theorem bitGetResult : Obligations.BitGetResult := by
  unfold Obligations.BitGetResult
  intro s hinv hs
  have hsource := hinv.toSourceOk
  have hl : legal .bitGet s.session s.built = true := legal_of_idle hs (by decide)
  refine ⟨fun b bs hi => ?_, fun hi => ?_⟩
  · obtain ⟨u, hu, hbits, heoi⟩ := getBit_of_cons hsource hi
    have hbody := bitGetBody_of_getBit hu
    have hframe := getBit_sourceOnly hu
    rw [SourceOnly, heoi] at hframe
    refine ⟨_, exec_completes hl hbody, ?_, (inputBits_congr rfl rfl rfl rfl rfl rfl).trans hbits, ?_⟩
    · cases b <;> rfl
    · conv_lhs => rw [hframe]
  · exact exec_completes hl (bitGetBody_of_getBit (getBit_of_nil hsource hi))

end Sys2Proof.Machine

/-! SUPPORT. The statements about the range encoder (42_range_encoder). -/

namespace Sys2Proof.Machine

/-! ### Narrowing and the moves of the interval -/

/-- Settles O34: the body is SinkReset with the first interval, no symbol counted. -/
theorem encStartResult : Obligations.EncStartResult := by
  unfold Obligations.EncStartResult
  intro s hs hb
  exact exec_completes (i := .encStart) (by simp [legal, hs, hb]) rfl

/-- Settles O35: the invariant's interval is in order and its table is that of COUNT. -/
theorem narrowStaysInside : Obligations.NarrowStaysInside := by
  unfold Obligations.NarrowStaysInside
  intro s sym hinv hb ht _
  exact narrow_bounds (hinv.tableOk hb) ht hinv.interval.width_ge.1

/-- A move by at most LOW drops the same number from both ends (R186). -/
theorem moveInterval_toNat {s : State} {d : BitVec 16} (hd : d.toNat ≤ s.low.toNat) (hle : s.low ≤ s.high) :
    (moveInterval d s).low.toNat = s.low.toNat - d.toNat ∧ (moveInterval d s).high.toNat = s.high.toNat - d.toNat :=
  ⟨movedValue hd, movedValue (hd.trans (BitVec.le_def.1 hle))⟩

/-- Shift drops no set bit of an interval below HALF (R184). -/
theorem shift_toNat {s : State} (hh : s.high < half) (hle : s.low ≤ s.high) :
    (shift s).low.toNat = 2 * s.low.toNat ∧ (shift s).high.toNat = 2 * s.high.toNat + 1 := by
  rw [BitVec.lt_def, half_toNat] at hh
  rw [BitVec.le_def] at hle
  simp only [shift_low, shift_high, BitVec.toNat_ofNat]
  omega

/-- Settles O36: each branch's subtraction brings HIGH below HALF with LOW <= HIGH, where Shift is exact. -/
theorem firedBranchDoublesWidth : Obligations.FiredBranchDoublesWidth := by
  unfold Obligations.FiredBranchDoublesWidth
  refine ⟨fun s => ⟨BitVec.toNat_ofNat .., BitVec.toNat_ofNat .., rfl⟩, fun s u hle hfire => ?_⟩
  obtain ⟨hlower, hupper, hmiddle⟩ := fire_width hle
  have hle' := BitVec.le_def.1 hle
  have hbelow : u.high < half ∧ u.low ≤ u.high ∧ width (shift u) = 2 * width s := by
    rw [BitVec.lt_def, BitVec.le_def, half_toNat]
    rcases hfire with ⟨hc, rfl⟩ | ⟨hc, rfl⟩ | ⟨hc, rfl⟩
    · exact ⟨classify_lower hc, hle', (hlower hc).2⟩
    · have hbounds := classify_upper hc
      have htop := s.high.isLt
      obtain ⟨hlow, hhigh⟩ := moveInterval_toNat (d := half) hbounds.2 hle
      rw [half_toNat] at hlow hhigh
      exact ⟨by omega, by omega, (hupper hc).2⟩
    · have hbounds := classify_middle hc
      obtain ⟨hlow, hhigh⟩ := moveInterval_toNat (d := quarter) hbounds.2.2.1 hle
      rw [quarter_toNat] at hlow hhigh
      exact ⟨by omega, by omega, (hmiddle hc).2⟩
  obtain ⟨hhigh, hule, hwidth⟩ := hbelow
  obtain ⟨hlow2, hhigh2⟩ := shift_toNat hhigh hule
  exact ⟨hhigh, hlow2, hhigh2, hwidth⟩

/-! ### The bound of the renormalization loops -/

/-- A sequence does not stop for a reason for which neither of its parts does. -/
theorem Eff.bind_ne_error {α β : Type} {x : Eff α} {f : α → Eff β} {e : Stop} (hx : x ≠ .error e)
    (hf : ∀ a, x = .ok a → f a ≠ .error e) : (x >>= f) ≠ .error e := by
  intro h
  rcases Eff.bind_error.1 h with h | ⟨a, ha, h⟩
  · exact hx h
  · exact hf a ha h

theorem fit_ne_renormBound (w n : Nat) : fit w n ≠ noMeaning .renormBound := by
  intro h
  cases (fit_error h).2

theorem obufAppend_ne_renormBound (b : Byte) (s : State) : obufAppend b s ≠ noMeaning .renormBound := by
  unfold obufAppend
  split
  · simp
  · split
    · exact Eff.bind_ne_error (fit_ne_renormBound _ _) (by simp)
    · simp

theorem putBit_ne_renormBound (b : Bool) (s : State) : putBit b s ≠ noMeaning .renormBound := by
  unfold putBit
  split
  · exact Eff.bind_ne_error (fit_ne_renormBound _ _) fun byte _ =>
      Eff.bind_ne_error (obufAppend_ne_renormBound byte s) (by simp)
  · exact Eff.bind_ne_error (fit_ne_renormBound _ _) (by simp)

theorem putFollowed_ne_renormBound (b : Bool) (n : Nat) (s : State) : putFollowed b n s ≠ noMeaning .renormBound := by
  induction n generalizing s with
  | zero => simp [putFollowed]
  | succ n ih => exact Eff.bind_ne_error (putBit_ne_renormBound b s) fun t _ => ih t

theorem bitPlusFollow_ne_renormBound (b : Bool) (s : State) : bitPlusFollow b s ≠ noMeaning .renormBound :=
  Eff.bind_ne_error (putBit_ne_renormBound b s) fun t _ =>
    Eff.bind_ne_error (putFollowed_ne_renormBound _ _ t) (by simp)

theorem takeBit_ne_renormBound (s : State) : takeBit s ≠ noMeaning .renormBound := by
  unfold takeBit
  split <;> simp

theorem getBit_ne_renormBound (s : State) : getBit s ≠ noMeaning .renormBound := by
  unfold getBit
  split
  · split
    · refine Eff.bind_ne_error ?_ fun _ _ => takeBit_ne_renormBound _
      unfold ibufRead
      split <;> simp
    · simp
  · exact takeBit_ne_renormBound s

theorem pullBit_ne_renormBound (s : State) : pullBit s ≠ noMeaning .renormBound :=
  Eff.bind_ne_error (getBit_ne_renormBound s) (by simp)

/-- The interval of `t` is in order and twice as wide as that of `s` (R184). -/
def Doubles (s t : State) : Prop := t.low ≤ t.high ∧ width t = 2 * width s

/-- Doubling speaks of LOW and HIGH alone. -/
theorem Doubles.congr {s t s' t' : State} (h : Doubles s t) (h1 : s'.low = s.low) (h2 : s'.high = s.high)
    (h3 : t'.low = t.low) (h4 : t'.high = t.high) : Doubles s' t' := by
  obtain ⟨hle, hw⟩ := h
  exact ⟨by rw [h3, h4]; exact hle, by rw [width_congr h3 h4, width_congr h1 h2, hw]⟩

/-- One turn of a renormalization loop from `s`, `rest` being the turns after it: it is at STOP, or what it does first is
no stop at the bound and leaves the interval doubled. -/
def Turn (s : State) (rest : State → Eff State) (turn : Eff State) : Prop :=
  turn = .ok s ∨
  ∃ (α : Type) (x : Eff α) (next : α → State), turn = (x >>= fun a => rest (next a)) ∧
    x ≠ noMeaning .renormBound ∧ ∀ a, x = .ok a → Doubles s (next a)

/-- A loop whose turns double the interval is at STOP before its width passes 2^16 (R320). -/
theorem loop_ne_renormBound {loop : Nat → State → Eff State}
    (hturn : ∀ n s, s.low ≤ s.high → Turn s (loop n) (loop (n + 1) s)) {n : Nat} {s : State} (hle : s.low ≤ s.high)
    (hw : 2 ^ 16 < width s * 2 ^ n) : loop n s ≠ noMeaning .renormBound := by
  induction n generalizing s with
  | zero =>
    have hhigh := s.high.isLt
    unfold width at hw
    omega
  | succ n ih =>
    rcases hturn n s hle with hstop | ⟨α, x, next, hx, hne, hdouble⟩
    · simp [hstop]
    · rw [hx]
      refine Eff.bind_ne_error hne fun a ha => ?_
      obtain ⟨hle', hw'⟩ := hdouble a ha
      refine ih hle' ?_
      calc (2 : Int) ^ 16 < width s * 2 ^ (n + 1) := hw
        _ = width (next a) * 2 ^ n := by rw [hw', pow_succ]; ring

/-- A turn of EncRenorm (R186). -/
theorem encRenorm_turn (n : Nat) {s : State} (hle : s.low ≤ s.high) : Turn s (encRenorm n) (encRenorm (n + 1) s) := by
  -- LOW and HIGH are as they were after the bits of a branch
  have hbits : ∀ {b t}, bitPlusFollow b s = .ok t → t.low = s.low ∧ t.high = s.high := by
    intro b t ht
    rw [bitPlusFollow_frame ht]
    exact ⟨rfl, rfl⟩
  obtain ⟨hlower, hupper, hmiddle⟩ := fire_width hle
  unfold encRenorm
  cases hc : classify s.low s.high with
  | lower =>
    refine .inr ⟨_, bitPlusFollow false s, shift, rfl, bitPlusFollow_ne_renormBound false s, fun t ht => ?_⟩
    obtain ⟨h1, h2⟩ := hbits ht
    exact Doubles.congr (hlower hc) rfl rfl (by simp [h1]) (by simp [h2])
  | upper =>
    refine .inr ⟨_, bitPlusFollow true s, fun t => shift (moveInterval half t), rfl,
      bitPlusFollow_ne_renormBound true s, fun t ht => ?_⟩
    obtain ⟨h1, h2⟩ := hbits ht
    exact Doubles.congr (hupper hc) rfl rfl (by simp [h1]) (by simp [h2])
  | middle =>
    exact .inr ⟨_, fit 64 (s.follow.toNat + 1), fun f => shift (moveInterval quarter { s with follow := f }), rfl,
      fit_ne_renormBound _ _, fun f _ => Doubles.congr (hmiddle hc) rfl rfl rfl rfl⟩
  | stop => exact .inl rfl

/-- A turn of DecRenorm (R223). -/
theorem decRenorm_turn (n : Nat) {s : State} (hle : s.low ≤ s.high) : Turn s (decRenorm n) (decRenorm (n + 1) s) := by
  -- a branch that leaves `u` for the next bit doubles the interval where `u` does
  have hpull : ∀ u, Doubles s u → Turn s (decRenorm n) (pullBit u >>= fun t => decRenorm n t) := by
    refine fun u hu => .inr ⟨_, pullBit u, id, rfl, pullBit_ne_renormBound u, fun t ht => ?_⟩
    have hframe := pullBit_valueOnly ht
    rw [ValueOnly] at hframe
    exact hu.congr rfl rfl (by rw [hframe]; rfl) (by rw [hframe]; rfl)
  obtain ⟨hlower, hupper, hmiddle⟩ := fire_width hle
  unfold decRenorm
  cases hc : classify s.low s.high with
  | lower => exact hpull _ (hlower hc)
  | upper => exact hpull _ (Doubles.congr (hupper hc) rfl rfl rfl rfl)
  | middle => exact hpull _ (Doubles.congr (hmiddle hc) rfl rfl rfl rfl)
  | stop => exact .inl rfl

/-- Settles O37: on integers 16 doublings bring every width over HALF; on the machine every turn but STOP doubles the
width, which 17 turns cannot. -/
theorem renormalizationIsBounded : Obligations.RenormalizationIsBounded := by
  unfold Obligations.RenormalizationIsBounded
  refine ⟨fun lo hi f hle htop => ?_, fun s hle => ?_⟩
  · obtain ⟨hlow, hhigh, -, hmid⟩ := renorm_stop (n := 16) f hle htop (by omega)
    obtain ⟨hbits, hfires⟩ := renorm_bits 16 lo hi f
    exact ⟨⟨hlow, hhigh, hmid⟩, hfires, hbits⟩
  · have hw := renormFuel_ok hle
    exact ⟨loop_ne_renormBound (fun n _ h => encRenorm_turn n h) hle hw,
      loop_ne_renormBound (fun n _ h => decRenorm_turn n h) hle hw,
      fun _ ht => classify_stop.1 (encRenorm_ok ht).1, fun _ ht => classify_stop.1 (decRenorm_ok ht).1⟩

/-! ### ENC_SYMBOL -/

/-- The symbols counted are fewer than TOTAL until they are TOTAL (R30). -/
theorem Inv.encCount_lt {s : State} (h : Inv s) (hs : s.session = .enc) (hne : s.encCount ≠ s.total) :
    s.encCount.toNat < s.total.toNat :=
  lt_of_le_of_ne (h.encoding hs).1 fun heq => hne (BitVec.eq_of_toNat_eq heq)

theorem legal_encSymbol {s : State} (hs : s.session = .enc) (sym : Byte) :
    legal (.encSymbol sym) s.session s.built = true := by
  simp [legal, hs]

/-- A symbol of count 0 narrows to an interval whose high end is one below its low end (R182). -/
theorem narrowedHigh_of_count_zero {s : State} {sym : Byte} (h : TableOk s.cum s.count)
    (hc : s.count[sym.toNat] = 0) : narrowedHigh sym s = narrowedLow sym s - 1 := by
  have hspan : cumHigh sym s = cumLow sym s := by rw [cumHigh_eq_add h, hc]; rfl
  unfold narrowedHigh narrowedLow
  rw [hspan]

/-- A span of at least TOTAL div r counts narrows to an interval that is not empty (R182, R190). -/
theorem narrowed_nonempty {s : State} {sym : Byte} (ht : 0 < s.total.toNat)
    (hspan : width s * cumLow sym s + s.total.toNat ≤ width s * cumHigh sym s) :
    narrowedLow sym s ≤ narrowedHigh sym s := by
  have hdiv : (width s * cumLow sym s + s.total.toNat) / (s.total.toNat : Int) =
      width s * cumLow sym s / s.total.toNat + 1 := by
    rw [Int.add_ediv_of_dvd_right (dvd_refl _), Int.ediv_self (by omega)]
  have hmono := Int.ediv_le_ediv (c := (s.total.toNat : Int)) (by omega) hspan
  unfold narrowedLow narrowedHigh
  omega

/-- Settles O40: the width is at least 0x4002 and so TOTAL, and one count more moves the quotient by one at least. -/
theorem smallTotalNeverEmptiesTheInterval : Obligations.SmallTotalNeverEmptiesTheInterval := by
  unfold Obligations.SmallTotalNeverEmptiesTheInterval
  intro s sym hinv hs hsmall hcount
  have htab := hinv.tableOk (hinv.sessionBuilt (.inl hs))
  have hpos : 0 < s.count[sym.toNat].toNat := Nat.pos_of_ne_zero fun h0 => hcount (BitVec.eq_of_toNat_eq h0)
  have hspan := cumHigh_eq_add htab sym
  have htotal := cumHigh_le_total htab sym
  have hwidth := hinv.interval.width_ge.2
  refine narrowed_nonempty (by omega) ?_
  have hone : (cumLow sym s : Int) + 1 ≤ cumHigh sym s := by omega
  calc width s * cumLow sym s + s.total.toNat ≤ width s * cumLow sym s + width s := by omega
    _ = width s * (cumLow sym s + 1) := by ring
    _ ≤ width s * cumHigh sym s := Int.mul_le_mul_of_nonneg_left hone (by omega)

/-- Past the check of ENC_COUNT a stop of Narrow is ENC_SYMBOL's (R188). -/
theorem encSymbolBody_of_narrow_error {s : State} {sym : Byte} {e : Stop} (hne : s.encCount ≠ s.total)
    (hn : narrow sym s = .error e) : encSymbolBody sym s = .error e := by
  rw [encSymbolBody, if_neg hne, hn, Eff.error_bind]

/-- Settles O38: the body leaves what the renormalization on integers leaves, whose bits are counted as OBUF_LEN bytes
and FILL bits. -/
theorem encSymbolCompletes : Obligations.EncSymbolCompletes := by
  unfold Obligations.EncSymbolCompletes
  rintro s sym r hinv hs hcount hn rfl hroom
  rcases encSymbolBody_renorm hinv hs hcount hn with ⟨-, t, ht, hleaves, henc, hren⟩ | ⟨hfull, -⟩
  · obtain ⟨-, hlow, hhigh, hfollow, hout, hbits⟩ := hleaves
    obtain ⟨hlen, hfill⟩ := obufLen_fill_of_bits hbits
    have hfires : (renormAfter sym s.follow.toNat s).bits.length + (renormAfter sym s.follow.toNat s).follow =
        s.follow.toNat + (renormAfter sym s.follow.toNat s).fires ∧ (renormAfter sym s.follow.toNat s).fires ≤ 16 :=
      renorm_bits 16 _ _ _
    exact ⟨t, exec_completes (legal_encSymbol hs sym) ht, hlow, hhigh, hfollow, hout, by omega, by omega, by omega,
      henc, hren, encSymbolBody_frame ht⟩
  · exact absurd hroom (Nat.not_le.2 hfull)

/-- Settles O39: the checks of the body in their order; past the first, Narrow is total and then EncRenorm overflows
exactly where the bytes do not fit. -/
theorem encSymbolFaultsInOrder : Obligations.EncSymbolFaultsInOrder := by
  unfold Obligations.EncSymbolFaultsInOrder
  intro s sym hinv hs
  have hl := legal_encSymbol hs sym
  have htab := hinv.tableOk (hinv.sessionBuilt (.inl hs))
  refine ⟨fun hc => exec_raises hl (if_pos hc), fun hne hempty => ?_, fun hne hn hfull => ?_, fun h0 => ?_⟩
  · have hcount := hinv.encCount_lt hs hne
    rcases narrow_total sym htab (by omega) hinv.interval.width_ge.1 with ⟨hn, -⟩ | ⟨-, hr⟩
    · exact absurd hempty (Int.not_lt.2 hn)
    · exact exec_raises hl (encSymbolBody_of_narrow_error hne hr)
  · rcases encSymbolBody_renorm hinv hs (hinv.encCount_lt hs hne) hn with ⟨hroom, -⟩ | ⟨-, hr⟩
    · exact absurd hfull (Nat.not_lt.2 hroom)
    · exact exec_raises hl hr
  · have := narrowedHigh_of_count_zero htab h0
    omega

/-! ### ENC_FINISH -/

/-- The bit by LOW and FOLLOW + 1 opposite bits (R189). -/
theorem finalBits_eq (s : State) :
    finalBits s = decide (quarter ≤ s.low) :: List.replicate (s.follow.toNat + 1) (!decide (quarter ≤ s.low)) := by
  unfold finalBits
  congr 2
  rw [← decide_not, decide_eq_decide, BitVec.not_le]

/-- A sound Flush completes where the partial byte fits with OBUF's, and overflows where it does not (R154). -/
theorem flush_answers {s : State} (h : SinkOk s) :
    (s.obufLen.toNat + (s.fill.toNat + 7) / 8 ≤ s.cfg.obufCap ∧ ∃ t, flush s = .ok t) ∨
      (s.cfg.obufCap < s.obufLen.toNat + (s.fill.toNat + 7) / 8 ∧ flush s = raiseFault .outputOverflow) := by
  have hcap := h.obufLenOk
  have hfill : s.fill.toNat < 2 ^ 3 := s.fill.isLt
  by_cases h0 : s.fill = 0
  · have h0' : s.fill.toNat = 0 := by rw [h0]; rfl
    exact .inl ⟨by omega, s, flush_ok.2 (.inl ⟨h0, rfl⟩)⟩
  · have h0' : s.fill.toNat ≠ 0 := fun hc => h0 (BitVec.eq_of_toNat_eq hc)
    rcases Nat.lt_or_eq_of_le hcap with hlt | hfull
    · exact .inl ⟨by omega, flush_of_room h hlt⟩
    · exact .inr ⟨by omega, flush_of_full h h0 hfull⟩

/-- The final bits (R189): they complete where OBUF has room for their bytes, the last one padded with zeros, and
overflow where it has not. -/
theorem finishBits_answers {s : State} (h : SinkOk s) (hf : s.follow.toNat + 1 < 2 ^ 64) :
    (s.obufLen.toNat + (s.fill.toNat + s.follow.toNat + 9) / 8 ≤ s.cfg.obufCap ∧
      ∃ t pad, finishBits s = .ok t ∧ t.acc = 0 ∧ t.fill = 0 ∧ pad < 8 ∧
        outputBits t = outputBits s ++ finalBits s ++ List.replicate pad false) ∨
    (s.cfg.obufCap < s.obufLen.toNat + (s.fill.toNat + s.follow.toNat + 9) / 8 ∧
      finishBits s = raiseFault .outputOverflow) := by
  have hfollow : (BitVec.ofNat 64 (s.follow.toNat + 1)).toNat = s.follow.toNat + 1 := by
    rw [BitVec.toNat_ofNat, Nat.mod_eq_of_lt hf]
  unfold finishBits
  rw [fit_of_lt hf, Eff.ok_bind]
  generalize BitVec.ofNat 64 (s.follow.toNat + 1) = n at hfollow
  have hk : SinkOk { s with follow := n } := h.congr rfl rfl rfl rfl rfl
  rcases bitPlusFollow_total (decide (quarter ≤ s.low)) hk with ⟨u, hu⟩ | ⟨hr, hfull⟩
  · obtain ⟨huk, hout, hbits⟩ := bitPlusFollow_spec hk hu
    have hcfg : u.cfg = s.cfg := by rw [bitPlusFollow_frame hu]
    have hfill : u.fill.toNat < 2 ^ 3 := u.fill.isLt
    simp only [hfollow] at hbits hout
    rw [hu, Eff.ok_bind]
    rcases flush_answers huk with ⟨hroom, t, ht⟩ | ⟨hfull, hr⟩
    · obtain ⟨-, htf, hta, pad, hpad, hflush, -⟩ := flush_spec huk ht
      have hs : outputBits { s with follow := n } = outputBits s := outputBits_congr rfl rfl rfl rfl rfl
      exact .inl ⟨by rw [← hcfg]; omega, t, pad, ht, hta, htf, hpad, by rw [hflush, hout, hs, finalBits_eq]⟩
    · exact .inr ⟨by rw [← hcfg]; omega, hr⟩
  · simp only [hfollow] at hfull
    exact .inr ⟨by omega, by rw [hr, Eff.error_bind]⟩

/-- With all of TOTAL > 0 symbols encoded ENC_FINISH is its final bits (R189). -/
theorem encFinishBody_of_total {s : State} (hc : s.encCount = s.total) (h0 : s.total ≠ 0) :
    encFinishBody s = (finishBits s >>= fun t => .ok { t with session := .idle }) := by
  rw [encFinishBody, if_neg (not_not.2 hc), if_neg h0]
  rfl

/-- Settles O41: the checks of the body in their order, then the final bits. -/
theorem encFinishResult : Obligations.EncFinishResult := by
  unfold Obligations.EncFinishResult
  intro s hinv hs
  have hl : legal .encFinish s.session s.built = true := by simp [legal, hs]
  have hanswers := finishBits_answers hinv.toSinkOk (by have := hinv.follow_lt hs; omega)
  refine ⟨fun hne => exec_raises hl (if_pos hne), fun hc h0 => ?_, fun hc h0 hroom => ?_, fun hc h0 hfull => ?_⟩
  · exact exec_completes hl ((if_neg (not_not.2 hc)).trans (if_pos h0))
  · rcases hanswers with ⟨-, t, pad, ht, hacc, hfill, hpad, hout⟩ | ⟨hfull, -⟩
    · have hframe := finishBits_frame ht
      rw [hacc, hfill] at hframe
      refine ⟨{ t with session := .idle }, pad, exec_completes hl ?_, hpad,
        (outputBits_congr rfl rfl rfl rfl rfl).trans hout,
        congrArg (fun u : State => { u with session := .idle }) hframe⟩
      exact (encFinishBody_of_total hc h0).trans (by rw [ht, Eff.ok_bind])
    · exact absurd hroom (Nat.not_le.2 hfull)
  · rcases hanswers with ⟨hroom, -⟩ | ⟨-, hr⟩
    · exact absurd hfull (Nat.not_lt.2 hroom)
    · exact exec_raises hl ((encFinishBody_of_total hc h0).trans (by rw [hr, Eff.error_bind]))

/-! ### The stream -/

/-- The number of bits the sink has taken (R32, R72). -/
theorem outputBits_length (s : State) : (outputBits s).length = 8 * s.obufLen.toNat + s.fill.toNat := by
  simp [outputBits, List.length_flatMap, Nat.mul_comm]

/-- The eight bits of a byte fix it. -/
theorem lowBits_injective {a b : Byte} (h : lowBits a 8 = lowBits b 8) : a = b := by
  apply BitVec.eq_of_getLsbD_eq
  intro i hi
  have hbit := (List.map_inj_left.1 h) (7 - i) (List.mem_range.2 (by omega))
  rwa [show 8 - 1 - (7 - i) = i by omega] at hbit

/-- The bits of `n` bytes fix each of them. -/
theorem flatMap_lowBits_injective {f g : Nat → Byte} {n : Nat}
    (h : (List.range n).flatMap (fun i => lowBits (f i) 8) = (List.range n).flatMap (fun i => lowBits (g i) 8)) :
    ∀ k, k < n → f k = g k := by
  induction n with
  | zero => exact fun k hk => absurd hk (Nat.not_lt_zero k)
  | succ n ih =>
    simp only [List.range_succ, List.flatMap_append, List.flatMap_singleton] at h
    obtain ⟨hinit, hlast⟩ := List.append_inj' h (by simp)
    intro k hk
    rcases Nat.lt_succ_iff_lt_or_eq.1 hk with hk | rfl
    · exact ih hinit k hk
    · exact lowBits_injective hlast

/-- The bits the sink has taken fix OBUF_LEN, FILL and the bytes of OBUF below OBUF_LEN (R72). -/
theorem obuf_eq_of_outputBits {s u : State} (h : outputBits s = outputBits u) :
    s.obufLen = u.obufLen ∧ s.fill = u.fill ∧ ∀ k, k < s.obufLen.toNat → obufByte s k = obufByte u k := by
  have hcount : 8 * s.obufLen.toNat + s.fill.toNat = 8 * u.obufLen.toNat + u.fill.toNat := by
    rw [← outputBits_length, h, outputBits_length]
  obtain ⟨hlen, hfill⟩ := obufLen_fill_of_bits hcount
  obtain ⟨hlen', hfill'⟩ := obufLen_fill_of_bits (s := u) rfl
  have hobuf : s.obufLen = u.obufLen := BitVec.eq_of_toNat_eq (hlen.trans hlen'.symm)
  have hrest : s.fill = u.fill := BitVec.eq_of_toNat_eq (hfill.trans hfill'.symm)
  refine ⟨hobuf, hrest, ?_⟩
  unfold outputBits at h
  rw [← hobuf, ← hrest] at h
  exact flatMap_lowBits_injective (List.append_inj' h (by simp)).1

/-- Two encoders at one point of one stream: what the rest of the stream, or its fault, depends on is the same in both
(R191). -/
structure EncodesAlike (s u : State) : Prop where
  session : s.session = u.session
  faultCode : s.faultCode = u.faultCode
  faultCmd : s.faultCmd = u.faultCmd
  encCount : s.encCount = u.encCount
  cum : s.cum = u.cum
  low : s.low = u.low
  high : s.high = u.high
  follow : s.follow = u.follow
  obufCap : s.cfg.obufCap = u.cfg.obufCap
  output : outputBits s = outputBits u

namespace EncodesAlike

variable {s u : State}

theorem total (h : EncodesAlike s u) : s.total = u.total := by
  unfold State.total
  rw [h.cum]

theorem narrowed (h : EncodesAlike s u) (sym : Byte) :
    narrowedLow sym s = narrowedLow sym u ∧ narrowedHigh sym s = narrowedHigh sym u := by
  unfold narrowedLow narrowedHigh width cumLow cumHigh State.total
  rw [h.cum, h.low, h.high]
  exact ⟨rfl, rfl⟩

theorem renormAfter_eq (h : EncodesAlike s u) (sym : Byte) :
    renormAfter sym u.follow.toNat u = renormAfter sym s.follow.toNat s := by
  obtain ⟨hlow, hhigh⟩ := h.narrowed sym
  unfold renormAfter
  rw [hlow, hhigh, h.follow]

theorem finalBits_eq (h : EncodesAlike s u) : finalBits u = finalBits s := by
  unfold finalBits
  rw [h.low, h.follow]

/-- What says whether bytes fit: OBUF_LEN, FILL and the capacity. -/
theorem sink (h : EncodesAlike s u) :
    u.obufLen = s.obufLen ∧ u.fill = s.fill ∧ u.cfg.obufCap = s.cfg.obufCap := by
  obtain ⟨hlen, hfill, -⟩ := obuf_eq_of_outputBits h.output
  exact ⟨hlen.symm, hfill.symm, h.obufCap.symm⟩

/-- A command that raises one fault in two encoders keeps them alike (R264). -/
theorem of_fault {s' u' : State} {i : Instr} {c : FaultCode} (h : EncodesAlike s u)
    (hs : exec i s = .next (faultEntry c (encode i) s)) (hu : exec i u = .next (faultEntry c (encode i) u))
    (hs' : exec i s = .next s') (hu' : exec i u = .next u') : EncodesAlike s' u' := by
  cases hs.symm.trans hs'
  cases hu.symm.trans hu'
  obtain ⟨-, -, -, hencCount, hcum, hlow, hhigh, hfollow, hcap, hout⟩ := h
  exact ⟨rfl, rfl, rfl, hencCount, hcum, hlow, hhigh, hfollow, hcap, hout⟩

/-- ENC_START makes two cores with one table and one capacity of OBUF alike (R187). -/
theorem start {e f s u : State} (he : Inv e) (hf : Inv f) (hes : e.session = .idle) (hfs : f.session = .idle)
    (heb : e.built = true) (hfb : f.built = true) (hcount : e.count = f.count)
    (hcap : e.cfg.obufCap = f.cfg.obufCap) (hs : exec .encStart e = .next s) (hu : exec .encStart f = .next u) :
    EncodesAlike s u := by
  have hcode : e.faultCode = .none ∧ f.faultCode = .none :=
    ⟨he.faultCode_none (by simp [hes]), hf.faultCode_none (by simp [hfs])⟩
  cases (encStartResult e hes heb).symm.trans hs
  cases (encStartResult f hfs hfb).symm.trans hu
  exact {
    session := rfl
    faultCode := hcode.1.trans hcode.2.symm
    faultCmd := (he.faultCmdOk hcode.1).trans (hf.faultCmdOk hcode.2).symm
    encCount := rfl
    cum := by simp only [he.builtTable heb, hf.builtTable hfb, hcount]
    low := rfl
    high := rfl
    follow := rfl
    obufCap := hcap
    output := rfl }

/-- Where an ENC_SYMBOL completes it leaves two encoders alike: it leaves one renormalization in both (R188). -/
theorem encSymbol_completes {s' u' : State} {sym : Byte} (h : EncodesAlike s u) (hs : Inv s) (hu : Inv u)
    (henc : s.session = .enc) (hc : s.encCount ≠ s.total) (hn : narrowedLow sym s ≤ narrowedHigh sym s)
    (hroom : s.obufLen.toNat + (s.fill.toNat + (renormAfter sym s.follow.toNat s).bits.length) / 8 ≤ s.cfg.obufCap)
    (hs' : exec (.encSymbol sym) s = .next s') (hu' : exec (.encSymbol sym) u = .next u') : EncodesAlike s' u' := by
  have henc' : u.session = .enc := h.session ▸ henc
  have hc' : u.encCount ≠ u.total := by rwa [← h.encCount, ← h.total]
  obtain ⟨hlow, hhigh⟩ := h.narrowed sym
  obtain ⟨hlen, hfill, hcap⟩ := h.sink
  obtain ⟨a, ha, alow, ahigh, afollow, aout, -, -, -, acount, -, aframe⟩ :=
    encSymbolCompletes s sym _ hs henc (hs.encCount_lt henc hc) hn rfl hroom
  obtain ⟨b, hb, blow, bhigh, bfollow, bout, -, -, -, bcount, -, bframe⟩ :=
    encSymbolCompletes u sym _ hu henc' (hu.encCount_lt henc' hc') (by rwa [← hlow, ← hhigh])
      (h.renormAfter_eq sym).symm (by rwa [hlen, hfill, hcap])
  cases ha.symm.trans hs'
  cases hb.symm.trans hu'
  exact {
    session := by rw [aframe, bframe]; exact h.session
    faultCode := by rw [aframe, bframe]; exact h.faultCode
    faultCmd := by rw [aframe, bframe]; exact h.faultCmd
    encCount := BitVec.eq_of_toNat_eq (by rw [acount, bcount, h.encCount])
    cum := by rw [aframe, bframe]; exact h.cum
    low := BitVec.eq_of_toNat_eq (alow.trans blow.symm)
    high := BitVec.eq_of_toNat_eq (ahigh.trans bhigh.symm)
    follow := BitVec.eq_of_toNat_eq (afollow.trans bfollow.symm)
    obufCap := by rw [aframe, bframe]; exact h.obufCap
    output := by rw [aout, bout, h.output] }

/-- One ENC_SYMBOL keeps two encoders alike: one of its checks fails in both, or it completes in both (R188). -/
theorem encSymbol {s' u' : State} {sym : Byte} (h : EncodesAlike s u) (hs : Inv s) (hu : Inv u)
    (henc : s.session = .enc) (hs' : exec (.encSymbol sym) s = .next s') (hu' : exec (.encSymbol sym) u = .next u') :
    EncodesAlike s' u' := by
  obtain ⟨hcountS, hemptyS, hfullS, -⟩ := encSymbolFaultsInOrder s sym hs henc
  obtain ⟨hcountU, hemptyU, hfullU, -⟩ := encSymbolFaultsInOrder u sym hu (h.session ▸ henc)
  obtain ⟨hlow, hhigh⟩ := h.narrowed sym
  obtain ⟨hlen, hfill, hcap⟩ := h.sink
  rw [← h.encCount, ← h.total] at hcountU hemptyU hfullU
  rw [← hlow, ← hhigh] at hemptyU hfullU
  rw [h.renormAfter_eq, hlen, hfill, hcap] at hfullU
  by_cases hc : s.encCount = s.total
  · exact h.of_fault (hcountS hc) (hcountU hc) hs' hu'
  · rcases lt_or_ge (narrowedHigh sym s) (narrowedLow sym s) with hempty | hn
    · exact h.of_fault (hemptyS hc hempty) (hemptyU hc hempty) hs' hu'
    · rcases le_or_gt (s.obufLen.toNat + (s.fill.toNat + (renormAfter sym s.follow.toNat s).bits.length) / 8)
        s.cfg.obufCap with hroom | hfull
      · exact h.encSymbol_completes hs hu henc hc hn hroom hs' hu'
      · exact h.of_fault (hfullS hc hn hfull) (hfullU hc hn hfull) hs' hu'

/-- Where an ENC_FINISH emits its bits it leaves two encoders alike: the padding is what is left of the last byte
(R189). -/
theorem encFinish_completes {s' u' : State} (h : EncodesAlike s u) (hs : Inv s) (hu : Inv u)
    (henc : s.session = .enc) (hc : s.encCount = s.total) (h0 : s.total ≠ 0)
    (hroom : s.obufLen.toNat + (s.fill.toNat + s.follow.toNat + 9) / 8 ≤ s.cfg.obufCap)
    (hs' : exec .encFinish s = .next s') (hu' : exec .encFinish u = .next u') : EncodesAlike s' u' := by
  obtain ⟨-, -, hroomS, -⟩ := encFinishResult s hs henc
  obtain ⟨-, -, hroomU, -⟩ := encFinishResult u hu (h.session ▸ henc)
  obtain ⟨hlen, hfill, hcap⟩ := h.sink
  rw [← h.encCount, ← h.total, hlen, hfill, hcap, ← h.follow, ← h.output, h.finalBits_eq] at hroomU
  obtain ⟨a, p, ha, hp, aout, aframe⟩ := hroomS hc h0 hroom
  obtain ⟨b, q, hb, hq, bout, bframe⟩ := hroomU hc h0 hroom
  cases ha.symm.trans hs'
  cases hb.symm.trans hu'
  have hpad : p = q := by
    have acount := congrArg List.length aout
    have bcount := congrArg List.length bout
    have afill : s'.fill.toNat = 0 := by rw [aframe]; rfl
    have bfill : u'.fill.toNat = 0 := by rw [bframe]; rfl
    simp only [outputBits_length, List.length_append, List.length_replicate, afill, bfill] at acount bcount
    omega
  exact {
    session := by rw [aframe, bframe]
    faultCode := by rw [aframe, bframe]; exact h.faultCode
    faultCmd := by rw [aframe, bframe]; exact h.faultCmd
    encCount := by rw [aframe, bframe]
    cum := by rw [aframe, bframe]; exact h.cum
    low := by rw [aframe, bframe]; exact h.low
    high := by rw [aframe, bframe]; exact h.high
    follow := by rw [aframe, bframe]
    obufCap := by rw [aframe, bframe]; exact h.obufCap
    output := by rw [aout, bout, hpad] }

/-- ENC_FINISH keeps two encoders alike: one of its checks fails in both, or it ends both sessions (R189). -/
theorem encFinish {s' u' : State} (h : EncodesAlike s u) (hs : Inv s) (hu : Inv u) (henc : s.session = .enc)
    (hs' : exec .encFinish s = .next s') (hu' : exec .encFinish u = .next u') : EncodesAlike s' u' := by
  obtain ⟨hcountS, hzeroS, -, hfullS⟩ := encFinishResult s hs henc
  obtain ⟨hcountU, hzeroU, -, hfullU⟩ := encFinishResult u hu (h.session ▸ henc)
  obtain ⟨hlen, hfill, hcap⟩ := h.sink
  rw [← h.encCount, ← h.total] at hcountU hzeroU hfullU
  rw [hlen, hfill, hcap, ← h.follow] at hfullU
  by_cases hc : s.encCount = s.total
  · by_cases h0 : s.total = 0
    · cases (hzeroS hc h0).symm.trans hs'
      cases (hzeroU hc h0).symm.trans hu'
      exact { h with session := rfl, encCount := rfl }
    · rcases le_or_gt (s.obufLen.toNat + (s.fill.toNat + s.follow.toNat + 9) / 8) s.cfg.obufCap with hroom | hfull
      · exact h.encFinish_completes hs hu henc hc h0 hroom hs' hu'
      · exact h.of_fault (hfullS hc h0 hfull) (hfullU hc h0 hfull) hs' hu'
  · exact h.of_fault (hcountS hc) (hcountU hc) hs' hu'

end EncodesAlike

/-- After ENC_SYMBOL the session is open, or a fault is recorded (R22). -/
theorem exec_encSymbol_session {s t : State} {sym : Byte} (hs : s.session = .enc)
    (h : exec (.encSymbol sym) s = .next t) : t.session = .enc ∨ t.session = .faulted := by
  rcases exec_outcome h with ⟨hi, -⟩ | ⟨hf, -⟩ | ⟨-, c, -, rfl⟩ | ⟨-, -, -, hb⟩
  · cases hi
  · simp [hs] at hf
  · exact .inr rfl
  · exact .inl (by rw [encSymbolBody_frame hb]; exact hs)

/-- A run of commands that answers runs its first one and then the others. -/
theorem runCommands_cons {i : Instr} {is : List Instr} {s t : State} :
    runCommands (i :: is) s = .next t ↔ ∃ u, exec i s = .next u ∧ runCommands is u = .next t := by
  rw [runCommands]
  cases exec i s <;> simp

/-- A run of one command is that command. -/
theorem runCommands_singleton {i : Instr} {s t : State} : runCommands [i] s = .next t ↔ exec i s = .next t := by
  rw [runCommands_cons]
  simp [runCommands]

/-- The rest of a session, the symbols left and ENC_FINISH, keeps two encoders alike; a fault on the way stops both. -/
theorem encodeRun_alike {xs : List Byte} {s u t v : State} (h : EncodesAlike s u) (hs : Inv s) (hu : Inv u)
    (henc : s.session = .enc) (ht : runCommands (xs.map .encSymbol ++ [.encFinish]) s = .next t)
    (hv : runCommands (xs.map .encSymbol ++ [.encFinish]) u = .next v) : EncodesAlike t v := by
  induction xs generalizing s u with
  | nil => exact h.encFinish hs hu henc (runCommands_singleton.1 ht) (runCommands_singleton.1 hv)
  | cons x xs ih =>
    obtain ⟨s', hs', ht⟩ := runCommands_cons.1 ht
    obtain ⟨u', hu', hv⟩ := runCommands_cons.1 hv
    have h' := h.encSymbol hs hu henc hs' hu'
    rcases exec_encSymbol_session henc hs' with henc' | hfault
    · exact ih h' (exec_inv hs hs') (exec_inv hu hu') henc' ht hv
    · have hne : ∀ i ∈ xs.map Instr.encSymbol ++ [Instr.encFinish], i ≠ .reset := by
        simp only [List.mem_append, List.mem_map, List.mem_singleton]
        rintro i (⟨x, -, rfl⟩ | rfl) <;> simp
      rw [runCommands_faulted hne hfault ht, runCommands_faulted hne (h'.session ▸ hfault) hv]
      exact h'

/-- Settles O42: ENC_START makes the two encoders alike, each command keeps them alike, and the bits taken fix OBUF. -/
theorem streamDependsOnlyOnModelAndSymbols : Obligations.StreamDependsOnlyOnModelAndSymbols := by
  unfold Obligations.StreamDependsOnlyOnModelAndSymbols
  intro e f t u xs he hf hes hfs heb hfb hcount hcap ht hu
  obtain ⟨e', he', ht⟩ := runCommands_cons.1 ht
  obtain ⟨f', hf', hu⟩ := runCommands_cons.1 hu
  have hstart := EncodesAlike.start he hf hes hfs heb hfb hcount hcap he' hf'
  have henc : e'.session = .enc := by
    cases (encStartResult e hes heb).symm.trans he'
    rfl
  have hend := encodeRun_alike hstart (exec_inv he he') (exec_inv hf hf') henc ht hu
  obtain ⟨hlen, -, hbytes⟩ := obuf_eq_of_outputBits hend.output
  exact ⟨hend.session, hend.faultCode, hend.faultCmd, hend.encCount, hlen, hbytes⟩

end Sys2Proof.Machine

/-! SUPPORT. The statements about the range decoder (43_range_decoder). -/

namespace Sys2Proof.Machine

/-! ### Bits as numbers -/

/-- Reading bits below a number shifts it left by their count (R221, R223). -/
theorem foldl_bits (v : Nat) (bits : List Bool) :
    bits.foldl (fun v b => 2 * v + b.toNat) v = v * 2 ^ bits.length + bitsValue bits := by
  unfold bitsValue
  induction bits generalizing v with
  | nil => simp
  | cons b bs ih =>
    rw [List.foldl_cons, List.foldl_cons, ih, ih (2 * 0 + b.toNat), List.length_cons, pow_succ]
    ring

theorem bitsValue_cons (b : Bool) (bits : List Bool) :
    bitsValue (b :: bits) = b.toNat * 2 ^ bits.length + bitsValue bits := by
  rw [← foldl_bits, bitsValue, List.foldl_cons, Nat.mul_zero, Nat.zero_add]

theorem bitsValue_lt (bits : List Bool) : bitsValue bits < 2 ^ bits.length := by
  induction bits with
  | nil => exact Nat.one_pos
  | cons b bs ih =>
    have hb : b.toNat * 2 ^ bs.length ≤ 1 * 2 ^ bs.length := Nat.mul_le_mul_right _ (Bool.toNat_le b)
    rw [bitsValue_cons, List.length_cons, pow_succ]
    omega

theorem length_take_padded (bits : List Bool) (n : Nat) :
    ((bits ++ List.replicate n false).take n).length = n := by simp

theorem window_nil (n : Nat) : window [] n = 0 := by
  induction n with
  | zero => rfl
  | succ n ih => simp [window, ih]

/-- The bits a decoder reads, padded with zeros, are the window on its input (R160, R221). -/
theorem bitsValue_take_padded (bits : List Bool) (n : Nat) :
    bitsValue ((bits ++ List.replicate n false).take n) = window bits n := by
  induction n generalizing bits with
  | zero => rfl
  | succ n ih =>
    rw [take_padded_succ, bitsValue_cons, length_take_padded, ih]
    cases bits with
    | nil => simp [window_nil]
    | cons b bs => exact (window_cons b bs n).symm

/-! ### DEC_START -/

/-- The number of bits the source has still to return (R33, R72). -/
theorem inputBits_length (s : State) :
    (inputBits s).length = s.srcRem.toNat + 8 * (s.ibufLen.toNat - s.ipos.toNat) := by
  simp [inputBits, List.length_flatMap, Nat.mul_comm]

theorem SourceOk.sourceReset {s : State} (h : SourceOk s) : SourceOk (sourceReset s) :=
  ⟨Nat.zero_le _, h.ibufLenOk, Nat.zero_le _⟩

/-- ValueFill with a sound source (R221): VALUE is the next 16 bits of the input, padded with zeros. -/
theorem valueFill_spec {s : State} (h : SourceOk s) :
    ∃ t, valueFill s = .ok t ∧ inputBits t = (inputBits s).drop 16 ∧
      t.value.toNat = bitsValue ((inputBits s ++ List.replicate 16 false).take 16) ∧
      (t.eoi = true ↔ s.eoi = true ∨ (inputBits s).length < 16) := by
  have hk : SourceOk { s with value := 0 } := h.congr rfl rfl rfl rfl
  have hi : inputBits { s with value := 0 } = inputBits s := inputBits_congr rfl rfl rfl rfl rfl rfl
  obtain ⟨t, ht⟩ := pullBits_total 16 hk
  obtain ⟨-, hbits, hvalue, heoi⟩ := pullBits_spec hk ht
  rw [hi] at hbits hvalue heoi
  refine ⟨t, ht, hbits, hvalue.trans (Nat.mod_eq_of_lt ?_), heoi⟩
  exact (bitsValue_lt _).trans_eq (by rw [length_take_padded])

/-- With the count of the built model DEC_START fills VALUE and opens the session (R224). -/
theorem decStartBody_of_total {n : Imm} {s : State} (hn : n.toNat = s.total.toNat) (h0 : n ≠ 0) :
    decStartBody n s = (valueFill (decStartInit n s) >>= fun t => .ok { t with session := .dec }) := by
  rw [decStartBody, if_neg (not_not.2 hn), if_neg h0]
  rfl

/-- Settles O43: the checks of the body in their order, then ValueFill from a source that has just been reset. -/
theorem decStartResult : Obligations.DecStartResult := by
  unfold Obligations.DecStartResult
  intro s n hinv hs hb
  have hl : legal (.decStart n) s.session s.built = true := by simp [legal, hs, hb]
  refine ⟨fun hne => exec_raises hl (if_pos hne), fun hn h0 => ?_, fun hn h0 => ?_⟩
  · subst h0
    exact exec_completes hl ((if_neg (not_not.2 hn)).trans (if_pos rfl))
  · obtain ⟨u, hu, hbits, hvalue, heoi⟩ :=
      valueFill_spec (s := decStartInit n s) (hinv.toSourceOk.sourceReset.congr rfl rfl rfl rfl)
    have hi : inputBits (decStartInit n s) = inputBits (sourceReset s) := inputBits_congr rfl rfl rfl rfl rfl rfl
    have hlen : (inputBits (sourceReset s)).length = 8 * s.ibufLen.toNat := by simp [inputBits_length]
    rw [hi] at hbits hvalue heoi
    have hbody : decStartBody n s = .ok { u with session := .dec } := by
      rw [decStartBody_of_total hn h0, hu, Eff.ok_bind]
    have hframe := decStartBody_frame hbody
    have hrem : u.remaining = n.setWidth 64 := congrArg State.remaining hframe
    refine ⟨{ u with session := .dec }, exec_completes hl hbody, hvalue,
      (inputBits_congr rfl rfl rfl rfl rfl rfl).trans hbits, ?_, ?_, ?_⟩
    · rw [heoi, hlen, decStartInit_eoi]
      simp only [Bool.false_eq_true, false_or]
      omega
    · have := n.isLt
      rw [hrem, BitVec.toNat_setWidth]
      omega
    · rw [← hrem] at hframe
      exact hframe

/-! ### DEC_SYMBOL -/

/-- Settles O45: LOW <= VALUE <= HIGH puts the quotient in range before the clamp. -/
theorem clampIsNeverActive : Obligations.ClampIsNeverActive := by
  unfold Obligations.ClampIsNeverActive
  intro s hinv hs
  obtain ⟨⟨hrem, htotal⟩, hlow, hhigh⟩ := hinv.decoding hs
  exact scaledQuotient_range (hrem.trans_le htotal) hlow hhigh

theorem legal_decSymbol {s : State} (hs : s.session = .dec) : legal .decSymbol s.session s.built = true := by
  simp [legal, hs]

/-- With OBUF full DEC_SYMBOL overflows: the search before the append finds its symbol (R225, R226). -/
theorem decSymbolBody_of_full {s : State} (h : Inv s) (hs : s.session = .dec)
    (hfull : s.obufLen.toNat = s.cfg.obufCap) : decSymbolBody s = raiseFault .outputOverflow := by
  obtain ⟨⟨hrem, htotal⟩, hlow, hhigh⟩ := h.decoding hs
  obtain ⟨hq0, hq1⟩ := clampIsNeverActive s h hs
  obtain ⟨sym, hsym⟩ := findSymbol_total (v := (scaledQuotient s).toNat)
    (h.tableOk (h.sessionBuilt (.inr hs))).zero (by omega)
  rw [decSymbolBody, scaled_eq (hrem.trans_le htotal) hlow hhigh, Eff.ok_bind, hsym, Eff.ok_bind,
    obufAppend_raise.2 ⟨hfull, rfl⟩]
  rfl

/-- A byte is in RESULT whole (R225). -/
theorem setWidth_byte_injective {x y : Byte} (h : x.setWidth 64 = y.setWidth 64) : x = y := by
  have hnat := congrArg BitVec.toNat h
  simp only [BitVec.toNat_setWidth] at hnat
  exact BitVec.eq_of_toNat_eq (by omega)

/-- VALUE after a DEC_SYMBOL (R223): where it stood in the narrowed interval, shifted left with the bits read below. -/
theorem decSymbolBody_value {s t : State} {sym : Byte} (h : Inv s) (hs : s.session = .dec)
    (ht : decSymbolBody s = .ok t) (hsym : t.result = sym.setWidth 64) (hlo : narrowedLow sym s ≤ s.value.toNat)
    (hhi : (s.value.toNat : Int) ≤ narrowedHigh sym s) :
    (t.value.toNat : Int) = t.low.toNat +
      (s.value.toNat - narrowedLow sym s) * 2 ^ (renormAfter sym 0 s).fires +
      bitsValue ((inputBits s ++ List.replicate (renormAfter sym 0 s).fires false).take
        (renormAfter sym 0 s).fires) := by
  obtain ⟨hrlow, -, -, hvalue, -⟩ := decSymbolBody_renorm h ht hsym hlo hhi
  obtain ⟨⟨hrem, htotal⟩, hlow, hhigh⟩ := h.decoding hs
  have hnl := (narrow_bounds (sym := sym) (h.tableOk (h.sessionBuilt (.inr hs))) (hrem.trans_le htotal)
    (BitVec.le_trans hlow hhigh)).1
  have hoff : ((s.value.toNat - (narrowedLow sym s).toNat : Nat) : Int) = s.value.toNat - narrowedLow sym s := by
    omega
  rw [hvalue, hrlow, foldl_bits, length_take_padded, ← hoff]
  push_cast
  ring

/-- Settles O44: with room the symbol found is the one whose narrowed interval holds VALUE, and DecRenorm leaves what
the renormalization on integers leaves. -/
theorem decSymbolResult : Obligations.DecSymbolResult := by
  unfold Obligations.DecSymbolResult
  intro s hinv hs
  have hl := legal_decSymbol hs
  refine ⟨fun hfull => exec_raises hl (decSymbolBody_of_full hinv hs hfull), fun hroom => ?_⟩
  obtain ⟨t, sym, ht, hlo, hhi, hcount, hresult, hbyte, hren, hvlow, hvhigh, -⟩ := decSymbolBody_spec hinv hs hroom
  obtain ⟨hlow, hhigh, hbits, -, heoi⟩ := decSymbolBody_renorm hinv ht hresult hlo hhi
  obtain ⟨x, hframe⟩ := decSymbolBody_frame ht
  have hlen : t.obufLen = s.obufLen + 1 := congrArg State.obufLen hframe
  have hrem : t.remaining = s.remaining - 1 := congrArg State.remaining hframe
  have hses : t.session = if s.remaining = 1 then .idle else s.session := congrArg State.session hframe
  have hpos := (hinv.decoding hs).1.1
  have hcap := hinv.cfgOk.2.2
  refine ⟨t, sym, renormAfter sym 0 s, exec_completes hl ht, rfl, hlo, hhi, hcount, ?_, ?_, hbyte, hlow, hhigh,
    (renorm_bits 16 _ _ 0).2, hbits, decSymbolBody_value hinv hs ht hresult hlo hhi, heoi, ?_, ?_, hren, hvlow, hvhigh,
    ?_⟩
  · have := sym.isLt
    rw [hresult, BitVec.toNat_setWidth]
    omega
  · rw [hlen, obufLen_succ (by omega)]
  · rw [hrem]
    bv_omega
  · have hlast : s.remaining = 1 ↔ t.remaining = 0 := by
      rw [hrem]
      bv_omega
    rw [hses, hs, if_congr hlast rfl rfl]
  · conv_lhs => rw [hframe]
    rw [show t.obuf = _ from congrArg State.obuf hframe, hlen, hrem, hses,
      show t.result = _ from congrArg State.result hframe]

/-! ### The interval of the two sessions -/

/-- A command that does not end in FAULTED has completed (R264). -/
theorem bodyOf_of_exec {i : Instr} {s t : State} (hi : i ≠ .reset) (h : exec i s = .next t)
    (hs : s.session ≠ .faulted) (ht : t.session ≠ .faulted) : bodyOf i s = .ok t := by
  rcases exec_outcome h with ⟨hreset, -⟩ | ⟨hfault, -⟩ | ⟨-, c, -, rfl⟩ | ⟨-, -, -, hb⟩
  · exact absurd hreset hi
  · exact absurd hfault hs
  · exact absurd rfl ht
  · exact hb

/-- The narrowed interval depends on LOW, HIGH and CUM alone (R182). -/
theorem narrowed_congr {s t : State} (hlow : s.low = t.low) (hhigh : s.high = t.high) (hcum : s.cum = t.cum)
    (sym : Byte) : narrowedLow sym s = narrowedLow sym t ∧ narrowedHigh sym s = narrowedHigh sym t := by
  unfold narrowedLow narrowedHigh width cumLow cumHigh State.total
  rw [hlow, hhigh, hcum]
  exact ⟨rfl, rfl⟩

/-- Two states with one interval. -/
def SameInterval (s t : State) : Prop := s.low = t.low ∧ s.high = t.high

/-- Narrowing to one symbol from one interval under one table gives one interval (R182). -/
theorem narrow_sameInterval {s t s' t' : State} {sym : Byte} (h : SameInterval s t) (hcum : s.cum = t.cum)
    (hs : narrow sym s = .ok s') (ht : narrow sym t = .ok t') : SameInterval s' t' := by
  obtain ⟨hnl, hnh⟩ := narrowed_congr h.1 h.2 hcum sym
  obtain ⟨-, -, hsl, hsh, -⟩ := narrow_ok hs
  obtain ⟨-, -, htl, hth, -⟩ := narrow_ok ht
  exact ⟨BitVec.eq_of_toNat_eq (by omega), BitVec.eq_of_toNat_eq (by omega)⟩

theorem SameInterval.shift {s t : State} (h : SameInterval s t) : SameInterval (shift s) (shift t) :=
  ⟨by rw [shift_low, shift_low, h.1], by rw [shift_high, shift_high, h.2]⟩

theorem SameInterval.move {s t : State} (h : SameInterval s t) (d : BitVec 16) :
    SameInterval (moveInterval d s) (moveAll d t) :=
  ⟨congrArg (· - d) h.1, congrArg (· - d) h.2⟩

/-- BitPlusFollow on the one side and the bit read on the other leave the interval (R185, R223). -/
theorem SameInterval.bitPlusFollow {s s' t : State} {b : Bool} (h : SameInterval s t)
    (hs : bitPlusFollow b s = .ok s') : SameInterval s' t := by
  rw [bitPlusFollow_frame hs]
  exact h

theorem SameInterval.pullBit {s t t' : State} (h : SameInterval s t) (ht : pullBit t = .ok t') :
    SameInterval s t' := by
  rw [show t' = _ from pullBit_valueOnly ht]
  exact h

/-- The two renormalization loops fire the same branches from one interval and end with one interval (R186, R223). -/
theorem renorm_sameInterval {n : Nat} {s t s' t' : State} (h : SameInterval s t) (hs : encRenorm n s = .ok s')
    (ht : decRenorm n t = .ok t') : SameInterval s' t' := by
  induction n generalizing s t with
  | zero => cases hs
  | succ n ih =>
    unfold encRenorm at hs
    unfold decRenorm at ht
    rw [← h.1, ← h.2] at ht
    cases hc : classify s.low s.high with
    | lower =>
      simp only [hc] at hs ht
      obtain ⟨u, hu, hs⟩ := Eff.bind_ok.1 hs
      obtain ⟨p, hp, ht⟩ := Eff.bind_ok.1 ht
      exact ih ((h.bitPlusFollow hu).shift.pullBit hp) hs ht
    | upper =>
      simp only [hc] at hs ht
      obtain ⟨u, hu, hs⟩ := Eff.bind_ok.1 hs
      obtain ⟨p, hp, ht⟩ := Eff.bind_ok.1 ht
      exact ih (((h.bitPlusFollow hu).move half).shift.pullBit hp) hs ht
    | middle =>
      simp only [hc] at hs ht
      obtain ⟨v, -, hs⟩ := Eff.bind_ok.1 hs
      obtain ⟨p, hp, ht⟩ := Eff.bind_ok.1 ht
      exact ih (((show SameInterval { s with follow := v } t from h).move quarter).shift.pullBit hp) hs ht
    | stop =>
      simp only [hc] at hs ht
      cases hs
      cases ht
      exact h

/-- The interval of a completed DEC_SYMBOL is its symbol's narrowed interval, renormalized (R225). -/
theorem decSymbolBody_interval {s t : State} {sym : Byte} (h : decSymbolBody s = .ok t)
    (hsym : t.result = sym.setWidth 64) :
    ∃ p q r, narrow sym p = .ok q ∧ decRenorm renormFuel q = .ok r ∧ SameInterval s p ∧ s.cum = p.cum ∧
      SameInterval r t := by
  obtain ⟨v, -, x, -, p, hp, q, hq, r, hr, ht⟩ := decSymbolBody_ok h
  obtain ⟨-, -, rfl⟩ := obufAppend_ok.1 hp
  obtain ⟨-, rfl⟩ := countDown_ok ht
  have hx : x = sym := by
    obtain ⟨-, -, -, -, hqf⟩ := narrow_ok hq
    obtain ⟨-, hrf⟩ := decRenorm_ok hr
    rw [DecOnly, hqf] at hrf
    exact setWidth_byte_injective ((congrArg State.result hrf).symm.trans hsym)
  subst hx
  exact ⟨_, q, r, hq, hr, ⟨rfl, rfl⟩, rfl, rfl, rfl⟩

/-- Settles O46: both narrow to the one symbol, and both loops fire the same branches. -/
theorem decoderMirrorsEncoderInterval : Obligations.DecoderMirrorsEncoderInterval := by
  unfold Obligations.DecoderMirrorsEncoderInterval
  intro e d t u sym he hd hlow hhigh hcum ht htf hu huf hsym
  have hte : encSymbolBody sym e = .ok t :=
    bodyOf_of_exec (i := .encSymbol sym) (by simp) ht (by simp [he]) htf
  have hud : decSymbolBody d = .ok u := bodyOf_of_exec (i := .decSymbol) (by simp) hu (by simp [hd]) huf
  obtain ⟨-, v, hv, w, hw, n, -, rfl⟩ := encSymbolBody_ok hte
  obtain ⟨p, q, r, hq, hr, ⟨hpl, hph⟩, hpc, hrl, hrh⟩ := decSymbolBody_interval hud hsym
  have hsame : SameInterval e p := ⟨hlow.trans hpl, hhigh.trans hph⟩
  obtain ⟨hwl, hwh⟩ := renorm_sameInterval (narrow_sameInterval hsame (hcum.trans hpc) hv hq) hw hr
  exact ⟨hwl.trans hrl, hwh.trans hrh⟩

/-! ### The round trip -/

/-- A stream of whole bytes, copied to IBUF, is the input of a source that has just been reset (R72, R161). -/
theorem inputBits_of_stream {d e : State} (hfill : e.fill = 0) (hlen : d.ibufLen = e.obufLen)
    (hbytes : ∀ k, k < e.obufLen.toNat → ibufByte d k = obufByte e k) :
    inputBits (sourceReset d) = outputBits e := by
  have hfill' : e.fill.toNat = 0 := by rw [hfill]; rfl
  unfold inputBits outputBits
  rw [hfill', lowBits_zero, List.append_nil, sourceReset_ibufLen, hlen, List.range_eq_range']
  exact List.flatMap_congr fun k hk => by
    rw [← hbytes k (by simpa using hk)]
    rfl

/-- TOTAL fits DEC_START's operand (R124, R224). -/
theorem total_setWidth {s : State} (h : Inv s) (hb : s.built = true) :
    (s.total.setWidth 48).toNat = s.total.toNat := by
  have hbound := (h.tableOk hb).bound
  rw [BitVec.toNat_setWidth]
  exact Nat.mod_eq_of_lt (by unfold State.total; omega)

/-- No command of an encode session's rest is RESET. -/
theorem encodeRun_ne_reset (xs : List Byte) : ∀ i ∈ xs.map Instr.encSymbol ++ [Instr.encFinish], i ≠ .reset := by
  simp only [List.mem_append, List.mem_map, List.mem_singleton]
  rintro i (⟨x, -, rfl⟩ | rfl) <;> simp

/-- With TOTAL = 0 the only sequence that encodes without fault is the empty one (R188, R189). -/
theorem encodeRun_of_total_zero {xs : List Byte} {s t : State} (h : Inv s) (hs : s.session = .enc)
    (h0 : s.total = 0) (hr : runCommands (xs.map .encSymbol ++ [.encFinish]) s = .next t)
    (ht : t.session = .idle) : xs = [] := by
  cases xs with
  | nil => rfl
  | cons x xs =>
    obtain ⟨u, hu, hr⟩ := runCommands_cons.1 hr
    have hcount : s.encCount = s.total := by
      have hle := (h.encoding hs).1
      rw [h0] at hle ⊢
      exact BitVec.eq_of_toNat_eq (Nat.le_zero.1 hle)
    cases ((encSymbolFaultsInOrder s x h hs).1 hcount).symm.trans hu
    rw [runCommands_faulted (encodeRun_ne_reset xs) rfl hr] at ht
    cases ht

/-- DEC_START on a stream leaves a decoder that tracks every encoder at its start, with the whole stream to come (R181,
R224, R227). -/
theorem decStart_tracks {d : State} {n : Imm} {bits : List Bool} (hd : Inv d) (hds : d.session = .idle)
    (hdb : d.built = true) (hn : n.toNat = d.total.toNat) (h0 : n ≠ 0) (hin : inputBits (sourceReset d) = bits) :
    ∃ t, exec (.decStart n) d = .next t ∧ Inv t ∧ t.session = .dec ∧ t.cum = d.cum ∧ t.cfg = d.cfg ∧
      t.obufLen = 0 ∧ t.remaining.toNat = n.toNat ∧
      ∀ s : State, s.low = 0x0000 → s.high = 0xFFFF → s.follow = 0 → Tracks t s bits := by
  obtain ⟨t, ht, hvalue, hbits, -, hrem, hframe⟩ := (decStartResult d n hd hds hdb).2.2 hn h0
  have hinv := exec_inv hd ht
  refine ⟨t, ht, hinv, congrArg State.session hframe, by rw [hframe], by rw [hframe], congrArg State.obufLen hframe,
    hrem, fun s hlow hhigh hfollow => ?_⟩
  have hf : s.follow.toNat = 0 := by rw [hfollow]; rfl
  refine ⟨hinv.toSourceOk, by rw [hlow, hframe], by rw [hhigh, hframe], ?_, by rw [hbits, hin, hf]⟩
  rw [hvalue, hin, bitsValue_take_padded, hf]
  simp [aheadValue]

/-- Settles O47: DEC_START's decoder tracks ENC_START's encoder, and the two then run in lockstep. -/
theorem roundTrip : Obligations.RoundTrip := by
  unfold Obligations.RoundTrip
  intro e₀ e₁ d₀ xs he hes heb hrun he₁ hd hds hdb hcount hlen hbytes hroom
  obtain ⟨e, hstart, hrun⟩ := runCommands_cons.1 hrun
  have heinv := exec_inv he hstart
  cases (encStartResult e₀ hes heb).symm.trans hstart
  have hcum : d₀.cum = e₀.cum := by rw [hd.builtTable hdb, he.builtTable heb, hcount]
  have htotal : d₀.total = e₀.total := by unfold State.total; rw [hcum]
  have hn : (e₀.total.setWidth 48).toNat = d₀.total.toNat := by rw [total_setWidth he heb, htotal]
  by_cases h0 : e₀.total = 0
  · obtain rfl := encodeRun_of_total_zero heinv rfl h0 hrun he₁
    obtain ⟨-, hzero, -⟩ := decStartResult d₀ (e₀.total.setWidth 48) hd hds hdb
    rw [h0] at hn hzero ⊢
    exact ⟨_, runCommands_singleton.2 (hzero hn rfl), hds, rfl, fun k hk => absurd hk (Nat.not_lt_zero k)⟩
  · obtain ⟨bits, hout, -, hxs, hfill, hlock⟩ := encodeRun_lockstep heinv rfl h0 hrun he₁
    have hne : e₀.total.setWidth 48 ≠ 0 := fun hc =>
      h0 (BitVec.eq_of_toNat_eq (by rw [← htotal, ← hn, hc]; rfl))
    have hlength : (e₀.total.setWidth 48).toNat = xs.length := by
      rw [hn, htotal, ← show _ = e₀.total.toNat from hxs]
      exact Nat.zero_add _
    have hxs0 : xs ≠ [] := fun hc => hne (BitVec.eq_of_toNat_eq (by rw [hlength, hc]; rfl))
    obtain ⟨d, hdstart, hdinv, hdses, hdcum, hdcfg, hdlen, hdrem, htracks⟩ :=
      decStart_tracks hd hds hdb hn hne ((inputBits_of_stream hfill hlen hbytes).trans hout)
    have hdlen' : d.obufLen.toNat = 0 := by rw [hdlen]; rfl
    obtain ⟨d₁, hdrun, hend, hlen', -, hbytes'⟩ := hlock d hdinv (by rw [hdses, if_neg hxs0]) (hdcum.trans hcum)
      (htracks _ rfl rfl rfl) (hdrem.trans hlength) (by rw [hdlen', Nat.zero_add, hdcfg]; exact hroom)
    rw [hdlen', Nat.zero_add] at hlen'
    refine ⟨d₁, runCommands_cons.2 ⟨d, hdstart, by rw [hlength]; exact hdrun⟩, hend, hlen', fun k hk => ?_⟩
    rw [← hbytes' k hk, hdlen', Nat.zero_add]

end Sys2Proof.Machine

/-! SUPPORT. The statement about the system commands (45_system). -/

namespace Sys2Proof.Machine

/-- Settles O16: in FAULTED the command is ignored (R265); elsewhere it is legal and its body gives the state back. -/
theorem nopChangesNothing : Obligations.NopChangesNothing := by
  unfold Obligations.NopChangesNothing
  intro s
  by_cases hs : s.session = .faulted
  · exact exec_ignored (by decide) hs
  · exact exec_completes (legal_of_inEveryColumn hs (by decide)) rfl

end Sys2Proof.Machine

/-! SUPPORT. The statements about faults (60_exceptions). -/

namespace Sys2Proof.Machine

/-- A word issued outside FAULTED that ends in FAULTED was rejected, or its command recorded a fault: either way the
state is the fault entry for that word (R264). -/
theorem issueWord_faults {w : Word} {s t : State} (hs : s.session ≠ .faulted) (h : issueWord w s = .next t)
    (ht : t.session = .faulted) : ∃ c, c ≠ .none ∧ t = faultEntry c w s := by
  cases hw : decode w with
  | error e =>
    rw [issueWord_error hw, if_neg hs] at h
    cases h
    exact ⟨rejection e, by cases e <;> decide, rfl⟩
  | ok i =>
    rw [issueWord_ok hw] at h
    rcases exec_outcome h with ⟨-, rfl⟩ | ⟨hf, -⟩ | ⟨-, c, hc, rfl⟩ | ⟨hi, -, hl, hb⟩
    · cases ht
    · exact absurd hf hs
    · exact ⟨c, hc, by rw [encode_of_decode hw]⟩
    · exact absurd ht (bodyOf_session_ne_faulted hi hs hl hb)

/-- Settles O10: the state after is the fault entry, which writes the three registers only. -/
theorem faultsLeaveNoTrace : Obligations.FaultsLeaveNoTrace := by
  unfold Obligations.FaultsLeaveNoTrace
  intro w s t hs h ht
  obtain ⟨c, hc, rfl⟩ := issueWord_faults hs h ht
  exact ⟨hc, rfl⟩

/-- Settles O11, by whether the command was legal. -/
theorem faultCausesByCommand : Obligations.FaultCausesByCommand := by
  unfold Obligations.FaultCausesByCommand
  intro i s t hs h ht
  rcases exec_faults hs h ht with ⟨-, hc⟩ | ⟨-, hc⟩
  · exact List.mem_cons.2 (.inl hc)
  · exact List.mem_cons_of_mem _ hc

/-- Outside IDLE a write that is no command changes nothing (R69, R71). -/
theorem busWrite_of_session_ne_idle {s : State} (hs : s.session ≠ .idle) (a : Addr) (width : Nat) (data : Word) :
    busWrite a width data s = s := by
  rcases busWrite_cases a width data s with h | ⟨hidle, -⟩ | ⟨hidle, -⟩
  · exact h
  · exact absurd hidle hs
  · exact absurd hidle hs

/-- Settles O12, by the access served: a command goes to `issueWord`, another write to the bus, and a read to neither. -/
theorem faultedIgnoresAllButReset : Obligations.FaultedIgnoresAllButReset := by
  unfold Obligations.FaultedIgnoresAllButReset
  intro s hs
  have hcmd (w : Word) : serve (.write cmdAddr 64 w) s = issueWord w s := serve_write_command (by decide) w s
  refine ⟨fun w hw => ?_, ?_, fun a width data hc => ?_, fun a width => rfl, ?_, ?_⟩
  · rw [hcmd, issueWord_faulted hs, if_neg hw]
  · rw [hcmd, issueWord_faulted hs, if_pos rfl]
  · have hidle : s.session ≠ .idle := by simp [hs]
    rw [serve_write (mt isCommand_iff.2 (by simp [hc])), busWrite_of_session_ne_idle hidle]
  · exact busRead_register (by decide) s
  · exact busRead_register (by decide) s

end Sys2Proof.Machine

/-! SUPPORT. The statements about the whole machine's progress and the hazards (70_reset_and_hazards). -/

namespace Sys2Proof.Machine

/-! ### Every access is answered -/

/-- Every command answers a next state: RESET always, one ignored or illegal by R97, and a legal one since its body
completes or raises a fault of the core (R323). -/
theorem exec_answers (i : Instr) {s : State} (h : Inv s) : ∃ t, exec i s = .next t := by
  by_cases hi : i = .reset
  · exact ⟨performReset s, hi ▸ exec_reset s⟩
  by_cases hs : s.session = .faulted
  · exact ⟨s, exec_ignored hi hs⟩
  cases hl : legal i s.session s.built with
  | false => exact ⟨_, exec_illegal hi hs hl⟩
  | true =>
    rcases bodyOf_total hi h hl with ⟨t, ht⟩ | ⟨c, hc⟩
    · exact ⟨t, exec_completes hl ht⟩
    · exact ⟨_, exec_raises hl hc⟩

/-- Every word written to CMD is answered, the words that are no command included (R96, R265). -/
theorem issueWord_answers (w : Word) {s : State} (h : Inv s) : ∃ t, issueWord w s = .next t := by
  cases hw : decode w with
  | ok i =>
    rw [issueWord_ok hw]
    exact exec_answers i h
  | error e =>
    rw [issueWord_error hw]
    split
    · exact ⟨s, rfl⟩
    · exact ⟨faultEntry (rejection e) w s, rfl⟩

/-- Every access is answered: only a command's word asks for the invariant. -/
theorem serve_answers (a : Access) {s : State} (h : Inv s) : ∃ t, serve a s = .next t := by
  cases a with
  | resetInput => exact ⟨performReset s, rfl⟩
  | read addr width => exact ⟨{ s with readData := busRead addr width s }, rfl⟩
  | write addr width data =>
    by_cases hc : addr.toNat = 0x000 ∧ width = 64
    · rw [serve_write_command hc]
      exact issueWord_answers data h
    · exact ⟨busWrite addr width data s, serve_write hc data s⟩

/-- Settles O58: an idle core keeps its state (R275), and the access a step serves is answered on a state that still
meets the invariant, since the queue is no part of it. -/
theorem stepAlwaysAnswers : Obligations.StepAlwaysAnswers := by
  unfold Obligations.StepAlwaysAnswers
  intro s h
  obtain ⟨hidle, holdest, -⟩ := accessesServedInOrder
  cases hp : s.pending with
  | nil => exact ⟨s, hidle s hp⟩
  | cons a rest =>
    rw [holdest s a rest hp]
    exact serve_answers a (h.congr rfl)

/-! ### Emitted bytes -/

/-- A body that is legal in ENC only appends to OBUF: the queries do not write the sink, ENC_SYMBOL and ENC_FINISH
append, and every other command is illegal there, ENC_START and BIT_RESET, which take OBUF_LEN back, among them (R98). -/
theorem bodyOf_appended_of_enc {i : Instr} {s t : State} (hi : i ≠ .reset) (hs : s.session = .enc)
    (hl : legal i s.session s.built = true) (h : bodyOf i s = .ok t) : Appended s t := by
  rw [hs] at hl
  cases i with
  | reset => exact absurd rfl hi
  | encSymbol sym => exact encSymbolBody_appended h
  | encFinish => exact encFinishBody_appended h
  | nop | modelReadCount sym | modelReadCum k | modelFind v =>
    rw [bodyOf_withWritten h]
    exact .of_eq rfl rfl rfl
  | _ => cases hl

/-- In an encode session a command but RESET only appends to OBUF, faults included, which write no buffer (R264). -/
theorem exec_appended_of_enc {i : Instr} {s t : State} (hi : i ≠ .reset) (hs : s.session = .enc)
    (h : exec i s = .next t) : Appended s t := by
  rcases exec_outcome h with ⟨hr, -⟩ | ⟨-, rfl⟩ | ⟨-, c, -, rfl⟩ | ⟨-, -, hl, hb⟩
  · exact absurd hr hi
  · exact .of_eq rfl rfl rfl
  · exact .of_eq rfl rfl rfl
  · exact bodyOf_appended_of_enc hi hs hl hb

/-- Settles O60: the command appends, so the bytes below the old OBUF_LEN are outside what it wrote. -/
theorem emittedBytesAreFinal : Obligations.EmittedBytesAreFinal := by
  unfold Obligations.EmittedBytesAreFinal
  intro i s t hs hi h
  obtain ⟨hlen, hbytes⟩ := exec_appended_of_enc hi hs h
  exact ⟨BitVec.le_def.2 hlen, fun k hk => hbytes k fun ⟨hk', _⟩ => absurd hk (Nat.not_lt.2 hk')⟩

end Sys2Proof.Machine
